-- ==== Sys2Proof/Word.lean ====
section
/-! DEFINITION. The widths of HUFF1's values (00_scope.md R7, R10) and the plain data its memories hold:
queue elements, tree nodes and code table entries (10_state.md R35, R36, R38). -/

namespace Sys2Proof

/-- A register, a count, a queue key or a host data word: 32 bits, unsigned (00_scope.md R10). -/
abbrev Word := BitVec 32

/-- A stream byte or a byte value of the alphabet (00_scope.md R10). -/
abbrev Byte := BitVec 8

/-- A node index or a queue payload: 9 bits (00_scope.md R7, PAYLOAD_W). -/
abbrev NodeIdx := BitVec 9

/-- A queue element (key, payload) (10_state.md R35). -/
structure Elem where
  key : Word
  payload : NodeIdx
  deriving DecidableEq, Repr, Inhabited

/-- A tree node: "tagged variant {Leaf, Internal(left, right)}" (10_state.md R36). -/
inductive Node where
  | leaf (b : Byte)
  | internal (l r : NodeIdx)
  deriving DecidableEq, Repr, Inhabited

/-- A code table entry; `len = 0` means "no codeword", and the codeword's first bit is `cw[len-1]`
(10_state.md R38). -/
structure CodeEntry where
  len : Byte
  cw : BitVec 256
  deriving DecidableEq, Repr, Inhabited

end Sys2Proof
end

