-- ==== Sys2Proof/Config.lean ====
section
/-! DEFINITION. What is fixed for one HUFF1: the constants of 00_scope.md R7, the two parameters HEAP_CAP and
BASE (R6, 20_memory.md R70), and the free values (93_implementation_defined.md U1-U4, U7), which have no body. -/

namespace Sys2Proof

namespace Config

/-- MAX_TOTAL = 2^31 - 1, the largest legal count and the largest legal sum of counts (00_scope.md R7). -/
def maxTotal : Nat := 0x7FFFFFFF

/-- NIL, the absent-child and empty-tree index (00_scope.md R7). -/
def nil : NodeIdx := 0x1FF#9

/-- The constant the ID register reads (10_state.md R27). -/
def idValue : Word := 0x48554631#32

/-- PARAMS.SPEC_REV (10_state.md R27). -/
def specRev : BitVec 16 := 1#16

/-- The size of the register aperture in bytes (10_state.md R20). -/
def apertureBytes : Nat := 0x800

/-- FREE VALUE (U3, U7; log 6): what the n-th drawn register read returns. -/
opaque freeRead : Nat → Word

/-- FREE VALUE (U4; log 7): which of the running command's phases the n-th drawn STATUS read shows. -/
opaque freePhase : Nat → Nat

/-- FREE VALUE (U1; log 10): the contents of a heap slot at or above heap_size; no command reads one. -/
opaque unspecElem : Nat → Elem

/-- FREE VALUE (U2; log 11): the contents of a tree node at or above node_count; no command of a
reachable state reads one. -/
opaque unspecNode : Nat → Node

end Config

/-- The two parameters of 93_implementation_defined.md U12 and U13. No step changes them (logs 1, 2). -/
structure Params where
  /-- BASE, the platform's address of the aperture (20_memory.md R70). -/
  base : Nat
  /-- HEAP_CAP, the queue's capacity (00_scope.md R6). -/
  heapCap : Nat
  deriving DecidableEq, Repr

/-- HUFF1's HEAP_CAP is 256 (00_scope.md R6); BASE is the platform's, 0 here (DESIGN CHOICE, log 1; unsafe only
for a claim that names an absolute address). -/
def Params.huff1 : Params := { base := 0, heapCap := 256 }

end Sys2Proof
end

