-- ==== Sys2Proof/Syntax.lean ====
section
/-! DEFINITION. The 21 commands of the opcode map (30_encoding.md R107), one constructor per row of
spec/opcode_table.json. A command word has no operand bits: its operands are ARG0 and ARG1 (R100, R103). -/

namespace Sys2Proof

/-- The command set (30_encoding.md R107). -/
inductive Instr where
  /-- NOP (46_control.md R280) -/
  | nop
  /-- RESET (46_control.md R281) -/
  | reset
  /-- PQ_INSERT (40_priority_queue.md R137) -/
  | pqInsert
  /-- PQ_EXTRACT_MIN (40_priority_queue.md R138) -/
  | pqExtractMin
  /-- PQ_SIZE (40_priority_queue.md R139) -/
  | pqSize
  /-- PQ_CLEAR (40_priority_queue.md R140) -/
  | pqClear
  /-- PQ_PEEK (40_priority_queue.md R141) -/
  | pqPeek
  /-- FREQ_CLEAR (41_tree_builder.md R161) -/
  | freqClear
  /-- FREQ_COUNT (41_tree_builder.md R162) -/
  | freqCount
  /-- TREE_BUILD (41_tree_builder.md R170) -/
  | treeBuild
  /-- TREE_READ (41_tree_builder.md R171) -/
  | treeRead
  /-- CODE_GEN (42_code_table.md R192) -/
  | codeGen
  /-- CODE_LOOKUP (42_code_table.md R193) -/
  | codeLookup
  /-- BW_WRITE_BIT (43_bit_stream_io.md R218) -/
  | bwWriteBit
  /-- BW_WRITE_U32 (43_bit_stream_io.md R219) -/
  | bwWriteU32
  /-- BW_FLUSH (43_bit_stream_io.md R220) -/
  | bwFlush
  /-- BR_READ_BIT (43_bit_stream_io.md R221) -/
  | brReadBit
  /-- BR_READ_U32 (43_bit_stream_io.md R222) -/
  | brReadU32
  /-- BR_ALIGN (43_bit_stream_io.md R223) -/
  | brAlign
  /-- ENCODE (44_encoder_fsm.md R247) -/
  | encode
  /-- DECODE (45_decoder_fsm.md R266) -/
  | decode
  deriving DecidableEq, Repr

end Sys2Proof
end

