-- ==== Sys2Proof/WellFormed.lean ====
section
/-! DEFINITION. What the spec calls well formed before anything runs: a command word (30_encoding.md R100, R102,
R108), a register access (20_memory.md R71, R74) and a configuration (00_scope.md R6, 20_memory.md R70). An Instr
has no operand field, so every Instr is well formed. -/

namespace Sys2Proof

/-- Every command is well formed: the word holds no operand (30_encoding.md R100). -/
def Instr.wf (_ : Instr) : Bool := true

/-- The opcode ranges that name no command (30_encoding.md R108), as pairs (first, last). -/
def illegalOpcodeRanges : List (Nat × Nat) :=
  [(0x02, 0x0F), (0x15, 0x1F), (0x24, 0x2F), (0x32, 0x3F), (0x43, 0x47), (0x4B, 0x4F), (0x52, 0xFF)]

/-- R108: a word is a command when RSVD = w[31:8] is 0 and its OPCODE lies in none of the illegal ranges. -/
def commandWordWf (w : Word) : Bool :=
  w.extractLsb' 8 24 == 0#24 &&
    illegalOpcodeRanges.all fun r => !(decide (r.1 ≤ (w.extractLsb' 0 8).toNat ∧ (w.extractLsb' 0 8).toNat ≤ r.2))

/-- R71, R74: a register access has 4 bytes, a 4-byte aligned address, and lies in the aperture at BASE. -/
def accessWf (p : Params) (n addr : Nat) : Bool :=
  n == 4 && addr % 4 == 0 && decide (p.base ≤ addr) && decide (addr < p.base + Config.apertureBytes)

/-- R6, R70: 256 ≤ HEAP_CAP ≤ 65535, and BASE is 4-byte aligned. -/
def Params.wf (p : Params) : Bool :=
  decide (256 ≤ p.heapCap) && decide (p.heapCap ≤ 65535) && p.base % 4 == 0

end Sys2Proof
end

