-- ==== Sys2Proof/Decode.lean ====
section
/-! DEFINITION. Decoding of a CMD word (30_encoding.md R100, R101, R107, R108): total on 32-bit words, with a named
reason for every word that is no command. After it, the encoder. A command is one word, moved whole (20_memory.md
R73), so no byte order enters here (log 20). -/

namespace Sys2Proof

/-- Why a word is no command (30_encoding.md R108). -/
inductive DecodeReject where
  /-- some bit of w[31:8] is 1 (R102) -/
  | reservedBitsSet
  /-- the OPCODE names no row of R107 -/
  | unassignedOpcode
  deriving DecidableEq, Repr

/-- OPCODE = w[7:0] (30_encoding.md R100). -/
def opcodeField (w : Word) : Byte := w.extractLsb' 0 8

/-- RSVD = w[31:8] (30_encoding.md R100). -/
def rsvdField (w : Word) : BitVec 24 := w.extractLsb' 8 24

/-- The opcode map (30_encoding.md R107), row by row. -/
def opcodeMap : List (Byte × Instr) :=
  [(0x00, .nop), (0x01, .reset),
   (0x10, .pqInsert), (0x11, .pqExtractMin), (0x12, .pqSize), (0x13, .pqClear), (0x14, .pqPeek),
   (0x20, .freqClear), (0x21, .freqCount), (0x22, .treeBuild), (0x23, .treeRead),
   (0x30, .codeGen), (0x31, .codeLookup),
   (0x40, .bwWriteBit), (0x41, .bwWriteU32), (0x42, .bwFlush),
   (0x48, .brReadBit), (0x49, .brReadU32), (0x4A, .brAlign),
   (0x50, .encode), (0x51, .decode)]

/-- The command an opcode byte selects, if any (30_encoding.md R107). -/
def decodeOpcode (op : Byte) : Option Instr :=
  (opcodeMap.find? fun row => row.1 == op).map (·.2)

/-- Decode of an accepted command word (30_encoding.md R101): the reserved bits are checked with the opcode, and
either failure is ILLEGAL_COMMAND. -/
def decode (w : Word) : Except DecodeReject Instr :=
  if rsvdField w ≠ 0#24 then .error .reservedBitsSet
  else
    match decodeOpcode (opcodeField w) with
    | some i => .ok i
    | none => .error .unassignedOpcode

/-- The OPCODE of a command (30_encoding.md R107). -/
def opcode : Instr → Byte
  | .nop => 0x00
  | .reset => 0x01
  | .pqInsert => 0x10
  | .pqExtractMin => 0x11
  | .pqSize => 0x12
  | .pqClear => 0x13
  | .pqPeek => 0x14
  | .freqClear => 0x20
  | .freqCount => 0x21
  | .treeBuild => 0x22
  | .treeRead => 0x23
  | .codeGen => 0x30
  | .codeLookup => 0x31
  | .bwWriteBit => 0x40
  | .bwWriteU32 => 0x41
  | .bwFlush => 0x42
  | .brReadBit => 0x48
  | .brReadU32 => 0x49
  | .brAlign => 0x4A
  | .encode => 0x50
  | .decode => 0x51

/-- The word of a command: zext_32(OPCODE) (30_encoding.md R107). -/
def encode (i : Instr) : Word := 0#24 ++ opcode i

/-- The instruction bits of an opcode-table row as a CMD word: a command is exactly one 32-bit word
(30_encoding.md R109), and the bits above `nbits` are 0 (log 21). -/
def tableWord (nbits w : Nat) : Option Word :=
  if w % 2 ^ nbits < 2 ^ 32 then some (BitVec.ofNat 32 (w % 2 ^ nbits)) else none

/-- The instruction the decoder reads from a row's bits (log 21). -/
def decodeTableWord (nbits w : Nat) : Option Instr :=
  match tableWord nbits w with
  | none => none
  | some cw =>
    match decode cw with
    | .ok i => some i
    | .error _ => none

end Sys2Proof
end

