-- ==== Sys2Proof/Machine/State.lean ====
section
/-! DEFINITION. The state of HUFF1 and of its surroundings as plain data (10_state.md, 20_memory.md R42), the reasons
a step can stop, and the state right after reset (10_state.md R44). -/

namespace Sys2Proof.Machine

/-- The error conditions (60_exceptions.md R301). No other ERR_CODE is ever produced. -/
inductive ErrCode where
  | none
  | queueUnderflow
  | streamTruncated
  | formatError
  | queueOverflow
  | illegalCommand
  | inputTooLong
  | badArgument
  deriving DecidableEq, Repr

/-- The phases (10_state.md R22). The values 10..15 are never taken. -/
inductive Phase where
  | idle
  | count
  | build
  | codegen
  | headerWrite
  | payload
  | headerRead
  | walk
  | finish
  | exec
  deriving DecidableEq, Repr

/-- The STATUS register (10_state.md R21); its reserved bits read 0 and are held nowhere. -/
structure Status where
  busy : Bool
  err : Bool
  rejected : Bool
  errCode : ErrCode
  phase : Phase
  lastOp : Byte
  deriving DecidableEq, Repr

/-- The reader cursor (10_state.md R39). -/
structure Reader where
  buf : Byte
  off : Fin 8
  valid : Bool
  deriving DecidableEq, Repr

/-- The writer cursor (10_state.md R40); `off` is the number of bits buffered. -/
structure Writer where
  buf : Byte
  off : Fin 8
  deriving DecidableEq, Repr

/-- Transient state of the running command (10_state.md R41, 30_encoding.md R101): the accepted word, the latched
arguments, and DECODE's symbol count. All zero while no command runs (log 9). -/
structure Running where
  word : Word
  a0 : Word
  a1 : Word
  emitted : Word
  deriving DecidableEq, Repr

/-- No command running (log 9). -/
def Running.none : Running := { word := 0#32, a0 := 0#32, a1 := 0#32, emitted := 0#32 }

/-- Everything a reset clears (10_state.md R44). -/
structure Block where
  status : Status
  arg0 : Word
  arg1 : Word
  result0 : Word
  result1 : Word
  /-- CW0..CW7 as one value (R31) -/
  cwreg : BitVec 256
  /-- the live slots 0..heap_size-1 (R35, log 10) -/
  heap : List Elem
  freq : Vector Word 256
  nTotal : Word
  /-- the live nodes 0..node_count-1 (R36, log 11) -/
  nodes : List Node
  root : NodeIdx
  code : Vector CodeEntry 256
  reader : Reader
  writer : Writer
  inCount : BitVec 64
  outCount : BitVec 64
  running : Running
  deriving DecidableEq, Repr

/-- A port event (10_state.md R42). -/
inductive PortEvent where
  | srcByte (b : Byte)
  | srcEOF
  | srcRewind
  | srcRelease
  | snkByte (b : Byte)
  | snkClose
  deriving DecidableEq, Repr

/-- One move that is not the block's own: a bus access, a host action on the source, the reset input, or `run`, which
lets the block move when it is busy (log 4). -/
inductive HostAction where
  /-- MemRead(addr, n) (20_memory.md R70, R71) -/
  | memRead (n addr : Nat)
  /-- MemWrite(addr, n, v) (20_memory.md R70, R71) -/
  | memWrite (n addr : Nat) (v : Word)
  /-- the host chooses src_bytes and src_pos (20_memory.md R91) -/
  | setSource (bytes : List Byte) (pos : Nat)
  /-- the reset input is asserted; if a command runs, `kept` of its port events have happened (R332, log 8) -/
  | assertReset (kept : Nat)
  /-- the reset input is released (R331) -/
  | releaseReset
  /-- the block moves: a running command runs to its end (R92) -/
  | run
  /-- the host reads STATUS, at `addr`, until bit 0 of what it reads is 0 (30_encoding.md R110); a running command is
  still seen busy by `polls` more reads (70_reset_and_hazards.md R345, log 22) -/
  | wait (addr polls : Nat)
  deriving DecidableEq, Repr

/-- What one register read of the host returned (30_encoding.md R110, log 17). -/
structure ReadResult where
  offset : Nat
  value : Word
  deriving DecidableEq, Repr

/-- The whole machine: parameters, the block, the reset input, the ports (10_state.md R42), and the model's own
fields `script`, `reads` and `draws` (logs 4, 17, 6). -/
structure State where
  params : Params
  block : Block
  resetLine : Bool
  src : List Byte
  srcPos : Nat
  portlog : List PortEvent
  script : List HostAction
  reads : List ReadResult
  draws : Nat
  deriving DecidableEq, Repr

/-- HUFF1 has no fault that stops the machine: every error of a command is a NEXT state with STATUS.ERR set
(60_exceptions.md R300, R306). So the type has no constructor (log 26). -/
inductive Fault where
  deriving DecidableEq, Repr

/-- Where the spec says that a model refuses. -/
inductive Refusal where
  /-- Raised by exec for an instruction that has no meaning yet. Safe. No arm raises it. -/
  | notModelled (mnemonic : String)
  /-- Raised by step when HEAP_CAP or BASE lies outside the range of 00_scope.md R6 and 20_memory.md R70 ("a model
  refuses it"). Safe. -/
  | notHuff1Configuration
  /-- Raised by a bus access of n ≠ 4 bytes (20_memory.md R71, U9). Safe. -/
  | unsupportedWidth
  /-- Raised by a bus access at an address that is no multiple of 4 (20_memory.md R71, U9). Safe. -/
  | misalignedAccess
  /-- Raised by a bus access outside BASE .. BASE + 0x7FF (20_memory.md R74, U10): the platform's business. Safe. -/
  | outsideAperture
  /-- Raised when the host changes the source while a command that reads it runs (20_memory.md R91, U15). Safe. -/
  | sourceChangedWhileRead
  deriving DecidableEq, Repr

/-- STATUS after reset, 0x00000000 (10_state.md R44). -/
def Status.reset : Status :=
  { busy := false, err := false, rejected := false, errCode := .none, phase := .idle, lastOp := 0#8 }

/-- The reader after reset (10_state.md R44). -/
def Reader.reset : Reader := { buf := 0#8, off := 0, valid := false }

/-- The writer after reset (10_state.md R44). -/
def Writer.reset : Writer := { buf := 0#8, off := 0 }

/-- A frequency table of zeros (10_state.md R44). -/
def zeroFreq : Vector Word 256 := Vector.replicate 256 0#32

/-- A code table with no codeword (10_state.md R44). -/
def emptyCode : Vector CodeEntry 256 := Vector.replicate 256 { len := 0#8, cw := 0#256 }

/-- The block after reset (10_state.md R44). The transient part has no reset value of its own (log 9). -/
def Block.reset : Block :=
  { status := Status.reset, arg0 := 0#32, arg1 := 0#32, result0 := 0#32, result1 := 0#32, cwreg := 0#256,
    heap := [], freq := zeroFreq, nTotal := 0#32, nodes := [], root := Config.nil, code := emptyCode,
    reader := Reader.reset, writer := Writer.reset, inCount := 0#64, outCount := 0#64, running := Running.none }

/-- The machine right after reset (10_state.md R44, 70_reset_and_hazards.md R331): the block idle in its reset state,
the reset input released, no source, no port event, and nothing pending at the host (logs 1, 4, 6, 15, 17). -/
def State.reset : State :=
  { params := Params.huff1, block := Block.reset, resetLine := false, src := [], srcPos := 0, portlog := [],
    script := [], reads := [], draws := 0 }

end Sys2Proof.Machine
end

