-- ==== Sys2Proof/Machine/Flags.lean ====
section
/-! DEFINITION. The flags and packed views of the state: ERR_CODE and PHASE numbers, the STATUS, TREE_INFO,
BIT_CURSOR, PQ_SIZE and PARAMS words (10_state.md R21, R22, R25, R27, R28, R29; 60_exceptions.md R301), and the two
updates of STATUS every command shares (00_scope.md R12). -/

namespace Sys2Proof.Machine

/-- The number of an error code (60_exceptions.md R301). -/
def ErrCode.toByte : ErrCode → Byte
  | .none => 0x00
  | .queueUnderflow => 0x01
  | .streamTruncated => 0x02
  | .formatError => 0x03
  | .queueOverflow => 0x10
  | .illegalCommand => 0x11
  | .inputTooLong => 0x12
  | .badArgument => 0x13

/-- The number of a phase (10_state.md R22). -/
def Phase.toBits : Phase → BitVec 4
  | .idle => 0
  | .count => 1
  | .build => 2
  | .codegen => 3
  | .headerWrite => 4
  | .payload => 5
  | .headerRead => 6
  | .walk => 7
  | .finish => 8
  | .exec => 9

/-- One bit from a flag. -/
def flagBit (b : Bool) : BitVec 1 := if b then 1#1 else 0#1

/-- The STATUS word (10_state.md R21): LAST_OP [31:24], 0 [23:20], PHASE [19:16], ERR_CODE [15:8], 0 [7:3],
REJECTED [2], ERR [1], BUSY [0]. -/
def statusWord (st : Status) : Word :=
  st.lastOp ++ 0#4 ++ st.phase.toBits ++ st.errCode.toByte ++ 0#5 ++ flagBit st.rejected ++ flagBit st.err ++
    flagBit st.busy

/-- PQ_SIZE (10_state.md R25): heap_size in [15:0], 0 above. -/
def pqSizeWord (b : Block) : Word := 0#16 ++ BitVec.ofNat 16 b.heap.length

/-- TREE_INFO (10_state.md R28): NODE_COUNT [24:16], ROOT [8:0], 0 elsewhere. -/
def treeInfoWord (b : Block) : Word := 0#7 ++ BitVec.ofNat 9 b.nodes.length ++ 0#7 ++ b.root

/-- BIT_CURSOR (10_state.md R29). -/
def bitCursorWord (b : Block) : Word :=
  0#5 ++ BitVec.ofNat 3 b.writer.off.val ++ b.writer.buf ++ 0#4 ++ flagBit b.reader.valid ++
    BitVec.ofNat 3 b.reader.off.val ++ b.reader.buf

/-- PARAMS (10_state.md R27): SPEC_REV [31:16], HEAP_CAP [15:0]. -/
def paramsWord (p : Params) : Word := Config.specRev ++ BitVec.ofNat 16 p.heapCap

/-- STATUS at the acceptance of a command word (00_scope.md R12): BUSY 1, ERR, ERR_CODE and REJECTED cleared, LAST_OP
the word's bits [7:0]. PHASE is not written here; until the block moves no read shows it (log 7). -/
def Status.accepted (st : Status) (w : Word) : Status :=
  { st with busy := true, err := false, errCode := .none, rejected := false, lastOp := w.extractLsb' 0 8 }

/-- STATUS at `return` (00_scope.md R12): PHASE IDLE and BUSY 0. -/
def Status.returned (st : Status) : Status := { st with phase := .idle, busy := false }

/-- STATUS at the end of the error exit (60_exceptions.md R306): ERR, ERR_CODE and BUSY 0; PHASE is kept. -/
def Status.raised (st : Status) (e : ErrCode) : Status := { st with err := true, errCode := e, busy := false }

end Sys2Proof.Machine
end

