-- ==== Sys2Proof/Machine/Operands.lean ====
section
/-! DEFINITION. The operands of the commands: the latched ARG0 and ARG1 as each command uses them, their legal ranges
(30_encoding.md R103, R104), the access to table entries they select, and the result formats (R105, R106). -/

namespace Sys2Proof.Machine

/-- ARG0 as latched at acceptance (30_encoding.md R101). -/
def argA (s : State) : Word := s.block.running.a0

/-- ARG1 as latched at acceptance (30_encoding.md R101). -/
def argB (s : State) : Word := s.block.running.a1

/-- A payload argument is legal in 0..0x1FF (30_encoding.md R103, PQ_INSERT). -/
def legalPayload (a : Word) : Bool := decide (a.toNat ≤ 0x1FF)

/-- A byte argument is legal in 0..0xFF (30_encoding.md R103, FREQ_COUNT and CODE_LOOKUP). -/
def legalByte (a : Word) : Bool := decide (a.toNat ≤ 0xFF)

/-- A bit argument is legal in 0..1 (30_encoding.md R103, BW_WRITE_BIT). -/
def legalBit (a : Word) : Bool := decide (a.toNat ≤ 1)

/-- An index argument is legal in 0..size-1 (30_encoding.md R103, PQ_PEEK and TREE_READ). -/
def legalIndex (a : Word) (size : Nat) : Bool := decide (a.toNat < size)

/-- a[8:0], the payload a word carries (30_encoding.md R103). -/
def payloadField (a : Word) : NodeIdx := a.extractLsb' 0 9

/-- a[7:0], the byte value a word carries (30_encoding.md R103). -/
def byteField (a : Word) : Byte := a.extractLsb' 0 8

/-- a[0], the bit a word carries (30_encoding.md R103). -/
def bitField (a : Word) : Bool := a.getLsbD 0

/-- freq[b] (10_state.md R37). -/
def freqAt (tbl : Vector Word 256) (b : Byte) : Word := tbl[b.toNat]'(b.isLt)

/-- freq[b] <- v (10_state.md R37). -/
def freqSet (f : Vector Word 256) (b : Byte) (v : Word) : Vector Word 256 := f.set b.toNat v b.isLt

/-- code[b] (10_state.md R38). -/
def codeAt (tbl : Vector CodeEntry 256) (b : Byte) : CodeEntry := tbl[b.toNat]'(b.isLt)

/-- code[b] <- e (10_state.md R38). -/
def codeSet (c : Vector CodeEntry 256) (b : Byte) (e : CodeEntry) : Vector CodeEntry 256 := c.set b.toNat e b.isLt

/-- heap[i]; a slot at or above heap_size is unspecified (10_state.md R35, log 10). -/
def heapAt (h : List Elem) (i : Nat) : Elem := h.getD i (Config.unspecElem i)

/-- node[i]; a node at or above node_count is unspecified (10_state.md R36, log 11). -/
def nodeAt (ns : List Node) (i : Nat) : Node := ns.getD i (Config.unspecNode i)

/-- The node word TREE_READ returns (30_encoding.md R106). -/
def nodeWord : Node → Word
  | .leaf b => 0#24 ++ b
  | .internal l r => 1#1 ++ 0#6 ++ r ++ 0#7 ++ l

/-- All byte values in ascending order, the order of every loop over the tables (41_tree_builder.md R165, R166). -/
def allBytes : List Byte := (List.range 256).map (BitVec.ofNat 8)

end Sys2Proof.Machine
end

