-- ==== Sys2Proof/Machine/Ops.lean ====
section
/-! DEFINITION. The shared operations: the port primitives (20_memory.md R81-R85), the bit-stream primitives
(43_bit_stream_io.md R211-R217), the queue primitives (40_priority_queue.md R133, R134), TreeBuild (41_tree_builder.md
R164, R165), CodeGen and EmitCode (42_code_table.md R191, R194), and the lifecycle of a command: acceptance, `return`
and the error exit (00_scope.md R12, 60_exceptions.md R306). -/

namespace Sys2Proof.Machine

/-- What a piece of a command leaves: it went on with a value, or it raised an error. Either way the state holds every
step taken before (60_exceptions.md R308: nothing is rolled back). -/
inductive Res (σ α : Type) where
  | ok (a : α) (s : σ)
  | err (e : ErrCode) (s : σ)
  deriving DecidableEq, Repr

/-- Go on after `r`, unless it raised: "no statement after it runs" (00_scope.md R11). -/
def Res.andThen {σ α β : Type} (r : Res σ α) (f : α → σ → Res σ β) : Res σ β :=
  match r with
  | .ok a s => f a s
  | .err e s => .err e s

/-- Run a piece that works on a part of the state, and put the part back on either outcome. -/
def Res.within {σ τ α : Type} (r : Res τ α) (put : τ → σ) : Res σ α :=
  match r with
  | .ok a t => .ok a (put t)
  | .err e t => .err e (put t)

/-! ### The lifecycle of a command -/

/-- phase <- p (00_scope.md R11). -/
def setPhase (p : Phase) (s : State) : State := { s with block.status.phase := p }

/-- A command word is accepted (00_scope.md R12, 30_encoding.md R101): STATUS, and the word and the arguments are
latched once. -/
def accept (w : Word) (s : State) : State :=
  { s with
    block.status := s.block.status.accepted w
    block.running := { word := w, a0 := s.block.arg0, a1 := s.block.arg1, emitted := 0#32 } }

/-- `return` (00_scope.md R12). No transient state outlives the command (10_state.md R41, log 9). -/
def complete (s : State) : State :=
  { s with block.status := s.block.status.returned, block.running := Running.none }

/-! ### The ports -/

/-- SrcFetch (20_memory.md R81): the next byte, or nothing for EOF. -/
def srcFetch (s : State) : Option Byte × State :=
  match s.src[s.srcPos]? with
  | some b =>
    (some b,
      { s with
        srcPos := s.srcPos + 1
        block.inCount := s.block.inCount + 1#64
        portlog := s.portlog ++ [.srcByte b] })
  | none => (none, { s with portlog := s.portlog ++ [.srcEOF] })

/-- SrcRewind (20_memory.md R82). -/
def srcRewind (s : State) : State := { s with srcPos := 0, portlog := s.portlog ++ [.srcRewind] }

/-- SrcRelease (20_memory.md R83). -/
def srcRelease (s : State) : State := { s with portlog := s.portlog ++ [.srcRelease] }

/-- SnkEmit (20_memory.md R84). -/
def snkEmit (b : Byte) (s : State) : State :=
  { s with portlog := s.portlog ++ [.snkByte b], block.outCount := s.block.outCount + 1#64 }

/-- SnkClose (20_memory.md R85). -/
def snkClose (s : State) : State := { s with portlog := s.portlog ++ [.snkClose] }

/-! ### The bit writer -/

/-- v with bit i set to b. -/
def setBit (v : Byte) (i : Nat) (b : Bool) : Byte :=
  if b then v ||| BitVec.twoPow 8 i else v &&& ~~~(BitVec.twoPow 8 i)

/-- WriteBit (43_bit_stream_io.md R211). -/
def writeBit (b : Bool) (s : State) : State :=
  let buf := setBit s.block.writer.buf (7 - s.block.writer.off.val) b
  if s.block.writer.off.val = 7 then
    { snkEmit buf s with block.writer := Writer.reset }
  else
    { s with block.writer := { buf := buf, off := s.block.writer.off + 1 } }

/-- WriteBit for each bit of a list, in order. -/
def writeBits (bits : List Bool) (s : State) : State := bits.foldl (fun t b => writeBit b t) s

/-- v[n-1], v[n-2], ..., v[0] for the low n bits of v. -/
def bitsDown {w : Nat} (v : BitVec w) (n : Nat) : List Bool := (List.range n).reverse.map fun j => v.getLsbD j

/-- WriteU32 (43_bit_stream_io.md R212). -/
def writeU32 (v : Word) (s : State) : State := writeBits (bitsDown v 32) s

/-- FlushBits (43_bit_stream_io.md R213). -/
def flushBits (s : State) : State :=
  if 0 < s.block.writer.off.val then { snkEmit s.block.writer.buf s with block.writer := Writer.reset } else s

/-! ### The bit reader -/

/-- The part of ReadBit after the byte is there (43_bit_stream_io.md R215): take bit 7 - rd_off. -/
def takeBit (s : State) : Res State Bool :=
  let r := s.block.reader
  .ok (r.buf.getLsbD (7 - r.off.val))
    { s with
      block.reader :=
        if r.off.val = 7 then { r with valid := false, off := 0 } else { r with off := r.off + 1 } }

/-- ReadBit (43_bit_stream_io.md R215): fetch a byte when none is there, then take one bit. -/
def readBit (s : State) : Res State Bool :=
  if s.block.reader.valid then takeBit s
  else
    match srcFetch s with
    | (none, s1) => .err .streamTruncated s1
    | (some x, s1) => takeBit { s1 with block.reader := { buf := x, off := 0, valid := true } }

/-- The loop of ReadU32 (43_bit_stream_io.md R216): k more bits into v, modulo 2^32. -/
def readBitsInto : Nat → Word → State → Res State Word
  | 0, v, s => .ok v s
  | k + 1, v, s => (readBit s).andThen fun b s1 => readBitsInto k (2#32 * v + (if b then 1#32 else 0#32)) s1

/-- ReadU32 (43_bit_stream_io.md R216). -/
def readU32 (s : State) : Res State Word := readBitsInto 32 0#32 s

/-- AlignRead (43_bit_stream_io.md R217); rd_buf is unchanged. -/
def alignRead (s : State) : State :=
  { s with block.reader := { s.block.reader with valid := false, off := 0 } }

/-- The source bits a reader can still deliver: a bound for every loop that reads bits (log 12). -/
def bitsLeft (s : State) : Nat :=
  8 * (s.src.length - s.srcPos) + (if s.block.reader.valid then 8 - s.block.reader.off.val else 0)

/-! ### The error exit -/

/-- Which error exit a command takes (60_exceptions.md R306). -/
inductive ExitKind where
  | standalone
  | encoder
  | decoder
  deriving DecidableEq, Repr

/-- What the error exit does to the streams and to RESULT0 (60_exceptions.md R306). -/
def finalise (k : ExitKind) (s : State) : State :=
  match k with
  | .standalone => s
  | .encoder => srcRelease (snkClose (flushBits s))
  | .decoder => srcRelease (snkClose { s with block.result0 := s.block.running.emitted })

/-- `raise e` (60_exceptions.md R306): the one error exit of every command. -/
def errorExit (k : ExitKind) (e : ErrCode) (s : State) : State :=
  let t := finalise k s
  { t with block.status := t.block.status.raised e, block.running := Running.none }

/-- The state a command ends in: after `return`, or after the error exit of what it raised. -/
def endState (k : ExitKind) (r : Res State Unit) : State :=
  match r with
  | .ok _ s => complete s
  | .err e s => errorExit k e s

/-- The end of a command. Every command ends in a next state (60_exceptions.md R300, 70_reset_and_hazards.md R346). -/
def finishCommand (k : ExitKind) (r : Res State Unit) : Host.Outcome State Fault Refusal := .next (endState k r)

/-- A standalone command: phase 9, its body, its end (30_encoding.md R101). -/
def standalone (body : State → Res State Unit) (s : State) : Host.Outcome State Fault Refusal :=
  finishCommand .standalone (body (setPhase .exec s))

/-- BAD_ARGUMENT unless the argument is legal (30_encoding.md R104). -/
def checkArg (legal : Bool) (s : State) : Res State Unit := if legal then .ok () s else .err .badArgument s

/-! ### The queue -/

/-- swap heap[i], heap[j]. -/
def heapSwap (h : List Elem) (i j : Nat) : List Elem := (h.set i (heapAt h j)).set j (heapAt h i)

/-- sift_up (40_priority_queue.md R133) from slot i. The slot falls at each turn, so i turns are enough (log 12). -/
def siftUp : Nat → Nat → List Elem → List Elem
  | 0, _, h => h
  | fuel + 1, i, h =>
    if i = 0 then h
    else if (heapAt h i).key < (heapAt h ((i - 1) / 2)).key then
      siftUp fuel ((i - 1) / 2) (heapSwap h i ((i - 1) / 2))
    else h

/-- HeapInsert (40_priority_queue.md R133, R136). -/
def heapInsert (cap : Nat) (e : Elem) (h : List Elem) : Res (List Elem) Unit :=
  if cap ≤ h.length then .err .queueOverflow h
  else .ok () (siftUp h.length h.length (h ++ [e]))

/-- The child choice of sift_down (40_priority_queue.md R134): the slot of the smallest key among i, left(i) and
right(i), with strict comparisons, left before right. -/
def minChild (h : List Elem) (i : Nat) : Nat :=
  let m := if 2 * i + 1 < h.length ∧ (heapAt h (2 * i + 1)).key < (heapAt h i).key then 2 * i + 1 else i
  if 2 * i + 2 < h.length ∧ (heapAt h (2 * i + 2)).key < (heapAt h m).key then 2 * i + 2 else m

/-- sift_down (40_priority_queue.md R134) from slot i. The slot rises at each turn, so heap_size turns are enough
(log 12). -/
def siftDown : Nat → Nat → List Elem → List Elem
  | 0, _, h => h
  | fuel + 1, i, h => if minChild h i = i then h else siftDown fuel (minChild h i) (heapSwap h i (minChild h i))

/-- The queue after its root is taken (40_priority_queue.md R134): the last element replaces the root and sifts
down. -/
def heapRemoveRoot (h : List Elem) : List Elem :=
  let shorter := h.dropLast
  if shorter.length = 0 then shorter
  else siftDown shorter.length 0 (shorter.set 0 (heapAt h (h.length - 1)))

/-- HeapExtract (40_priority_queue.md R134). -/
def heapExtract (h : List Elem) : Res (List Elem) Elem :=
  if h.length = 0 then .err .queueUnderflow h else .ok (heapAt h 0) (heapRemoveRoot h)

/-! ### The tree builder -/

/-- Σ freq[b], exact (41_tree_builder.md R164). -/
def freqSum (f : Vector Word 256) : Nat := (f.toList.map BitVec.toNat).sum

/-- Validate (41_tree_builder.md R164): the sum, or nothing when a count is "negative" or the sum overflows. -/
def validate (f : Vector Word 256) : Option Nat :=
  if f.toList.any fun c => decide (0x80000000 ≤ c.toNat) then none
  else if Config.maxTotal < freqSum f then none
  else some (freqSum f)

/-- The part of the block TreeBuild works on. -/
structure Build where
  heap : List Elem
  nodes : List Node
  root : NodeIdx
  deriving DecidableEq, Repr

/-- An empty queue and an empty tree (41_tree_builder.md R165). -/
def Build.empty : Build := { heap := [], nodes := [], root := Config.nil }

/-- node[node_count] <- nd; HeapInsert(k, node_count); node_count <- node_count + 1 (41_tree_builder.md R165). The node
becomes live with the count, after the insert. -/
def addNode (cap : Nat) (nd : Node) (k : Word) (t : Build) : Res Build Unit :=
  ((heapInsert cap { key := k, payload := BitVec.ofNat 9 t.nodes.length } t.heap).within
      fun h => { t with heap := h }).andThen
    fun _ t1 => .ok () { t1 with nodes := t1.nodes ++ [nd] }

/-- The leaf loop (41_tree_builder.md R165, R166); n counts the leaves. -/
def insertLeaves (cap : Nat) (f : Vector Word 256) : List Byte → Nat → Build → Res Build Nat
  | [], n, t => .ok n t
  | b :: bs, n, t =>
    if freqAt f b = 0#32 then insertLeaves cap f bs n t
    else (addNode cap (.leaf b) (freqAt f b) t).andThen fun _ t1 => insertLeaves cap f bs (n + 1) t1

/-- HeapExtract inside a build. -/
def buildExtract (t : Build) : Res Build Elem := (heapExtract t.heap).within fun h => { t with heap := h }

/-- One merge (41_tree_builder.md R165, R167): A, extracted first, becomes the left child. -/
def mergeOnce (cap : Nat) (t : Build) : Res Build Unit :=
  (buildExtract t).andThen fun a t1 =>
    (buildExtract t1).andThen fun b t2 =>
      addNode cap (.internal a.payload b.payload) (a.key + b.key) t2

/-- The merge loop (41_tree_builder.md R165, R167). A merge shrinks the queue by one, so heap_size turns are enough
(log 12). -/
def mergeLoop (cap : Nat) : Nat → Build → Res Build Unit
  | 0, t => .ok () t
  | fuel + 1, t =>
    if 1 < t.heap.length then (mergeOnce cap t).andThen fun _ t1 => mergeLoop cap fuel t1 else .ok () t

/-- The end of the build (41_tree_builder.md R165, R168): the last element leaves the queue; a lone leaf gets its
wrapper. -/
def finishTree (t : Build) : Res Build Unit :=
  if t.heap.length = 1 then
    (buildExtract t).andThen fun e t1 =>
      match nodeAt t1.nodes e.payload.toNat with
      | .leaf _ =>
        .ok () { t1 with nodes := t1.nodes ++ [.internal e.payload Config.nil], root := BitVec.ofNat 9 t1.nodes.length }
      | .internal _ _ => .ok () { t1 with root := e.payload }
  else .ok () t

/-- TreeBuild after Validate (41_tree_builder.md R165): a function of the counts; n is the number of distinct
symbols. -/
def buildTree (cap : Nat) (f : Vector Word 256) : Res Build Nat :=
  (insertLeaves cap f allBytes 0 Build.empty).andThen fun n t =>
    (mergeLoop cap t.heap.length t).andThen fun _ t1 =>
      (finishTree t1).andThen fun _ t2 => .ok n t2

/-- TreeBuild (41_tree_builder.md R164, R165). When Validate raises, nothing has changed. -/
def treeBuild (s : State) : Res State Nat :=
  match validate s.block.freq with
  | none => .err .formatError s
  | some total =>
    (buildTree s.params.heapCap s.block.freq).within fun t =>
      { s with
        block.nTotal := BitVec.ofNat 32 total
        block.heap := t.heap
        block.nodes := t.nodes
        block.root := t.root }

/-! ### The code table -/

/-- Visit (42_code_table.md R191): left before right, an absent child skipped. `v` holds `len` bits, the first at
v[len-1]. The first argument bounds the depth; a tree of TreeBuild is never as deep as 512 (log 12). -/
def visit (ns : List Node) : Nat → NodeIdx → Nat → Nat → Vector CodeEntry 256 → Vector CodeEntry 256
  | 0, _, _, _, c => c
  | fuel + 1, i, len, v, c =>
    match nodeAt ns i.toNat with
    | .leaf b => codeSet c b { len := BitVec.ofNat 8 len, cw := BitVec.ofNat 256 v }
    | .internal l r =>
      let c1 := if l ≠ Config.nil then visit ns fuel l (len + 1) (2 * v) c else c
      if r ≠ Config.nil then visit ns fuel r (len + 1) (2 * v + 1) c1 else c1

/-- The table CodeGen makes of a tree (42_code_table.md R191). -/
def codeTableOf (ns : List Node) (root : NodeIdx) : Vector CodeEntry 256 :=
  if root ≠ Config.nil then visit ns 512 root 0 0 emptyCode else emptyCode

/-- CodeGen (42_code_table.md R191). -/
def codeGen (s : State) : State := { s with block.code := codeTableOf s.block.nodes s.block.root }

/-- The codeword of an entry, first bit first (10_state.md R38). -/
def codewordBits (e : CodeEntry) : List Bool := bitsDown e.cw e.len.toNat

/-- EmitCode (42_code_table.md R194). -/
def emitCode (b : Byte) (s : State) : State := writeBits (codewordBits (codeAt s.block.code b)) s

/-- |{ b : code[b].len ≥ 1 }| (42_code_table.md R192). -/
def codeCount (c : Vector CodeEntry 256) : Nat := (c.toList.filter fun e => e.len != 0#8).length

/-- max({0} ∪ { code[b].len }) (42_code_table.md R192). -/
def codeMaxLen (c : Vector CodeEntry 256) : Nat := c.toList.foldl (fun m e => max m e.len.toNat) 0

end Sys2Proof.Machine
end

