-- ==== Sys2Proof/Machine/BitStream.lean ====
section
/-! DEFINITION. The commands of bit_stream_io (43_bit_stream_io.md). They use the cursors and the ports as they are, and
never rewind, release or close (20_memory.md R86). -/

namespace Sys2Proof.Machine

/-- BW_WRITE_BIT (43_bit_stream_io.md R218). -/
def execBwWriteBit (s : State) : Host.Outcome State Fault Refusal :=
  standalone
    (fun t => (checkArg (legalBit (argA t)) t).andThen fun _ t1 => .ok () (writeBit (bitField (argA t1)) t1)) s

/-- BW_WRITE_U32 (43_bit_stream_io.md R219). -/
def execBwWriteU32 (s : State) : Host.Outcome State Fault Refusal :=
  standalone (fun t => .ok () (writeU32 (argA t) t)) s

/-- BW_FLUSH (43_bit_stream_io.md R220). -/
def execBwFlush (s : State) : Host.Outcome State Fault Refusal := standalone (fun t => .ok () (flushBits t)) s

/-- BR_READ_BIT (43_bit_stream_io.md R221). -/
def execBrReadBit (s : State) : Host.Outcome State Fault Refusal :=
  standalone
    (fun t =>
      (readBit t).andThen fun b t1 => .ok () { t1 with block.result0 := if b then 1#32 else 0#32 })
    s

/-- BR_READ_U32 (43_bit_stream_io.md R222). -/
def execBrReadU32 (s : State) : Host.Outcome State Fault Refusal :=
  standalone (fun t => (readU32 t).andThen fun v t1 => .ok () { t1 with block.result0 := v }) s

/-- BR_ALIGN (43_bit_stream_io.md R223). -/
def execBrAlign (s : State) : Host.Outcome State Fault Refusal := standalone (fun t => .ok () (alignRead t)) s

end Sys2Proof.Machine
end

