-- ==== Sys2Proof/Machine/CodeTable.lean ====
section
/-! DEFINITION. The commands of code_table_rom_lookup (42_code_table.md). -/

namespace Sys2Proof.Machine

/-- CODE_GEN (42_code_table.md R192). -/
def execCodeGen (s : State) : Host.Outcome State Fault Refusal :=
  standalone
    (fun t =>
      let t1 := codeGen t
      .ok ()
        { t1 with
          block.result0 := BitVec.ofNat 32 (codeCount t1.block.code)
          block.result1 := BitVec.ofNat 32 (codeMaxLen t1.block.code) })
    s

/-- CODE_LOOKUP (42_code_table.md R193). -/
def execCodeLookup (s : State) : Host.Outcome State Fault Refusal :=
  standalone
    (fun t =>
      (checkArg (legalByte (argA t)) t).andThen fun _ t1 =>
        let e := codeAt t1.block.code (byteField (argA t1))
        .ok () { t1 with block.result0 := e.len.setWidth 32, block.cwreg := e.cw })
    s

end Sys2Proof.Machine
end

