-- ==== Sys2Proof/Machine/Control.lean ====
section
/-! DEFINITION. The control commands NOP and RESET (46_control.md), and what an illegal command word does
(30_encoding.md R101, R102, R108). -/

namespace Sys2Proof.Machine

/-- NOP (46_control.md R280). -/
def execNop (s : State) : Host.Outcome State Fault Refusal := standalone (fun t => .ok () t) s

/-- RESET (46_control.md R281): every piece of block state at its reset value; no port event, and the ports, the
reset input and the host's side are not touched. -/
def execReset (s : State) : Host.Outcome State Fault Refusal := .next { s with block := Block.reset }

/-- A word that is no command (30_encoding.md R101, R108): phase 9 and ILLEGAL_COMMAND, through the error exit of a
standalone command. -/
def illegalCommand (s : State) : Host.Outcome State Fault Refusal :=
  standalone (fun t => .err .illegalCommand t) s

end Sys2Proof.Machine
end

