-- ==== Sys2Proof/Machine/Decoder.lean ====
section
/-! DEFINITION. huffman_decoder_fsm: DECODE and its phases (45_decoder_fsm.md R260-R266). -/

namespace Sys2Proof.Machine

/-- DECODE start (45_decoder_fsm.md R261). -/
def decodeStart (s : State) : State :=
  srcRewind
    { setPhase .headerRead s with
      block.reader := Reader.reset
      block.inCount := 0#64
      block.outCount := 0#64
      block.freq := zeroFreq
      block.nTotal := 0#32
      block.running.emitted := 0#32 }

/-- Phase HEADER_READ over the given bytes in order (45_decoder_fsm.md R262): a source that ends here is a malformed
header. -/
def readCounts : List Byte → State → Res State Unit
  | [], s => .ok () s
  | b :: bs, s =>
    match readU32 s with
    | .ok v s1 => readCounts bs { s1 with block.freq := freqSet s1.block.freq b v }
    | .err _ s1 => .err .formatError s1

/-- Phase BUILD (45_decoder_fsm.md R263). -/
def decodeBuild (s : State) : Res State Unit :=
  (treeBuild (setPhase .build s)).andThen fun _ s1 => .ok () s1

/-- One walk from node i to a leaf (45_decoder_fsm.md R264). Every turn but the last takes a bit of the source or
raises, so one more than the bits left is enough, and the first equation is never reached (log 12). -/
def walkSymbol : Nat → NodeIdx → State → Res State Byte
  | 0, _, s => .err .streamTruncated s
  | fuel + 1, i, s =>
    match nodeAt s.block.nodes i.toNat with
    | .leaf b => .ok b s
    | .internal l r =>
      (readBit s).andThen fun bit s1 =>
        let c := if bit then r else l
        if c = Config.nil then .err .formatError s1 else walkSymbol fuel c s1

/-- SnkEmit(b) and emitted <- emitted + 1 (45_decoder_fsm.md R264). -/
def emitSymbol (b : Byte) (s : State) : State :=
  let t := snkEmit b s
  { t with block.running.emitted := t.block.running.emitted + 1#32 }

/-- k symbols (45_decoder_fsm.md R264). -/
def walkSymbols : Nat → State → Res State Unit
  | 0, s => .ok () s
  | k + 1, s =>
    (walkSymbol (bitsLeft s + 1) s.block.root s).andThen fun b s1 => walkSymbols k (emitSymbol b s1)

/-- Phase WALK (45_decoder_fsm.md R264). -/
def decodeWalk (s : State) : Res State Unit :=
  let t := setPhase .walk s
  walkSymbols t.block.nTotal.toNat t

/-- Phase FINISH (45_decoder_fsm.md R265). -/
def decodeFinish (s : State) : State :=
  let t := srcRelease (snkClose (setPhase .finish s))
  { t with block.result0 := t.block.running.emitted }

/-- The body of DECODE: R261 to R265 in order (45_decoder_fsm.md R266). -/
def decodeBody (s : State) : Res State Unit :=
  (readCounts allBytes (decodeStart s)).andThen fun _ s1 =>
    (decodeBuild s1).andThen fun _ s2 =>
      (decodeWalk s2).andThen fun _ s3 => .ok () (decodeFinish s3)

/-- DECODE (45_decoder_fsm.md R266). -/
def execDecode (s : State) : Host.Outcome State Fault Refusal := finishCommand .decoder (decodeBody s)

end Sys2Proof.Machine
end

