-- ==== Sys2Proof/Machine/Encoder.lean ====
section
/-! DEFINITION. huffman_encoder_fsm: ENCODE and its phases (44_encoder_fsm.md R240-R247). -/

namespace Sys2Proof.Machine

/-- ENCODE start (44_encoder_fsm.md R241). -/
def encodeStart (s : State) : State :=
  srcRewind
    { setPhase .count s with
      block.writer := Writer.reset
      block.inCount := 0#64
      block.outCount := 0#64
      block.freq := zeroFreq
      block.nTotal := 0#32 }

/-- The loop of phase COUNT (44_encoder_fsm.md R242). Every turn but the last fetches a byte (log 12). -/
def countLoop : Nat → State → Res State Unit
  | 0, s => .ok () s
  | fuel + 1, s =>
    match srcFetch s with
    | (none, s1) => .ok () s1
    | (some x, s1) =>
      if Config.maxTotal ≤ s1.block.nTotal.toNat then .err .inputTooLong s1
      else
        countLoop fuel
          { s1 with
            block.freq := freqSet s1.block.freq x (freqAt s1.block.freq x + 1#32)
            block.nTotal := s1.block.nTotal + 1#32 }

/-- Phase COUNT, pass 1 (44_encoder_fsm.md R242). -/
def encodeCount (s : State) : Res State Unit := countLoop (s.src.length + 1) s

/-- Phases BUILD and CODEGEN (44_encoder_fsm.md R243). -/
def encodeTables (s : State) : Res State Unit :=
  (treeBuild (setPhase .build s)).andThen fun _ s1 => .ok () (codeGen (setPhase .codegen s1))

/-- WriteU32 for each count of the given bytes, in order (44_encoder_fsm.md R244). -/
def writeCounts (bs : List Byte) (s : State) : State :=
  bs.foldl (fun t b => writeU32 (freqAt t.block.freq b) t) s

/-- Phase HEADER_WRITE (44_encoder_fsm.md R244). -/
def encodeHeader (s : State) : State := writeCounts allBytes (setPhase .headerWrite s)

/-- The loop of phase PAYLOAD (44_encoder_fsm.md R245), with the pass-2 counter m, and its check at the end of the
source. Every turn but the last fetches a byte (log 12). -/
def payloadLoop : Nat → Nat → State → Res State Unit
  | 0, _, s => .ok () s
  | fuel + 1, m, s =>
    match srcFetch s with
    | (none, s1) => if m = s1.block.nTotal.toNat then .ok () s1 else .err .formatError s1
    | (some x, s1) =>
      if m = s1.block.nTotal.toNat ∨ (codeAt s1.block.code x).len = 0#8 then .err .formatError s1
      else payloadLoop fuel (m + 1) (emitCode x s1)

/-- Phase PAYLOAD, pass 2 (44_encoder_fsm.md R245). -/
def encodePayload (s : State) : Res State Unit :=
  let t := srcRewind (setPhase .payload s)
  payloadLoop (t.src.length + 1) 0 t

/-- Phase FINISH (44_encoder_fsm.md R246). -/
def encodeFinish (s : State) : State :=
  let pad := (8 - s.block.writer.off.val) % 8
  let t := srcRelease (snkClose (flushBits (setPhase .finish s)))
  { t with block.result0 := t.block.nTotal, block.result1 := BitVec.ofNat 32 pad }

/-- The body of ENCODE: R241 to R246 in order (44_encoder_fsm.md R247). -/
def encodeBody (s : State) : Res State Unit :=
  (encodeCount (encodeStart s)).andThen fun _ s1 =>
    (encodeTables s1).andThen fun _ s2 =>
      (encodePayload (encodeHeader s2)).andThen fun _ s3 => .ok () (encodeFinish s3)

/-- ENCODE (44_encoder_fsm.md R247). -/
def execEncode (s : State) : Host.Outcome State Fault Refusal := finishCommand .encoder (encodeBody s)

end Sys2Proof.Machine
end

