-- ==== Sys2Proof/Machine/PriorityQueue.lean ====
section
/-! DEFINITION. The commands of min_heap_priority_queue (40_priority_queue.md). -/

namespace Sys2Proof.Machine

/-- PQ_INSERT (40_priority_queue.md R137). -/
def execPqInsert (s : State) : Host.Outcome State Fault Refusal :=
  standalone
    (fun t =>
      (checkArg (legalPayload (argB t)) t).andThen fun _ t1 =>
        (heapInsert t1.params.heapCap { key := argA t1, payload := payloadField (argB t1) } t1.block.heap).within
          fun h => { t1 with block.heap := h })
    s

/-- PQ_EXTRACT_MIN (40_priority_queue.md R138). -/
def execPqExtractMin (s : State) : Host.Outcome State Fault Refusal :=
  standalone
    (fun t =>
      ((heapExtract t.block.heap).within fun h => { t with block.heap := h }).andThen fun e t1 =>
        .ok () { t1 with block.result0 := e.key, block.result1 := e.payload.setWidth 32 })
    s

/-- PQ_SIZE (40_priority_queue.md R139). -/
def execPqSize (s : State) : Host.Outcome State Fault Refusal :=
  standalone (fun t => .ok () { t with block.result0 := BitVec.ofNat 32 t.block.heap.length }) s

/-- PQ_CLEAR (40_priority_queue.md R140). -/
def execPqClear (s : State) : Host.Outcome State Fault Refusal :=
  standalone (fun t => .ok () { t with block.heap := [] }) s

/-- PQ_PEEK (40_priority_queue.md R141). -/
def execPqPeek (s : State) : Host.Outcome State Fault Refusal :=
  standalone
    (fun t =>
      (checkArg (legalIndex (argA t) t.block.heap.length) t).andThen fun _ t1 =>
        let e := heapAt t1.block.heap (argA t1).toNat
        .ok () { t1 with block.result0 := e.key, block.result1 := e.payload.setWidth 32 })
    s

end Sys2Proof.Machine
end

