-- ==== Sys2Proof/Machine/TreeBuilder.lean ====
section
/-! DEFINITION. The commands of huffman_tree_builder and the frequency table (41_tree_builder.md). -/

namespace Sys2Proof.Machine

/-- FREQ_CLEAR (41_tree_builder.md R161). -/
def execFreqClear (s : State) : Host.Outcome State Fault Refusal :=
  standalone (fun t => .ok () { t with block.freq := zeroFreq, block.nTotal := 0#32 }) s

/-- FREQ_COUNT (41_tree_builder.md R162). -/
def execFreqCount (s : State) : Host.Outcome State Fault Refusal :=
  standalone
    (fun t =>
      (checkArg (legalByte (argA t)) t).andThen fun _ t1 =>
        let b := byteField (argA t1)
        if Config.maxTotal ≤ t1.block.nTotal.toNat then .err .inputTooLong t1
        else
          .ok ()
            { t1 with
              block.freq := freqSet t1.block.freq b (freqAt t1.block.freq b + 1#32)
              block.nTotal := t1.block.nTotal + 1#32 })
    s

/-- TREE_BUILD (41_tree_builder.md R170). -/
def execTreeBuild (s : State) : Host.Outcome State Fault Refusal :=
  standalone
    (fun t =>
      (treeBuild t).andThen fun n t1 =>
        .ok () { t1 with block.result0 := BitVec.ofNat 32 n, block.result1 := t1.block.root.setWidth 32 })
    s

/-- TREE_READ (41_tree_builder.md R171). -/
def execTreeRead (s : State) : Host.Outcome State Fault Refusal :=
  standalone
    (fun t =>
      (checkArg (legalIndex (argA t) t.block.nodes.length) t).andThen fun _ t1 =>
        .ok () { t1 with block.result0 := nodeWord (nodeAt t1.block.nodes (argA t1).toNat) })
    s

end Sys2Proof.Machine
end

