-- ==== Sys2Proof/Machine/Dispatch.lean ====
section
/-! DEFINITION. One arm per command: the block step of an accepted command (30_encoding.md R101, 20_memory.md R92). -/

namespace Sys2Proof.Machine

def exec (i : Instr) (s : State) : Host.Outcome State Fault Refusal :=
  match i with
  | .nop => Sys2Proof.Machine.execNop s
  | .reset => Sys2Proof.Machine.execReset s
  | .pqInsert => Sys2Proof.Machine.execPqInsert s
  | .pqExtractMin => Sys2Proof.Machine.execPqExtractMin s
  | .pqSize => Sys2Proof.Machine.execPqSize s
  | .pqClear => Sys2Proof.Machine.execPqClear s
  | .pqPeek => Sys2Proof.Machine.execPqPeek s
  | .freqClear => Sys2Proof.Machine.execFreqClear s
  | .freqCount => Sys2Proof.Machine.execFreqCount s
  | .treeBuild => Sys2Proof.Machine.execTreeBuild s
  | .treeRead => Sys2Proof.Machine.execTreeRead s
  | .codeGen => Sys2Proof.Machine.execCodeGen s
  | .codeLookup => Sys2Proof.Machine.execCodeLookup s
  | .bwWriteBit => Sys2Proof.Machine.execBwWriteBit s
  | .bwWriteU32 => Sys2Proof.Machine.execBwWriteU32 s
  | .bwFlush => Sys2Proof.Machine.execBwFlush s
  | .brReadBit => Sys2Proof.Machine.execBrReadBit s
  | .brReadU32 => Sys2Proof.Machine.execBrReadU32 s
  | .brAlign => Sys2Proof.Machine.execBrAlign s
  | .encode => Sys2Proof.Machine.execEncode s
  | .decode => Sys2Proof.Machine.execDecode s

end Sys2Proof.Machine
end

