-- ==== Sys2Proof/Machine/Registers.lean ====
section
/-! DEFINITION. The register map and the effect of register accesses on an idle, a busy and a held-in-reset block
(10_state.md R20-R34, R46, R47; 20_memory.md R70-R75). -/

namespace Sys2Proof.Machine

/-- The named registers (10_state.md R20). -/
inductive Reg where
  | cmd
  | status
  | arg0
  | arg1
  | result0
  | result1
  | pqSize
  | nTotal
  | treeInfo
  | bitCursor
  | inCountLo
  | inCountHi
  | outCountLo
  | outCountHi
  | id
  | params
  | cw (k : Fin 8)
  | freq (b : Byte)
  deriving DecidableEq, Repr

/-- The registers at offsets 0x000 to 0x03C, in order (10_state.md R20). -/
def lowRegs : List Reg :=
  [.cmd, .status, .arg0, .arg1, .result0, .result1, .pqSize, .nTotal, .treeInfo, .bitCursor, .inCountLo, .inCountHi,
   .outCountLo, .outCountHi, .id, .params]

/-- The register at an aligned offset of the aperture; none for the reserved offsets 0x060..0x3FC (10_state.md R20,
R34). -/
def regAt (off : Nat) : Option Reg :=
  if off < 0x040 then lowRegs[off / 4]?
  else if off < 0x060 then some (.cw (Fin.ofNat 8 ((off - 0x040) / 4)))
  else if off < 0x400 then none
  else if off < 0x800 then some (.freq (BitVec.ofNat 8 ((off - 0x400) / 4)))
  else none

/-- The offset of a register (10_state.md R20). -/
def regOffset : Reg → Nat
  | .cmd => 0x000
  | .status => 0x004
  | .arg0 => 0x008
  | .arg1 => 0x00C
  | .result0 => 0x010
  | .result1 => 0x014
  | .pqSize => 0x018
  | .nTotal => 0x01C
  | .treeInfo => 0x020
  | .bitCursor => 0x024
  | .inCountLo => 0x028
  | .inCountHi => 0x02C
  | .outCountLo => 0x030
  | .outCountHi => 0x034
  | .id => 0x038
  | .params => 0x03C
  | .cw k => 0x040 + 4 * k.val
  | .freq b => 0x400 + 4 * b.toNat

/-- What a register of an idle block reads (10_state.md R21-R33). -/
def regValue (p : Params) (b : Block) : Reg → Word
  | .cmd => 0#32
  | .status => statusWord b.status
  | .arg0 => b.arg0
  | .arg1 => b.arg1
  | .result0 => b.result0
  | .result1 => b.result1
  | .pqSize => pqSizeWord b
  | .nTotal => b.nTotal
  | .treeInfo => treeInfoWord b
  | .bitCursor => bitCursorWord b
  | .inCountLo => b.inCount.extractLsb' 0 32
  | .inCountHi => b.inCount.extractLsb' 32 32
  | .outCountLo => b.outCount.extractLsb' 0 32
  | .outCountHi => b.outCount.extractLsb' 32 32
  | .id => Config.idValue
  | .params => paramsWord p
  | .cw k => b.cwreg.extractLsb' (32 * k.val) 32
  | .freq c => freqAt b.freq c

/-- What an aligned offset of an idle block reads; a reserved one reads 0 (10_state.md R34). -/
def offsetValue (p : Params) (b : Block) (off : Nat) : Word :=
  match regAt off with
  | some r => regValue p b r
  | none => 0#32

/-- The effect of a write on the block (10_state.md R23, R32, R33, R34, R47): CMD issues a command or, while BUSY, only
sets REJECTED (60_exceptions.md R311); ARG0, ARG1 and FREQb take the value unless BUSY; every other write is ignored. -/
def writeReg (r : Reg) (v : Word) (s : State) : State :=
  match r with
  | .cmd => if s.block.status.busy then { s with block.status.rejected := true } else accept v s
  | .arg0 => if s.block.status.busy then s else { s with block.arg0 := v }
  | .arg1 => if s.block.status.busy then s else { s with block.arg1 := v }
  | .freq b => if s.block.status.busy then s else { s with block.freq := freqSet s.block.freq b v }
  | .status | .result0 | .result1 | .pqSize | .nTotal | .treeInfo | .bitCursor | .inCountLo | .inCountHi
  | .outCountLo | .outCountHi | .id | .params | .cw _ => s

/-- The offset of a bus access, or why a model refuses it (20_memory.md R71, R74; logs 16, 18). -/
def accessOffset (p : Params) (n addr : Nat) : Except Refusal Nat :=
  if n ≠ 4 then .error .unsupportedWidth
  else if addr % 4 ≠ 0 then .error .misalignedAccess
  else if addr < p.base ∨ p.base + Config.apertureBytes ≤ addr then .error .outsideAperture
  else .ok (addr - p.base)

end Sys2Proof.Machine
end

