-- ==== Sys2Proof/Machine/Bus.lean ====
section
/-! DEFINITION. The moves of the machine: the block's own step on an accepted command (20_memory.md R92), the host's
register accesses and source choice (R91, 10_state.md R46, R47), and the reset input (70_reset_and_hazards.md R330-R332).
Step.lean only chooses among them. -/

namespace Sys2Proof.Machine

/-- The block runs the accepted command to its end (20_memory.md R92, 30_encoding.md R101). -/
def blockStep (s : State) : Host.Outcome State Fault Refusal :=
  match decode s.block.running.word with
  | .ok i => exec i s
  | .error _ => illegalCommand s

/-- The block's turn: a running command runs to its end; an idle block keeps all of its state (60_exceptions.md
R318). -/
def blockTurn (s : State) : Host.Outcome State Fault Refusal :=
  if s.block.status.busy then blockStep s else .next s

/-- The phases a command word goes through (10_state.md R22). -/
def phasesOf (w : Word) : List Phase :=
  match decode w with
  | .ok .encode => [.count, .build, .codegen, .headerWrite, .payload, .finish]
  | .ok .decode => [.headerRead, .build, .walk, .finish]
  | _ => [.exec]

/-- The k-th phase of a list, counted round it. -/
def pickPhase (ps : List Phase) (k : Nat) : Phase :=
  match ps with
  | [p] => p
  | _ => ps.getD (k % ps.length) .exec

/-- A drawn register read: a fresh free value (10_state.md R46, 70_reset_and_hazards.md R331; log 6). -/
def drawnRead (s : State) : Word × State := (Config.freeRead s.draws, { s with draws := s.draws + 1 })

/-- STATUS while BUSY (10_state.md R46): every field is true but PHASE, which is drawn (log 7). -/
def busyStatusRead (s : State) : Word × State :=
  (statusWord
      { s.block.status with
        phase := pickPhase (phasesOf s.block.running.word) (Config.freePhase s.draws) },
    { s with draws := s.draws + 1 })

/-- What a read of an offset returns (10_state.md R46, R72; 70_reset_and_hazards.md R331). Only the draw counter can
move. -/
def readOffset (off : Nat) (s : State) : Word × State :=
  if s.resetLine then drawnRead s
  else if s.block.status.busy then (if off = regOffset .status then busyStatusRead s else drawnRead s)
  else (offsetValue s.params s.block off, s)

/-- MemRead (20_memory.md R71, R72) and the value it returns, which goes to the host's record (log 17). -/
def busRead (n addr : Nat) (s : State) : Except Refusal (Word × State) :=
  match accessOffset s.params n addr with
  | .error r => .error r
  | .ok off =>
    let result := readOffset off s
    .ok (result.1, { result.2 with reads := result.2.reads ++ [{ offset := off, value := result.1 }] })

/-- A read of the host that does not look at the value. -/
def memRead (n addr : Nat) (s : State) : Host.Outcome State Fault Refusal :=
  match busRead n addr s with
  | .error r => .refused r
  | .ok result => .next result.2

/-- MemWrite (20_memory.md R71, R72); ignored while the reset input is asserted (70_reset_and_hazards.md R331). -/
def memWrite (n addr : Nat) (v : Word) (s : State) : Host.Outcome State Fault Refusal :=
  match accessOffset s.params n addr with
  | .error r => .refused r
  | .ok off =>
    if s.resetLine then .next s
    else
      match regAt off with
      | some r => .next (writeReg r v s)
      | none => .next s

/-- The commands that read the source port (20_memory.md R86, R91). -/
def readsSource (w : Word) : Bool :=
  match decode w with
  | .ok .brReadBit | .ok .brReadU32 | .ok .encode | .ok .decode => true
  | _ => false

/-- The host chooses src_bytes and src_pos (20_memory.md R91): no such move while a command that reads the source runs
(U15, log 13). -/
def setSource (bytes : List Byte) (pos : Nat) (s : State) : Host.Outcome State Fault Refusal :=
  if s.block.status.busy && readsSource s.block.running.word then .refused .sourceChangedWhileRead
  else .next { s with src := bytes, srcPos := pos }

/-- src_pos after a port event (20_memory.md R81, R82). -/
def posAfter (pos : Nat) : PortEvent → Nat
  | .srcByte _ => pos + 1
  | .srcRewind => 0
  | .srcEOF | .srcRelease | .snkByte _ | .snkClose => pos

/-- The port events the running command would append, run to its end (70_reset_and_hazards.md R332); none when no
command runs. -/
def pendingEvents (s : State) : List PortEvent :=
  match blockTurn s with
  | .next t => t.portlog.drop s.portlog.length
  | .fault _ | .refused _ => []

/-- The reset input is asserted (70_reset_and_hazards.md R331, R332): a running command is abandoned after the first
`kept` of its port events, with no finalisation, and the block is in its reset state (log 8). -/
def assertReset (kept : Nat) (s : State) : State :=
  let happened := (pendingEvents s).take kept
  { s with
    block := Block.reset
    resetLine := true
    srcPos := happened.foldl posAfter s.srcPos
    portlog := s.portlog ++ happened }

/-- One turn of a `wait` (30_encoding.md R110): a STATUS read, after which the host goes on when bit 0 of the value is 0
and waits on when it is 1. When no poll of a running command is left, the block has its turn first (log 22). -/
def waitTurn (addr polls : Nat) (s : State) : Host.Outcome State Fault Refusal :=
  if s.block.status.busy && polls == 0 then blockTurn { s with script := .wait addr 0 :: s.script }
  else
    match busRead 4 addr s with
    | .error r => .refused r
    | .ok result =>
      if result.1.getLsbD 0 then .next { result.2 with script := .wait addr (polls - 1) :: result.2.script }
      else .next result.2

/-- One action of the script. -/
def act (a : HostAction) (s : State) : Host.Outcome State Fault Refusal :=
  match a with
  | .memRead n addr => memRead n addr s
  | .memWrite n addr v => memWrite n addr v s
  | .setSource bytes pos => setSource bytes pos s
  | .assertReset kept => .next (assertReset kept s)
  | .releaseReset => .next { s with resetLine := false }
  | .run => blockTurn s
  | .wait addr polls => waitTurn addr polls s

/-- One move: the next action of the script, or, when the host does nothing more, the block (log 5). -/
def move (s : State) : Host.Outcome State Fault Refusal :=
  match s.script with
  | [] => blockTurn s
  | a :: rest => act a { s with script := rest }

/-- The instruction word of a table row, accepted at an idle or busy block and due to run next: what a host's CMD write
leaves (10_state.md R33), with the reset input released and the block's turn at the head of the script (log 14). -/
def withCommand (w : Word) (s : State) : State :=
  let t := accept w s
  { t with resetLine := false, script := .run :: s.script }

end Sys2Proof.Machine
end

