-- ==== Sys2Proof/Machine/Step.lean ====
section
/-! DEFINITION. One step of the machine, and the state whose next step runs a given command. -/

namespace Sys2Proof.Machine

/-- One step: a configuration outside 00_scope.md R6 is refused; otherwise one move of the host or the block. -/
def step (s : State) : Host.Outcome State Fault Refusal :=
  if s.params.wf then move s else .refused .notHuff1Configuration

/-- `s` with the command of a table row accepted and due to run next (logs 14, 21). A row wider than a command word
holds no command and leaves `s` as it is. -/
def State.withFetchWord (s : State) (nbits w : Nat) : State :=
  match tableWord nbits w with
  | some cw => withCommand cw s
  | none => s

end Sys2Proof.Machine
end

