-- ==== Sys2Proof/Machine/Script.lean ====
section
/-! DEFINITION. The host script (30_encoding.md R110-R112): its lines, the pseudo-instructions and their expansions, the
host actions a script stands for, its encoding as bus transactions, and a reader of its text. -/

namespace Sys2Proof.Machine

/-- A primitive line of a host script (30_encoding.md R110). `wr FREQ[b]` and `rd FREQ[b]` are `wr` and `rd` of the
register FREQb. `wait` carries how many of its STATUS reads a running command lets return BUSY = 1
(70_reset_and_hazards.md R345; log 22); two waits of a script can carry different numbers. -/
inductive ScriptLine where
  | wr (r : Reg) (imm : Word)
  | rd (r : Reg)
  | cmd (i : Instr)
  | wait (polls : Nat)
  | src (bytes : List Byte)
  deriving DecidableEq, Repr

/-- The host actions of a line (30_encoding.md R110). DESIGN CHOICE (log 28): a line stands for no `run`, so in the actions
of a script the block moves only at a `wait` with no polls left, or after the last line; a `run` between two lines, which
the draw of 70_reset_and_hazards.md R345 admits, is put into State.script by hand. -/
def lineActions (base : Nat) : ScriptLine → List HostAction
  | .wr r imm => [.memWrite 4 (base + regOffset r) imm]
  | .rd r => [.memRead 4 (base + regOffset r)]
  | .cmd i => [.memWrite 4 (base + regOffset .cmd) (encode i)]
  | .wait polls => [.wait (base + regOffset .status) polls]
  | .src bytes => [.setSource bytes 0]

/-- The host actions of a script; no `run` among them (log 28). -/
def scriptActions (base : Nat) (lines : List ScriptLine) : List HostAction := lines.flatMap (lineActions base)

/-- The pseudo-instructions (30_encoding.md R111). -/
inductive Pseudo where
  | nop
  | reset
  | pqInsert (k p : Word)
  | pqExtract
  | pqSize
  | pqClear
  | pqPeek (i : Word)
  | freqClear
  | freqCount (b : Word)
  | freqSet (b : Byte) (v : Word)
  | treeBuild
  | treeRead (i : Word)
  | codeGen
  | codeLookup (b : Word)
  | bwBit (b : Word)
  | bwU32 (v : Word)
  | bwFlush
  | brBit
  | brU32
  | brAlign
  | encode
  | decode
  deriving DecidableEq, Repr

/-- The expansion of a pseudo-instruction (30_encoding.md R111), with the polls of its `wait`. -/
def Pseudo.expand (polls : Nat) : Pseudo → List ScriptLine
  | .nop => [.cmd .nop, .wait polls]
  | .reset => [.cmd .reset, .wait polls]
  | .pqInsert k p => [.wr .arg0 k, .wr .arg1 p, .cmd .pqInsert, .wait polls]
  | .pqExtract => [.cmd .pqExtractMin, .wait polls]
  | .pqSize => [.cmd .pqSize, .wait polls]
  | .pqClear => [.cmd .pqClear, .wait polls]
  | .pqPeek i => [.wr .arg0 i, .cmd .pqPeek, .wait polls]
  | .freqClear => [.cmd .freqClear, .wait polls]
  | .freqCount b => [.wr .arg0 b, .cmd .freqCount, .wait polls]
  | .freqSet b v => [.wr (.freq b) v]
  | .treeBuild => [.cmd .treeBuild, .wait polls]
  | .treeRead i => [.wr .arg0 i, .cmd .treeRead, .wait polls]
  | .codeGen => [.cmd .codeGen, .wait polls]
  | .codeLookup b => [.wr .arg0 b, .cmd .codeLookup, .wait polls]
  | .bwBit b => [.wr .arg0 b, .cmd .bwWriteBit, .wait polls]
  | .bwU32 v => [.wr .arg0 v, .cmd .bwWriteU32, .wait polls]
  | .bwFlush => [.cmd .bwFlush, .wait polls]
  | .brBit => [.cmd .brReadBit, .wait polls]
  | .brU32 => [.cmd .brReadU32, .wait polls]
  | .brAlign => [.cmd .brAlign, .wait polls]
  | .encode => [.cmd .encode, .wait polls]
  | .decode => [.cmd .decode, .wait polls]

/-- A bus transaction (W or R, offset, data) (30_encoding.md R112); a read carries no data. `readUntilIdle` is
"(R, offset, -) repeated until bit 0 of the data read is 0". -/
inductive Transaction where
  | write (offset : Nat) (data : Word)
  | read (offset : Nat)
  | readUntilIdle (offset : Nat)
  deriving DecidableEq, Repr

/-- The bus transactions of a line, in order (30_encoding.md R112); `src` is no bus access (R110). -/
def lineTransactions : ScriptLine → List Transaction
  | .wr r imm => [.write (regOffset r) imm]
  | .rd r => [.read (regOffset r)]
  | .cmd i => [.write (regOffset .cmd) (encode i)]
  | .wait _ => [.readUntilIdle (regOffset .status)]
  | .src _ => []

/-- The bus transactions of some lines, in order. -/
def scriptTransactions (lines : List ScriptLine) : List Transaction := lines.flatMap lineTransactions

/-- "Every value written to CMD is one of the 21 match values" (30_encoding.md R112, log 27). -/
def ScriptLine.wf : ScriptLine → Bool
  | .wr .cmd v =>
    match decode v with
    | .ok _ => true
    | .error _ => false
  | .wr _ _ | .rd _ | .cmd _ | .wait _ | .src _ => true

/-- The encoding of a script (30_encoding.md R112); lines that write CMD a value that is no command are no script
(log 27). -/
def scriptEncoding (lines : List ScriptLine) : Option (List Transaction) :=
  if lines.all ScriptLine.wf then some (scriptTransactions lines) else none

/-! ### The text of a script (30_encoding.md R110) -/

/-- The mnemonic of a command (30_encoding.md R107). -/
def mnemonic : Instr → String
  | .nop => "NOP"
  | .reset => "RESET"
  | .pqInsert => "PQ_INSERT"
  | .pqExtractMin => "PQ_EXTRACT_MIN"
  | .pqSize => "PQ_SIZE"
  | .pqClear => "PQ_CLEAR"
  | .pqPeek => "PQ_PEEK"
  | .freqClear => "FREQ_CLEAR"
  | .freqCount => "FREQ_COUNT"
  | .treeBuild => "TREE_BUILD"
  | .treeRead => "TREE_READ"
  | .codeGen => "CODE_GEN"
  | .codeLookup => "CODE_LOOKUP"
  | .bwWriteBit => "BW_WRITE_BIT"
  | .bwWriteU32 => "BW_WRITE_U32"
  | .bwFlush => "BW_FLUSH"
  | .brReadBit => "BR_READ_BIT"
  | .brReadU32 => "BR_READ_U32"
  | .brAlign => "BR_ALIGN"
  | .encode => "ENCODE"
  | .decode => "DECODE"

/-- The names of the registers at 0x000 to 0x03C, in the order of `lowRegs` (10_state.md R20). -/
def lowRegNames : List String :=
  ["CMD", "STATUS", "ARG0", "ARG1", "RESULT0", "RESULT1", "PQ_SIZE", "N_TOTAL", "TREE_INFO", "BIT_CURSOR",
   "IN_COUNT_LO", "IN_COUNT_HI", "OUT_COUNT_LO", "OUT_COUNT_HI", "ID", "PARAMS"]

/-- A piece of a script line. Blanks only separate pieces (log 22). -/
inductive Token where
  | word (cs : List Char)
  | text (cs : List Char)
  | comma
  | openBracket
  | closeBracket
  deriving DecidableEq, Repr

/-- The word gathered so far, in reverse, as a token. -/
def flushWord (cur : List Char) : List Token := if cur.isEmpty then [] else [.word cur.reverse]

/-- A character that is a token on its own. -/
def markToken (c : Char) : Option Token :=
  if c = ',' then some .comma else if c = '[' then some .openBracket else if c = ']' then some .closeBracket else none

/-- The tokens of a line, inside a quoted text or outside; `;` outside a quoted text starts a comment (30_encoding.md
R110, log 22). A quoted text that does not end on its line is no text. -/
def lexLine : List Char → List Char → Bool → Option (List Token)
  | [], _, true => none
  | [], cur, false => some (flushWord cur)
  | c :: cs, cur, true =>
    if c = '"' then (lexLine cs [] false).map fun ts => .text cur.reverse :: ts else lexLine cs (c :: cur) true
  | c :: cs, cur, false =>
    if c = ';' then some (flushWord cur)
    else if c = ' ' ∨ c = '\t' then (lexLine cs [] false).map fun ts => flushWord cur ++ ts
    else if c = '"' then (lexLine cs [] true).map fun ts => flushWord cur ++ ts
    else
      match markToken c with
      | some mark => (lexLine cs [] false).map fun ts => flushWord cur ++ mark :: ts
      | none => lexLine cs (c :: cur) false

/-- The value of a digit. -/
def digitValue (c : Char) : Option Nat :=
  if '0' ≤ c ∧ c ≤ '9' then some (c.toNat - '0'.toNat)
  else if 'a' ≤ c ∧ c ≤ 'f' then some (c.toNat - 'a'.toNat + 10)
  else if 'A' ≤ c ∧ c ≤ 'F' then some (c.toNat - 'A'.toNat + 10)
  else none

/-- The number some digits of a radix write. -/
def digitsValue (radix : Nat) : List Char → Nat → Option Nat
  | [], v => some v
  | c :: cs, v =>
    match digitValue c with
    | some d => if d < radix then digitsValue radix cs (radix * v + d) else none
    | none => none

/-- An immediate: "decimal, or hexadecimal with a 0x prefix" (30_encoding.md R110). -/
def parseNumber : List Char → Option Nat
  | '0' :: 'x' :: d :: ds => digitsValue 16 (d :: ds) 0
  | d :: ds => digitsValue 10 (d :: ds) 0
  | [] => none

/-- An immediate below a bound. -/
def parseBelow (bound : Nat) (cs : List Char) : Option Nat := (parseNumber cs).filter fun n => n < bound

/-- A 32-bit immediate. -/
def parseWord (cs : List Char) : Option Word := (parseBelow (2 ^ 32) cs).map (BitVec.ofNat 32)

/-- A byte value. -/
def parseByte (cs : List Char) : Option Byte := (parseBelow 256 cs).map (BitVec.ofNat 8)

/-- The number at the end of a register's name: decimal, with no leading zero (10_state.md R20). -/
def parseIndex (bound : Nat) (cs : List Char) : Option Nat :=
  match cs with
  | [] | '0' :: _ :: _ => none
  | d :: ds => (digitsValue 10 (d :: ds) 0).filter fun n => n < bound

/-- A register name: one of R20's names, letter for letter (10_state.md R20). -/
def parseRegName (cs : List Char) : Option Reg :=
  match (lowRegNames.zip lowRegs).find? fun row => row.1.toList == cs with
  | some row => some row.2
  | none =>
    match cs with
    | 'C' :: 'W' :: ds => (parseIndex 8 ds).map fun k => .cw (Fin.ofNat 8 k)
    | 'F' :: 'R' :: 'E' :: 'Q' :: ds => (parseIndex 256 ds).map fun k => .freq (BitVec.ofNat 8 k)
    | _ => none

/-- A register operand and what follows it: a name, or FREQ[b] (30_encoding.md R110). -/
def parseReg : List Token → Option (Reg × List Token)
  | .word w :: .openBracket :: .word b :: .closeBracket :: rest =>
    if w == "FREQ".toList then (parseByte b).map fun v => (.freq v, rest) else none
  | .word w :: rest => (parseRegName w).map fun r => (r, rest)
  | _ => none

/-- The command of a mnemonic (30_encoding.md R107). -/
def parseMnemonic (cs : List Char) : Option Instr :=
  (opcodeMap.map (·.2)).find? fun i => (mnemonic i).toList == cs

/-- The bytes of a list of at least one, up to its closing bracket (30_encoding.md R110). -/
def parseByteList : List Token → Option (List Byte)
  | [.word w, .closeBracket] => (parseByte w).map fun b => [b]
  | .word w :: .comma :: rest =>
    match parseByte w, parseByteList rest with
    | some b, some bs => some (b :: bs)
    | _, _ => none
  | _ => none

/-- ASCII text as bytes, one per character (30_encoding.md R110). -/
def textBytes : List Char → Option (List Byte)
  | [] => some []
  | c :: cs => if c.toNat < 128 then (textBytes cs).map fun bs => BitVec.ofNat 8 c.toNat :: bs else none

/-- The pseudo-instructions with no operand (30_encoding.md R111). -/
def plainPseudos : List (String × Pseudo) :=
  [("nop", .nop), ("reset", .reset), ("pq.extract", .pqExtract), ("pq.size", .pqSize), ("pq.clear", .pqClear),
   ("freq.clear", .freqClear), ("tree.build", .treeBuild), ("code.gen", .codeGen), ("bw.flush", .bwFlush),
   ("br.bit", .brBit), ("br.u32", .brU32), ("br.align", .brAlign), ("encode", .encode), ("decode", .decode)]

/-- The pseudo-instructions with one operand (30_encoding.md R111). -/
def unaryPseudos : List (String × (Word → Pseudo)) :=
  [("pq.peek", .pqPeek), ("freq.count", .freqCount), ("tree.read", .treeRead), ("code.lookup", .codeLookup),
   ("bw.bit", .bwBit), ("bw.u32", .bwU32)]

/-- A pseudo-instruction and its operands (30_encoding.md R111). -/
def parsePseudo (name : List Char) (operands : List Token) : Option Pseudo :=
  match operands with
  | [] => (plainPseudos.find? fun row => row.1.toList == name).map (·.2)
  | [.word a] =>
    match unaryPseudos.find? fun row => row.1.toList == name with
    | some row => (parseWord a).map row.2
    | none => none
  | [.word a, .comma, .word b] =>
    if name == "pq.insert".toList then
      match parseWord a, parseWord b with
      | some k, some p => some (.pqInsert k p)
      | _, _ => none
    else if name == "freq.set".toList then
      match parseByte a, parseWord b with
      | some k, some v => some (.freqSet k v)
      | _, _ => none
    else none
  | _ => none

/-- The lines the tokens of one script line stand for. DESIGN CHOICE (log 22): the `wait` among them gets the number
`polls`, which the text does not write and 93_implementation_defined.md U5 leaves a draw of its own. -/
def parseTokens (polls : Nat) : List Token → Option (List ScriptLine)
  | [] => some []
  | .word w :: rest =>
    if w == "wr".toList then
      match parseReg rest with
      | some (r, [.comma, .word v]) => (parseWord v).map fun imm => [.wr r imm]
      | _ => none
    else if w == "rd".toList then
      match parseReg rest with
      | some (r, []) => some [.rd r]
      | _ => none
    else if w == "cmd".toList then
      match rest with
      | [.word m] => (parseMnemonic m).map fun i => [.cmd i]
      | _ => none
    else if w == "wait".toList then (if rest.isEmpty then some [.wait polls] else none)
    else if w == "src".toList then
      match rest with
      | [.text cs] => (textBytes cs).map fun bs => [.src bs]
      | [.openBracket, .closeBracket] => some [.src []]
      | .openBracket :: bytes => (parseByteList bytes).map fun bs => [.src bs]
      | _ => none
    else (parsePseudo w rest).map (Pseudo.expand polls)
  | _ => none

/-- The script lines of one line of text (30_encoding.md R110, R111); none when it is no line of a host script. A `wait`
gets the number `polls` (log 22). -/
def parseLine (polls : Nat) (line : List Char) : Option (List ScriptLine) := (lexLine line [] false).bind (parseTokens polls)

/-- The lines of a text, cut at its newlines; `cur` is the line so far, in reverse. -/
def splitLines : List Char → List Char → List (List Char)
  | [], cur => [cur.reverse]
  | c :: cs, cur => if c = '\n' then cur.reverse :: splitLines cs [] else splitLines cs (c :: cur)

/-- The script lines of some lines of text, each `wait` with the same `polls` (log 22). -/
def parseLines (polls : Nat) : List (List Char) → Option (List ScriptLine)
  | [] => some []
  | l :: ls =>
    match parseLine polls l, parseLines polls ls with
    | some xs, some ys => some (xs ++ ys)
    | _, _ => none

/-- A program: a host script, one line of text each (30_encoding.md R110), that has an encoding (R112, log 27). DESIGN
CHOICE (log 22): every `wait` of the text gets the one number `polls`, where 70_reset_and_hazards.md R345 draws one for
each command; script lines whose waits differ are written as `ScriptLine`s. -/
def parseScript (polls : Nat) (text : List Char) : Option (List ScriptLine) :=
  (parseLines polls (splitLines text [])).filter fun lines => lines.all ScriptLine.wf

end Sys2Proof.Machine
end

