-- ==== Sys2Proof/Safety.lean ====
section
/-! DEFINITION. The words claims about HUFF1 are stated in: what a legal state is (10_state.md R21, R26, R35-R40,
40_priority_queue.md R130, 41_tree_builder.md R172), how a command ends (00_scope.md R12, 60_exceptions.md R306), which
errors and which writes a command is allowed (60_exceptions.md R302, 70_reset_and_hazards.md R342), and the bits and
bytes of the streams (20_memory.md R87-R89). -/

namespace Sys2Proof.Machine

/-! ### How a command ends -/

/-- `s` after `return` with the block left as `b` (00_scope.md R12): STATUS as the acceptance left it, PHASE IDLE, BUSY 0,
no transient state, and nothing outside the block changed. -/
def returned (s : State) (b : Block) : State :=
  { s with
    block :=
      { b with
        status := { s.block.status with phase := .idle, busy := false }
        running := Running.none } }

/-- `s` after a standalone command raised `e` before it changed anything (60_exceptions.md R306, R308): only STATUS
differs, with PHASE EXEC, the phase of detection. -/
def raisedAtOnce (s : State) (e : ErrCode) : State :=
  { s with
    block :=
      { s.block with
        status := { s.block.status with err := true, errCode := e, phase := .exec, busy := false }
        running := Running.none } }

/-! ### Legal states -/

/-- Min-heap order of the live slots (40_priority_queue.md R130). -/
abbrev heapOrdered (h : List Elem) : Prop :=
  ∀ i < h.length, 1 ≤ i → (heapAt h ((i - 1) / 2)).key ≤ (heapAt h i).key

/-- The slot k levels above slot i (40_priority_queue.md R131). -/
def ancestor : Nat → Nat → Nat
  | 0, i => i
  | k + 1, i => ancestor k ((i - 1) / 2)

/-- The child c of slot i that an element with key k gives way to (40_priority_queue.md R134, R135): its key is strictly
smaller than k, and the right child is it only with a key strictly smaller than the left one's. -/
def givesWay (h : List Elem) (k : Word) (i c : Nat) : Prop :=
  c < h.length ∧ (heapAt h c).key < k ∧
    (c = 2 * i + 1 ∧ (2 * i + 2 < h.length → (heapAt h (2 * i + 1)).key ≤ (heapAt h (2 * i + 2)).key) ∨
      c = 2 * i + 2 ∧ (heapAt h (2 * i + 2)).key < (heapAt h (2 * i + 1)).key)

/-- The byte values with a nonzero count, in ascending order (41_tree_builder.md R166). -/
def symbolsOf (f : Vector Word 256) : List Byte := allBytes.filter fun b => freqAt f b != 0#32

/-- The shape of a tree whose leaves are `bs`, in order (41_tree_builder.md R172). -/
def treeShape (bs : List Byte) (ns : List Node) (root : NodeIdx) : Prop :=
  match bs with
  | [] => ns = [] ∧ root = Config.nil
  | [b] => ns = [.leaf b, .internal 0#9 Config.nil] ∧ root = 1#9
  | _ :: _ :: _ =>
    ns.length = 2 * bs.length - 1 ∧ root.toNat = 2 * bs.length - 2 ∧
      (∀ i < bs.length, ns[i]? = (bs[i]?).map Node.leaf) ∧
      ∀ i, bs.length ≤ i → i < 2 * bs.length - 1 →
        ∃ l r : NodeIdx, ns[i]? = some (.internal l r) ∧ l.toNat < i ∧ r.toNat < i

/-- A tree some TreeBuild left, or the empty tree of reset (42_code_table.md R192: "always well formed"). -/
def treeLegal (ns : List Node) (root : NodeIdx) : Prop := ∃ bs : List Byte, bs.length ≤ 256 ∧ treeShape bs ns root

/-- All bits of a codeword at or above its length are 0 (10_state.md R38). -/
def codeLegal (c : Vector CodeEntry 256) : Prop :=
  ∀ b : Byte, ∀ j, (codeAt c b).len.toNat ≤ j → (codeAt c b).cw.getLsbD j = false

/-- Every bit of wr_buf below position 8 - wr_off is 0 (10_state.md R40). -/
abbrev writerLegal (w : Writer) : Prop := ∀ j < 8 - w.off.val, w.buf.getLsbD j = false

/-- A reader with no byte stands at offset 0 (10_state.md R39, 43_bit_stream_io.md R215, R217). -/
abbrev readerLegal (r : Reader) : Prop := r.valid = false → r.off = 0

/-- STATUS (10_state.md R21, R22): ERR is set exactly with an ERR_CODE, never while BUSY, and an idle block without an
error shows PHASE IDLE. -/
abbrev statusLegal (st : Status) : Prop :=
  (st.err = true ↔ st.errCode ≠ .none) ∧ (st.busy = true → st.err = false) ∧
    (st.busy = false → st.err = false → st.phase = .idle)

/-- A legal machine: what holds in the reset state and after every step. -/
structure Legal (s : State) : Prop where
  status : statusLegal s.block.status
  idle : s.block.status.busy = false → s.block.running = Running.none
  heapSize : s.block.heap.length ≤ s.params.heapCap
  heapOrder : heapOrdered s.block.heap
  total : s.block.nTotal.toNat ≤ Config.maxTotal
  tree : treeLegal s.block.nodes s.block.root
  code : codeLegal s.block.code
  reader : readerLegal s.block.reader
  writer : writerLegal s.block.writer
  held : s.resetLine = true → s.block = Block.reset

/-! ### What a command may raise and write -/

/-- The errors a command can raise, with the phase of detection (60_exceptions.md R302). -/
def mayRaise : Instr → List (ErrCode × Phase)
  | .nop | .reset | .pqSize | .pqClear | .freqClear | .codeGen | .bwWriteU32 | .bwFlush | .brAlign => []
  | .pqInsert => [(.badArgument, .exec), (.queueOverflow, .exec)]
  | .pqExtractMin => [(.queueUnderflow, .exec)]
  | .pqPeek => [(.badArgument, .exec)]
  | .freqCount => [(.badArgument, .exec), (.inputTooLong, .exec)]
  | .treeBuild => [(.formatError, .exec)]
  | .treeRead => [(.badArgument, .exec)]
  | .codeLookup => [(.badArgument, .exec)]
  | .bwWriteBit => [(.badArgument, .exec)]
  | .brReadBit | .brReadU32 => [(.streamTruncated, .exec)]
  | .encode => [(.inputTooLong, .count), (.formatError, .payload)]
  | .decode => [(.formatError, .headerRead), (.formatError, .build), (.formatError, .walk), (.streamTruncated, .walk)]

/-- The columns of the table of writes (70_reset_and_hazards.md R342), with ARG0/ARG1, which no command but RESET
writes (10_state.md R23). -/
inductive Column where
  | args
  | result0
  | result1
  | cwreg
  | heap
  | freq
  | nTotal
  | tree
  | code
  | reader
  | writer
  | inCount
  | outCount
  | ports
  deriving DecidableEq, Repr

/-- The entries of the table of writes that are not "-" (70_reset_and_hazards.md R342). -/
def mayWrite : Instr → List Column
  | .nop => []
  | .reset =>
    [.args, .result0, .result1, .cwreg, .heap, .freq, .nTotal, .tree, .code, .reader, .writer, .inCount, .outCount]
  | .pqInsert => [.heap]
  | .pqExtractMin => [.result0, .result1, .heap]
  | .pqSize => [.result0]
  | .pqClear => [.heap]
  | .pqPeek => [.result0, .result1]
  | .freqClear => [.freq, .nTotal]
  | .freqCount => [.freq, .nTotal]
  | .treeBuild => [.result0, .result1, .heap, .nTotal, .tree]
  | .treeRead => [.result0]
  | .codeGen => [.result0, .result1, .code]
  | .codeLookup => [.result0, .cwreg]
  | .bwWriteBit | .bwWriteU32 | .bwFlush => [.writer, .outCount, .ports]
  | .brReadBit | .brReadU32 => [.result0, .reader, .inCount, .ports]
  | .brAlign => [.reader]
  | .encode =>
    [.result0, .result1, .heap, .freq, .nTotal, .tree, .code, .writer, .inCount, .outCount, .ports]
  | .decode => [.result0, .heap, .freq, .nTotal, .tree, .reader, .inCount, .outCount, .ports]

/-- A column is the same in two states. -/
def Column.same (c : Column) (s t : State) : Prop :=
  match c with
  | .args => t.block.arg0 = s.block.arg0 ∧ t.block.arg1 = s.block.arg1
  | .result0 => t.block.result0 = s.block.result0
  | .result1 => t.block.result1 = s.block.result1
  | .cwreg => t.block.cwreg = s.block.cwreg
  | .heap => t.block.heap = s.block.heap
  | .freq => t.block.freq = s.block.freq
  | .nTotal => t.block.nTotal = s.block.nTotal
  | .tree => t.block.nodes = s.block.nodes ∧ t.block.root = s.block.root
  | .code => t.block.code = s.block.code
  | .reader => t.block.reader = s.block.reader
  | .writer => t.block.writer = s.block.writer
  | .inCount => t.block.inCount = s.block.inCount
  | .outCount => t.block.outCount = s.block.outCount
  | .ports => t.srcPos = s.srcPos ∧ t.portlog = s.portlog

/-- Nothing outside the block and the ports is the block's to change (20_memory.md R91). -/
def surroundingsSame (s t : State) : Prop :=
  t.params = s.params ∧ t.resetLine = s.resetLine ∧ t.src = s.src ∧ t.script = s.script ∧ t.reads = s.reads ∧
    t.draws = s.draws

/-! ### The streams -/

/-- The bits of a byte, bit 7 first (20_memory.md R88). -/
def byteBits (b : Byte) : List Bool := bitsDown b 8

/-- The bits the writer has buffered, first written first (10_state.md R40). -/
def pendingBits (w : Writer) : List Bool := (List.range w.off.val).map fun j => w.buf.getLsbD (7 - j)

/-- The four bytes of a 32-bit value, most significant first (20_memory.md R87). -/
def bigEndian (v : Word) : List Byte :=
  [v.extractLsb' 24 8, v.extractLsb' 16 8, v.extractLsb' 8 8, v.extractLsb' 0 8]

/-- The 1024 bytes of a header (20_memory.md R89). -/
def headerBytes (f : Vector Word 256) : List Byte := allBytes.flatMap fun b => bigEndian (freqAt f b)

/-- The bytes the sink receives in a list of port events (10_state.md R42). -/
def sinkBytes (evs : List PortEvent) : List Byte :=
  evs.filterMap fun e =>
    match e with
    | .snkByte b => some b
    | _ => none

/-- The bytes fetched from the source in a list of port events (10_state.md R42). -/
def sourceBytes (evs : List PortEvent) : List Byte :=
  evs.filterMap fun e =>
    match e with
    | .srcByte b => some b
    | _ => none

/-- An event that moves one byte (10_state.md R42). -/
def byteEvent (e : PortEvent) : Prop := (∃ b, e = .srcByte b) ∨ ∃ b, e = .snkByte b

/-- The port events a state has beyond those of an earlier one. -/
def newEvents (s t : State) : List PortEvent := t.portlog.drop s.portlog.length

/-- The next k bits of the reader, in order (43_bit_stream_io.md R225). -/
def readBitList : Nat → State → Res State (List Bool)
  | 0, s => .ok [] s
  | k + 1, s => (readBit s).andThen fun b s1 => (readBitList k s1).andThen fun bs s2 => .ok (b :: bs) s2

/-- The node a bit string leads to from node i, left on 0 and right on 1; none below a leaf or at an absent child
(45_decoder_fsm.md R264). -/
def walkPath (ns : List Node) : NodeIdx → List Bool → Option NodeIdx
  | i, [] => some i
  | i, b :: p =>
    match nodeAt ns i.toNat with
    | .leaf _ => none
    | .internal l r =>
      let c := if b then r else l
      if c = Config.nil then none else walkPath ns c p

/-- Counts Validate accepts (41_tree_builder.md R164): none is "negative" and the sum does not overflow. -/
def countsValid (f : Vector Word 256) : Prop :=
  (∀ b : Byte, (freqAt f b).toNat < 0x80000000) ∧
    (allBytes.map fun b => (freqAt f b).toNat).sum ≤ Config.maxTotal

/-- The nodes and the root of the tree TreeBuild makes of some counts (41_tree_builder.md R165, R169). -/
def treeOf (f : Vector Word 256) : List Node × NodeIdx :=
  match buildTree 256 f with
  | .ok _ t => (t.nodes, t.root)
  | .err _ t => (t.nodes, t.root)

/-- The code table of the tree of some counts (42_code_table.md R191). -/
def codeOf (f : Vector Word 256) : Vector CodeEntry 256 := codeTableOf (treeOf f).1 (treeOf f).2

/-- The bits of a byte sequence under a code table: its codewords, in order (20_memory.md R89). -/
def codewordsOf (c : Vector CodeEntry 256) (bytes : List Byte) : List Bool :=
  bytes.flatMap fun b => codewordBits (codeAt c b)

/-- The counts of a byte sequence (44_encoder_fsm.md R242). -/
def countsOf (bytes : List Byte) (f : Vector Word 256) : Prop :=
  ∀ b : Byte, (freqAt f b).toNat = bytes.count b

/-- The weights of a node list, in order: a leaf's count, or the sum of the weights of an internal node's two children,
which stand before it (41_tree_builder.md R174). -/
def nodeWeights (f : Vector Word 256) (ns : List Node) : List Nat :=
  ns.foldl
    (fun ws nd =>
      ws ++
        [match nd with
          | .leaf b => (freqAt f b).toNat
          | .internal l r => ws.getD l.toNat 0 + ws.getD r.toNat 0])
    []

/-- The weight of node i (41_tree_builder.md R174). -/
def weightAt (f : Vector Word 256) (ns : List Node) (i : Nat) : Nat := (nodeWeights f ns).getD i 0

/-- P, the sum of freq[b]·code[b].len (44_encoder_fsm.md R248). -/
def countedPayloadBits (f : Vector Word 256) (c : Vector CodeEntry 256) : Nat :=
  (allBytes.map fun b => (freqAt f b).toNat * (codeAt c b).len.toNat).sum

/-- The number of payload bits of a byte sequence under a code table: the lengths of its codewords, in order. -/
def payloadBits (c : Vector CodeEntry 256) (bytes : List Byte) : Nat :=
  (bytes.map fun b => (codeAt c b).len.toNat).sum

end Sys2Proof.Machine
end

