-- ==== Sys2Proof/Certificates/Slice0/Obligations.lean ====
section
/-! DEFINITION. The statements for the provers. Each says which rules of spec/ it formalises. `returned s b` is `s` after
`return` with the block left as `b`, and `raisedAtOnce s e` is `s` with only STATUS changed by the error `e`
(Sys2Proof/Safety.lean); both give the whole next state, so a statement that uses them is the command's frame too. -/

open Sys2Proof Sys2Proof.Machine

/-! ### Encoding -/

/-- 30_encoding.md R107: the 21 words of the opcode map, written out, decode to their commands. -/
def Obligations.OpcodeMapWordsDecode : Prop :=
  decode 0x00000000#32 = .ok .nop ∧ decode 0x00000001#32 = .ok .reset ∧ decode 0x00000010#32 = .ok .pqInsert ∧
  decode 0x00000011#32 = .ok .pqExtractMin ∧ decode 0x00000012#32 = .ok .pqSize ∧
  decode 0x00000013#32 = .ok .pqClear ∧ decode 0x00000014#32 = .ok .pqPeek ∧
  decode 0x00000020#32 = .ok .freqClear ∧ decode 0x00000021#32 = .ok .freqCount ∧
  decode 0x00000022#32 = .ok .treeBuild ∧ decode 0x00000023#32 = .ok .treeRead ∧
  decode 0x00000030#32 = .ok .codeGen ∧ decode 0x00000031#32 = .ok .codeLookup ∧
  decode 0x00000040#32 = .ok .bwWriteBit ∧ decode 0x00000041#32 = .ok .bwWriteU32 ∧
  decode 0x00000042#32 = .ok .bwFlush ∧ decode 0x00000048#32 = .ok .brReadBit ∧
  decode 0x00000049#32 = .ok .brReadU32 ∧ decode 0x0000004A#32 = .ok .brAlign ∧
  decode 0x00000050#32 = .ok .encode ∧ decode 0x00000051#32 = .ok .decode

/-- 30_encoding.md R107, R109: every 32-bit word that selects a command is that command's one word, and back. -/
def Obligations.DecodeAndEncodeAgree : Prop :=
  ∀ (w : Word) (i : Instr), decode w = .ok i ↔ w = encode i

/-- 30_encoding.md R102, R108: the rejected words are those with a bit of [31:8] set and those whose OPCODE lies in one
of the seven illegal ranges; 235 of the 256 opcode values are illegal; and an illegal word, run by the block, changes
nothing but STATUS, which records ILLEGAL_COMMAND. -/
def Obligations.IllegalWordsAndTheirEffect : Prop :=
  (∀ w : Word,
    (∃ r, decode w = .error r) ↔
      w.extractLsb' 8 24 ≠ 0#24 ∨
        ∃ p ∈ [(0x02, 0x0F), (0x15, 0x1F), (0x24, 0x2F), (0x32, 0x3F), (0x43, 0x47), (0x4B, 0x4F), (0x52, 0xFF)],
          p.1 ≤ (w.extractLsb' 0 8).toNat ∧ (w.extractLsb' 0 8).toNat ≤ p.2) ∧
  ((List.range 256).filter fun op => (decodeOpcode (BitVec.ofNat 8 op)).isNone).length = 235 ∧
  ∀ (s : State) (r : DecodeReject), decode s.block.running.word = .error r →
    blockStep s = .next (raisedAtOnce s .illegalCommand)

/-! ### The machine's moves -/

/-- 20_memory.md R92, 30_encoding.md R101: with a command accepted and the block's turn at the head of the script, or
no host action left, a step runs the decoded command; a word that is no command raises ILLEGAL_COMMAND. The step takes
the turn off the script and adds nothing else. That the turn stands in the script is the model's choice (logs 4, 5). -/
def Obligations.StepRunsTheDecodedCommand : Prop :=
  (∀ (s : State) (rest : List HostAction) (i : Instr),
    s.params.wf = true → s.block.status.busy = true → s.script = .run :: rest →
    decode s.block.running.word = .ok i → step s = exec i { s with script := rest }) ∧
  (∀ (s : State) (i : Instr),
    s.params.wf = true → s.block.status.busy = true → s.script = [] →
    decode s.block.running.word = .ok i → step s = exec i s) ∧
  ∀ (s : State) (rest : List HostAction) (r : DecodeReject),
    s.params.wf = true → s.block.status.busy = true → s.script = .run :: rest →
    decode s.block.running.word = .error r → step s = .next (raisedAtOnce { s with script := rest } .illegalCommand)

/-- 00_scope.md R12, 10_state.md R33, 30_encoding.md R101: a CMD write to an idle block is accepted: BUSY 1, ERR,
ERR_CODE and REJECTED cleared, LAST_OP the word's bits [7:0], the word and both arguments latched, nothing else. -/
def Obligations.CommandWriteIsAcceptedWhileIdle : Prop :=
  ∀ (s : State) (w : Word) (rest : List HostAction),
    s.params.wf = true → s.resetLine = false → s.block.status.busy = false →
    s.script = .memWrite 4 s.params.base w :: rest →
    step s = .next
      { s with
        script := rest
        block :=
          { s.block with
            status :=
              { busy := true, err := false, rejected := false, errCode := .none, phase := s.block.status.phase,
                lastOp := w.extractLsb' 0 8 }
            running := { word := w, a0 := s.block.arg0, a1 := s.block.arg1, emitted := 0#32 } } }

/-- 60_exceptions.md R311: a CMD write while BUSY sets REJECTED and has no other effect; REJECTED then stays 1 until a
CMD write to an idle block is accepted, or until reset (the reset input or the RESET command). -/
def Obligations.CommandWriteIsRejectedWhileBusy : Prop :=
  (∀ (s : State) (w : Word) (rest : List HostAction),
    s.params.wf = true → s.resetLine = false → s.block.status.busy = true →
    s.script = .memWrite 4 s.params.base w :: rest →
    step s = .next
      { s with
        script := rest
        block := { s.block with status := { s.block.status with rejected := true } } }) ∧
  ∀ s t : State, step s = .next t → s.block.status.rejected = true → t.block.status.rejected = false →
    (∃ w rest, s.script = .memWrite 4 s.params.base w :: rest ∧ s.block.status.busy = false) ∨
    (∃ kept rest, s.script = .assertReset kept :: rest) ∨
    (s.block.status.busy = true ∧ decode s.block.running.word = .ok .reset)

/-- 10_state.md R34, R47: an aligned write outside CMD changes the block only when it goes to ARG0, ARG1 or FREQb of an
idle block, and then it stores exactly that register; a write to a read-only register or a reserved offset is ignored;
an aligned read changes no state but the host's record of what it read and the counter behind the free values. -/
def Obligations.RegisterAccessesStoreOnlyArgumentsAndCounts : Prop :=
  (∀ (s : State) (off : Nat) (v : Word) (rest : List HostAction),
    s.params.wf = true → s.resetLine = false → off % 4 = 0 → 0 < off → off < 0x800 →
    s.script = .memWrite 4 (s.params.base + off) v :: rest →
    ∃ b : Block, step s = .next { s with script := rest, block := b } ∧
      (s.block.status.busy = true → b = s.block) ∧
      (s.block.status.busy = false → off = 0x008 → b = { s.block with arg0 := v }) ∧
      (s.block.status.busy = false → off = 0x00C → b = { s.block with arg1 := v }) ∧
      (s.block.status.busy = false → 0x400 ≤ off →
        ∃ f, b = { s.block with freq := f } ∧ freqAt f (BitVec.ofNat 8 ((off - 0x400) / 4)) = v ∧
          ∀ c : Byte, c ≠ BitVec.ofNat 8 ((off - 0x400) / 4) → freqAt f c = freqAt s.block.freq c) ∧
      (off ≠ 0x008 → off ≠ 0x00C → off < 0x400 → b = s.block)) ∧
  ∀ (s : State) (off : Nat) (rest : List HostAction),
    s.params.wf = true → off % 4 = 0 → off < 0x800 →
    s.script = .memRead 4 (s.params.base + off) :: rest →
    ∃ v d, step s = .next { s with script := rest, reads := s.reads ++ [{ offset := off, value := v }], draws := d }

/-- 10_state.md R20-R34: what each offset of an idle block reads, field by field. -/
def Obligations.IdleReadsShowTheRegisters : Prop :=
  ∀ (s : State) (off : Nat) (rest : List HostAction),
    s.params.wf = true → s.resetLine = false → s.block.status.busy = false → off % 4 = 0 → off < 0x800 →
    s.script = .memRead 4 (s.params.base + off) :: rest →
    ∃ v : Word,
      step s = .next { s with script := rest, reads := s.reads ++ [{ offset := off, value := v }] } ∧
      (off = 0x000 → v = 0#32) ∧
      (off = 0x004 →
        v.getLsbD 0 = false ∧ v.getLsbD 1 = s.block.status.err ∧ v.getLsbD 2 = s.block.status.rejected ∧
        v.extractLsb' 3 5 = 0#5 ∧ v.extractLsb' 8 8 = s.block.status.errCode.toByte ∧
        v.extractLsb' 16 4 = s.block.status.phase.toBits ∧ v.extractLsb' 20 4 = 0#4 ∧
        v.extractLsb' 24 8 = s.block.status.lastOp) ∧
      (off = 0x008 → v = s.block.arg0) ∧ (off = 0x00C → v = s.block.arg1) ∧
      (off = 0x010 → v = s.block.result0) ∧ (off = 0x014 → v = s.block.result1) ∧
      (off = 0x018 → v.toNat = s.block.heap.length % 65536) ∧
      (off = 0x01C → v = s.block.nTotal) ∧
      (off = 0x020 →
        v.extractLsb' 0 9 = s.block.root ∧ v.extractLsb' 9 7 = 0#7 ∧
        (v.extractLsb' 16 9).toNat = s.block.nodes.length % 512 ∧ v.extractLsb' 25 7 = 0#7) ∧
      (off = 0x024 →
        v.extractLsb' 0 8 = s.block.reader.buf ∧ (v.extractLsb' 8 3).toNat = s.block.reader.off.val ∧
        v.getLsbD 11 = s.block.reader.valid ∧ v.extractLsb' 12 4 = 0#4 ∧
        v.extractLsb' 16 8 = s.block.writer.buf ∧ (v.extractLsb' 24 3).toNat = s.block.writer.off.val ∧
        v.extractLsb' 27 5 = 0#5) ∧
      (off = 0x028 → v.toNat = s.block.inCount.toNat % 2 ^ 32) ∧
      (off = 0x02C → v.toNat = s.block.inCount.toNat / 2 ^ 32) ∧
      (off = 0x030 → v.toNat = s.block.outCount.toNat % 2 ^ 32) ∧
      (off = 0x034 → v.toNat = s.block.outCount.toNat / 2 ^ 32) ∧
      (off = 0x038 → v = 0x48554631#32) ∧
      (off = 0x03C → v.extractLsb' 0 16 = BitVec.ofNat 16 s.params.heapCap ∧ v.extractLsb' 16 16 = 1#16) ∧
      (0x040 ≤ off → off < 0x060 → v = s.block.cwreg.extractLsb' (8 * (off - 0x040)) 32) ∧
      (0x060 ≤ off → off < 0x400 → v = 0#32) ∧
      (0x400 ≤ off → v = freqAt s.block.freq (BitVec.ofNat 8 ((off - 0x400) / 4)))

/-- 10_state.md R46: a STATUS read while BUSY shows the true fields, with PHASE one of the phases the running command
uses; a read of any other offset returns some value. For every value of the model's free values (logs 6, 7). -/
def Obligations.BusyReadsShowOnlyStatus : Prop :=
  ∀ (s : State) (off : Nat) (rest : List HostAction),
    s.params.wf = true → s.resetLine = false → s.block.status.busy = true → off % 4 = 0 → off < 0x800 →
    s.script = .memRead 4 (s.params.base + off) :: rest →
    ∃ v : Word,
      step s = .next
        { s with
          script := rest, reads := s.reads ++ [{ offset := off, value := v }], draws := s.draws + 1 } ∧
      (off = 0x004 →
        v.getLsbD 0 = true ∧ v.getLsbD 1 = s.block.status.err ∧ v.getLsbD 2 = s.block.status.rejected ∧
        v.extractLsb' 3 5 = 0#5 ∧ v.extractLsb' 8 8 = s.block.status.errCode.toByte ∧ v.extractLsb' 20 4 = 0#4 ∧
        v.extractLsb' 24 8 = s.block.status.lastOp ∧
        (decode s.block.running.word = .ok .encode → (v.extractLsb' 16 4).toNat ∈ [1, 2, 3, 4, 5, 8]) ∧
        (decode s.block.running.word = .ok .decode → (v.extractLsb' 16 4).toNat ∈ [6, 2, 7, 8]) ∧
        (decode s.block.running.word ≠ .ok .encode → decode s.block.running.word ≠ .ok .decode →
          (v.extractLsb' 16 4).toNat = 9))

/-- 20_memory.md R71, R74, R91 and 00_scope.md R6: a bus access that is not 4 bytes wide, is misaligned or lies outside
the aperture is refused, a change of the source while a command that reads it runs is refused, and a configuration
outside the range of HEAP_CAP is refused. -/
def Obligations.WhatTheModelRefuses : Prop :=
  (∀ (s : State) (n addr : Nat) (v : Word) (rest : List HostAction),
    s.params.wf = true → (s.script = .memRead n addr :: rest ∨ s.script = .memWrite n addr v :: rest) →
    (n ≠ 4 → step s = .refused .unsupportedWidth) ∧
    (n = 4 → addr % 4 ≠ 0 → step s = .refused .misalignedAccess) ∧
    (n = 4 → addr % 4 = 0 → (addr < s.params.base ∨ s.params.base + 0x800 ≤ addr) →
      step s = .refused .outsideAperture)) ∧
  (∀ (s : State) (bytes : List Byte) (pos : Nat) (rest : List HostAction) (i : Instr),
    s.params.wf = true → s.script = .setSource bytes pos :: rest → s.block.status.busy = true →
    decode s.block.running.word = .ok i → i ∈ [Instr.brReadBit, .brReadU32, .encode, .decode] →
    step s = .refused .sourceChangedWhileRead) ∧
  ∀ s : State, (s.params.heapCap < 256 ∨ 65535 < s.params.heapCap) → step s = .refused .notHuff1Configuration

/-- 70_reset_and_hazards.md R330, R331, R332: asserting the reset input while a command runs appends a prefix of the port
events the command would have appended, leaves src_pos as that prefix leaves it, and puts the block into its reset state
with no finalisation. How long the prefix is, is a number the action carries, so every prefix is admitted (log 8). At an
idle block it puts the block into its reset state, appends no port event and touches nothing of the ports. -/
def Obligations.ResetInputAbortsTheRunningCommand : Prop :=
  (∀ (s : State) (kept : Nat) (rest : List HostAction),
    s.params.wf = true → s.block.status.busy = false → s.script = .assertReset kept :: rest →
    step s = .next { s with script := rest, block := Block.reset, resetLine := true }) ∧
  ∀ (s : State) (kept : Nat) (rest : List HostAction),
    s.params.wf = true → s.block.status.busy = true → s.script = .assertReset kept :: rest →
    ∃ (evs : List PortEvent) (u : State),
      blockTurn { s with script := rest } = .next u ∧ u.portlog = s.portlog ++ evs ∧
      u.srcPos = evs.foldl posAfter s.srcPos ∧
      step s = .next
        { s with
          script := rest, block := Block.reset, resetLine := true
          srcPos := (evs.take kept).foldl posAfter s.srcPos
          portlog := s.portlog ++ evs.take kept }

/-- 70_reset_and_hazards.md R331: while the reset input is asserted a write is ignored and a read changes no state of
the machine (the host's record and the draw counter are the model's own, logs 6, 17); in a legal machine the release
leaves an idle block in its reset state. -/
def Obligations.NothingMovesWhileResetIsHeld : Prop :=
  (∀ (s : State) (off : Nat) (v : Word) (rest : List HostAction),
    s.params.wf = true → s.resetLine = true → off % 4 = 0 → off < 0x800 →
    (s.script = .memWrite 4 (s.params.base + off) v :: rest → step s = .next { s with script := rest }) ∧
    (s.script = .memRead 4 (s.params.base + off) :: rest →
      ∃ w, step s = .next
        { s with
          script := rest, reads := s.reads ++ [{ offset := off, value := w }], draws := s.draws + 1 })) ∧
  ∀ (s : State) (rest : List HostAction),
    s.params.wf = true → Legal s → s.resetLine = true → s.script = .releaseReset :: rest →
    step s = .next { s with script := rest, resetLine := false, block := Block.reset }

/-- 00_scope.md R6, 20_memory.md R70, 10_state.md R27: no step changes HEAP_CAP or BASE. -/
def Obligations.ParametersNeverChange : Prop :=
  ∀ s t : State, step s = .next t → t.params = s.params

/-- 70_reset_and_hazards.md R346, 00_scope.md R12, 60_exceptions.md R306: every command ends, in every state, with BUSY 0.
10_state.md R41 says that no transient state outlives a command; that the model then holds 0 in it is the model's choice
(log 9). This gives no command's own effect. -/
def Obligations.EveryCommandEndsIdle : Prop :=
  ∀ (i : Instr) (s : State),
    ∃ t, exec i s = .next t ∧ t.block.status.busy = false ∧ t.block.running = Running.none

/-- 60_exceptions.md R302: a command raises only the errors of its row, each in its phase of detection; a command that
raises none shows PHASE IDLE. -/
def Obligations.CommandsRaiseOnlyTheirErrors : Prop :=
  ∀ (i : Instr) (s t : State),
    256 ≤ s.params.heapCap → s.block.status.err = false → exec i s = .next t →
    (t.block.status.err = true → (t.block.status.errCode, t.block.status.phase) ∈ mayRaise i) ∧
    (t.block.status.err = false → t.block.status.phase = .idle)

/-- 70_reset_and_hazards.md R342, R344 and 10_state.md R23, R24: a command changes only the columns of its row, nothing
outside the block and the ports, and a command that raises an error leaves RESULT0, RESULT1 and cwreg alone, but for
DECODE's RESULT0. -/
def Obligations.CommandsWriteOnlyTheirColumns : Prop :=
  ∀ (i : Instr) (s t : State), exec i s = .next t →
    surroundingsSame s t ∧ (∀ c : Column, c ∉ mayWrite i → c.same s t) ∧
    (s.block.status.err = false → t.block.status.err = true →
      (i ≠ .decode → t.block.result0 = s.block.result0) ∧ t.block.result1 = s.block.result1 ∧
        t.block.cwreg = s.block.cwreg)

/-- 20_memory.md R77, R86: a command only appends to portlog; only ENCODE and DECODE rewind, release or close; the
bit-writer commands only emit and the bit-reader commands only fetch. -/
def Obligations.OnlyCodecCommandsScopeThePorts : Prop :=
  ∀ (i : Instr) (s t : State), exec i s = .next t →
    ∃ evs, t.portlog = s.portlog ++ evs ∧
      (i ≠ .encode → i ≠ .decode →
        PortEvent.srcRewind ∉ evs ∧ PortEvent.srcRelease ∉ evs ∧ PortEvent.snkClose ∉ evs) ∧
      (i ∈ [Instr.bwWriteBit, .bwWriteU32, .bwFlush] → ∀ e ∈ evs, ∃ b, e = .snkByte b) ∧
      (i ∈ [Instr.brReadBit, .brReadU32] → ∀ e ∈ evs, e = .srcEOF ∨ ∃ b, e = .srcByte b)

/-- 60_exceptions.md R306, 44_encoder_fsm.md R246, 45_decoder_fsm.md R265: on every exit, errors included, ENCODE and
DECODE end with SnkClose and then SrcRelease, once each, and ENCODE leaves no bit in the writer. -/
def Obligations.CodecCommandsAlwaysCloseTheirStreams : Prop :=
  (∀ (i : Instr) (s t : State), (i = .encode ∨ i = .decode) → exec i s = .next t →
    ∃ evs, t.portlog = s.portlog ++ evs ++ [.snkClose, .srcRelease] ∧
      PortEvent.snkClose ∉ evs ∧ PortEvent.srcRelease ∉ evs) ∧
  ∀ s t : State, exec .encode s = .next t → t.block.writer = Writer.reset

/-- 30_encoding.md R110, R112: the bus accesses of the host actions of a script are, in order, the script's transactions
at BASE, `src` being none; the offset of a register is the one at which the register map has it (10_state.md R20); every
value that an encoded script writes to CMD is the word of a command, and lines without an encoding are those that write
CMD another value (log 27); a text read as a script has an encoding; and `pq.insert` encodes as R112 shows. -/
def Obligations.ScriptActionsAreItsTransactions : Prop :=
  (∀ (base : Nat) (lines : List ScriptLine),
    (scriptActions base lines).filterMap
        (fun a =>
          match a with
          | .memWrite 4 addr v => some (Transaction.write (addr - base) v)
          | .memRead 4 addr => some (Transaction.read (addr - base))
          | .wait addr _ => some (Transaction.readUntilIdle (addr - base))
          | _ => none) =
      scriptTransactions lines) ∧
  (∀ r : Reg, regAt (regOffset r) = some r) ∧
  (∀ (lines : List ScriptLine) (ts : List Transaction), scriptEncoding lines = some ts →
    ts = scriptTransactions lines ∧ ∀ v, Transaction.write 0x000 v ∈ ts → ∃ i, v = encode i) ∧
  (∀ lines : List ScriptLine, scriptEncoding lines = none ↔ ∃ v, .wr .cmd v ∈ lines ∧ ∀ i, v ≠ encode i) ∧
  (∀ (polls : Nat) (text : List Char) (lines : List ScriptLine), parseScript polls text = some lines →
    ∃ ts, scriptEncoding lines = some ts) ∧
  ∀ (polls : Nat) (k p : Word),
    scriptEncoding (Pseudo.expand polls (.pqInsert k p)) =
      some [.write 0x008 k, .write 0x00C p, .write 0x000 0x00000010#32, .readUntilIdle 0x004]

/-- 30_encoding.md R110, 70_reset_and_hazards.md R335, R345: a `wait` reads STATUS again and again and goes on after the
first read whose bit 0 is 0. At an idle block that is its first read, however many polls it was given. While a command
runs and polls are left, a turn is one read with bit 0 = 1; with none left the block has its turn, runs to its end, and
the `wait` reads on. How many polls there are is the model's number (log 22); the record of reads and the draw counter
are the model's own (logs 6, 17). -/
def Obligations.WaitReadsStatusUntilIdle : Prop :=
  (∀ (s : State) (polls : Nat) (rest : List HostAction),
    s.params.wf = true → s.resetLine = false → s.block.status.busy = false →
    s.script = .wait (s.params.base + 0x004) polls :: rest →
    ∃ v : Word,
      step s = .next { s with script := rest, reads := s.reads ++ [{ offset := 0x004, value := v }] } ∧
      v.getLsbD 0 = false) ∧
  (∀ (s : State) (polls : Nat) (rest : List HostAction),
    s.params.wf = true → s.resetLine = false → s.block.status.busy = true →
    s.script = .wait (s.params.base + 0x004) (polls + 1) :: rest →
    ∃ v : Word,
      step s = .next
        { s with
          script := .wait (s.params.base + 0x004) polls :: rest
          reads := s.reads ++ [{ offset := 0x004, value := v }], draws := s.draws + 1 } ∧
      v.getLsbD 0 = true) ∧
  ∀ (s : State) (addr : Nat) (rest : List HostAction),
    s.params.wf = true → s.block.status.busy = true → s.script = .wait addr 0 :: rest →
    ∃ t, blockStep s = .next t ∧ step s = .next t ∧ t.script = s.script ∧ t.reads = s.reads ∧
      t.block.status.busy = false

/-- 20_memory.md R91: while no command runs that reads the source, the host may choose src_bytes and src_pos, and nothing
else changes; the commands that read it are R86's and the two codec commands (log 13). -/
def Obligations.HostChoosesTheSource : Prop :=
  ∀ (s : State) (bytes : List Byte) (pos : Nat) (rest : List HostAction),
    s.params.wf = true → s.script = .setSource bytes pos :: rest →
    (s.block.status.busy = true →
      ∀ i, decode s.block.running.word = .ok i → i ∉ [Instr.brReadBit, .brReadU32, .encode, .decode]) →
    step s = .next { s with script := rest, src := bytes, srcPos := pos }

/-! ### Control -/

/-- 46_control.md R280: NOP changes nothing but STATUS, which it leaves all clear with LAST_OP 0x00. -/
def Obligations.NopOnlyClearsStatus : Prop :=
  encode .nop = 0x00000000#32 ∧
  (∀ s : State, exec .nop s = .next (returned s s.block)) ∧
  ∀ (s : State) (rest : List HostAction),
    s.params.wf = true → s.resetLine = false → s.block.status.busy = false →
    s.script = .memWrite 4 s.params.base 0x00000000#32 :: .run :: rest →
    ∃ t, step s = .next t ∧
      step t = .next
        { s with
          script := rest
          block :=
            { s.block with
              status :=
                { busy := false, err := false, rejected := false, errCode := .none, phase := .idle, lastOp := 0x00#8 }
              running := Running.none } }

/-- 46_control.md R281, 10_state.md R44: RESET puts every piece of block state at its reset value and touches neither
the ports nor anything outside the block. The zero of `running` is the model's (log 9). -/
def Obligations.ResetCommandRestoresResetValues : Prop :=
  encode .reset = 0x00000001#32 ∧
  ∀ s : State, ∃ b : Block, exec .reset s = .next { s with block := b } ∧
    statusWord b.status = 0x00000000#32 ∧ b.arg0 = 0#32 ∧ b.arg1 = 0#32 ∧ b.result0 = 0#32 ∧ b.result1 = 0#32 ∧
    b.cwreg = 0#256 ∧ b.heap = [] ∧ (∀ c : Byte, freqAt b.freq c = 0#32) ∧ b.nTotal = 0#32 ∧ b.nodes = [] ∧
    b.root = 0x1FF#9 ∧ (∀ c : Byte, codeAt b.code c = { len := 0#8, cw := 0#256 }) ∧
    bitCursorWord b = 0x00000000#32 ∧ treeInfoWord b = 0x000001FF#32 ∧ b.inCount = 0#64 ∧ b.outCount = 0#64 ∧
    b = State.reset.block

/-! ### min_heap_priority_queue -/

/-- 40_priority_queue.md R137, R130, R136: a legal PQ_INSERT into a queue that is not full leaves a queue in heap order
that holds the old elements and the new one; an illegal payload raises BAD_ARGUMENT first, and a full queue raises
QUEUE_OVERFLOW, with nothing but STATUS changed. -/
def Obligations.PqInsertAddsOneElement : Prop :=
  encode .pqInsert = 0x00000010#32 ∧
  (∀ s : State, heapOrdered s.block.heap → s.block.heap.length < s.params.heapCap →
    s.block.running.a1.toNat ≤ 0x1FF →
    ∃ h, exec .pqInsert s = .next (returned s { s.block with heap := h }) ∧
      h.Perm ({ key := s.block.running.a0, payload := s.block.running.a1.extractLsb' 0 9 } :: s.block.heap) ∧
      heapOrdered h) ∧
  (∀ s : State, 0x1FF < s.block.running.a1.toNat →
    exec .pqInsert s = .next (raisedAtOnce s .badArgument)) ∧
  ∀ s : State, s.block.running.a1.toNat ≤ 0x1FF → s.params.heapCap ≤ s.block.heap.length →
    exec .pqInsert s = .next (raisedAtOnce s .queueOverflow)

/-- 40_priority_queue.md R138, R142, R130: PQ_EXTRACT_MIN returns the root, whose key is a minimum of the keys held, and
leaves a queue in heap order that holds the others; on an empty queue it raises QUEUE_UNDERFLOW with nothing but STATUS
changed. -/
def Obligations.PqExtractReturnsTheMinimum : Prop :=
  encode .pqExtractMin = 0x00000011#32 ∧
  (∀ s : State, heapOrdered s.block.heap → s.block.heap ≠ [] →
    ∃ e h, exec .pqExtractMin s =
        .next (returned s { s.block with heap := h, result0 := e.key, result1 := e.payload.setWidth 32 }) ∧
      s.block.heap.head? = some e ∧ (∀ x ∈ s.block.heap, e.key.toNat ≤ x.key.toNat) ∧
      (e :: h).Perm s.block.heap ∧ heapOrdered h) ∧
  ∀ s : State, s.block.heap = [] → exec .pqExtractMin s = .next (raisedAtOnce s .queueUnderflow)

/-- 40_priority_queue.md R132, R133, R134, R135: no two elements with equal keys are ever swapped, at any level of any
queue. PQ_INSERT moves the new element up from the next free slot past exactly the ancestors with a strictly larger key,
each of which comes down one level; nothing else moves. PQ_EXTRACT_MIN moves the last element down from the root past
exactly the children of strictly smaller keys, each of which comes up one level, and of two children with equal keys it
is the left one; nothing else moves. So a new element whose key is not below its parent's stays where it is, the last
element stays at the root when no child's key is strictly smaller, and of two equal smaller children of the root the
left one becomes the root. -/
def Obligations.EqualKeysAreNeverSwapped : Prop :=
  (∀ s : State, s.block.heap.length < s.params.heapCap → s.block.running.a1.toNat ≤ 0x1FF →
    ∃ (h : List Elem) (m : Nat), exec .pqInsert s = .next (returned s { s.block with heap := h }) ∧
      h.length = s.block.heap.length + 1 ∧
      (∀ k < m, ancestor k s.block.heap.length ≠ 0 ∧
        s.block.running.a0 < (heapAt s.block.heap (ancestor (k + 1) s.block.heap.length)).key ∧
        h[ancestor k s.block.heap.length]? = s.block.heap[ancestor (k + 1) s.block.heap.length]?) ∧
      h[ancestor m s.block.heap.length]? =
        some { key := s.block.running.a0, payload := s.block.running.a1.extractLsb' 0 9 } ∧
      (ancestor m s.block.heap.length ≠ 0 →
        (heapAt s.block.heap (ancestor (m + 1) s.block.heap.length)).key ≤ s.block.running.a0) ∧
      ∀ i < s.block.heap.length, (∀ k ≤ m, i ≠ ancestor k s.block.heap.length) → h[i]? = s.block.heap[i]?) ∧
  (∀ (s : State) (root last : Elem) (rest : List Elem), s.block.heap = root :: (rest ++ [last]) →
    ∃ (h : List Elem) (path : Nat → Nat) (m : Nat),
      exec .pqExtractMin s =
        .next
          (returned s { s.block with heap := h, result0 := root.key, result1 := root.payload.setWidth 32 }) ∧
      h.length = rest.length + 1 ∧ path 0 = 0 ∧
      (∀ k < m, givesWay (last :: rest) last.key (path k) (path (k + 1)) ∧
        h[path k]? = (last :: rest)[path (k + 1)]?) ∧
      h[path m]? = some last ∧
      (∀ c < rest.length + 1, c = 2 * path m + 1 ∨ c = 2 * path m + 2 →
        last.key ≤ (heapAt (last :: rest) c).key) ∧
      ∀ i < rest.length + 1, (∀ k ≤ m, i ≠ path k) → h[i]? = (last :: rest)[i]?) ∧
  (∀ s : State, s.block.heap.length < s.params.heapCap → s.block.running.a1.toNat ≤ 0x1FF →
    (∀ x, s.block.heap[(s.block.heap.length - 1) / 2]? = some x → x.key ≤ s.block.running.a0) →
    exec .pqInsert s =
      .next
        (returned s
          { s.block with
            heap := s.block.heap ++
              [{ key := s.block.running.a0, payload := s.block.running.a1.extractLsb' 0 9 }] })) ∧
  (∀ (s : State) (root last : Elem) (rest : List Elem),
    s.block.heap = root :: (rest ++ [last]) → (∀ x ∈ rest.take 2, last.key ≤ x.key) →
    exec .pqExtractMin s =
      .next
        (returned s
          { s.block with
            heap := last :: rest, result0 := root.key, result1 := root.payload.setWidth 32 })) ∧
  ∀ (s : State) (root left right last : Elem) (mid : List Elem),
    s.block.heap = root :: left :: right :: (mid ++ [last]) → left.key = right.key → left.key < last.key →
    ∃ h, exec .pqExtractMin s =
        .next
          (returned s { s.block with heap := h, result0 := root.key, result1 := root.payload.setWidth 32 }) ∧
      h[0]? = some left ∧ h[2]? = some right

/-- 40_priority_queue.md R139, R140: PQ_SIZE writes heap_size, the value the PQ_SIZE register shows, to RESULT0 and nothing
else; PQ_CLEAR empties the queue and changes nothing else. -/
def Obligations.PqSizeAndPqClear : Prop :=
  encode .pqSize = 0x00000012#32 ∧ encode .pqClear = 0x00000013#32 ∧
  (∀ s : State,
    exec .pqSize s = .next (returned s { s.block with result0 := BitVec.ofNat 32 s.block.heap.length }) ∧
      (s.block.heap.length ≤ 65535 → pqSizeWord s.block = BitVec.ofNat 32 s.block.heap.length)) ∧
  ∀ s : State, exec .pqClear s = .next (returned s { s.block with heap := [] })

/-- 40_priority_queue.md R141: PQ_PEEK reads the live slot ARG0 and changes nothing but the results; any other index
raises BAD_ARGUMENT. -/
def Obligations.PqPeekReadsALiveSlot : Prop :=
  encode .pqPeek = 0x00000014#32 ∧
  (∀ (s : State) (e : Elem), s.block.heap[s.block.running.a0.toNat]? = some e →
    exec .pqPeek s =
      .next (returned s { s.block with result0 := e.key, result1 := e.payload.setWidth 32 })) ∧
  ∀ s : State, s.block.heap.length ≤ s.block.running.a0.toNat →
    exec .pqPeek s = .next (raisedAtOnce s .badArgument)

/-! ### huffman_tree_builder and the frequency table -/

/-- 41_tree_builder.md R161: FREQ_CLEAR zeroes every count and n_total, and changes nothing else. -/
def Obligations.FreqClearZeroesTheCounts : Prop :=
  encode .freqClear = 0x00000020#32 ∧
  ∀ s : State, ∃ f,
    exec .freqClear s = .next (returned s { s.block with freq := f, nTotal := 0#32 }) ∧
    ∀ c : Byte, freqAt f c = 0#32

/-- 41_tree_builder.md R162: FREQ_COUNT adds 1 to one count, modulo 2^32, and to n_total; BAD_ARGUMENT comes first, then
INPUT_TOO_LONG, each with nothing but STATUS changed. -/
def Obligations.FreqCountCountsOneByte : Prop :=
  encode .freqCount = 0x00000021#32 ∧
  (∀ (s : State) (b : Byte), s.block.running.a0.toNat = b.toNat → s.block.nTotal.toNat < 0x7FFFFFFF →
    ∃ f, exec .freqCount s =
        .next (returned s { s.block with freq := f, nTotal := s.block.nTotal + 1#32 }) ∧
      (freqAt f b).toNat = ((freqAt s.block.freq b).toNat + 1) % 2 ^ 32 ∧
      ∀ c : Byte, c ≠ b → freqAt f c = freqAt s.block.freq c) ∧
  (∀ s : State, 0xFF < s.block.running.a0.toNat →
    exec .freqCount s = .next (raisedAtOnce s .badArgument)) ∧
  ∀ s : State, s.block.running.a0.toNat ≤ 0xFF → 0x7FFFFFFF ≤ s.block.nTotal.toNat →
    exec .freqCount s = .next (raisedAtOnce s .inputTooLong)

/-- 41_tree_builder.md R164: a count of 0x80000000 or more, or a sum above MAX_TOTAL, makes TREE_BUILD raise
FORMAT_ERROR with nothing but STATUS changed. -/
def Obligations.TreeBuildRejectsBadCounts : Prop :=
  ∀ s : State,
    ((∃ b : Byte, 0x80000000 ≤ (freqAt s.block.freq b).toNat) ∨
      0x7FFFFFFF < (allBytes.map fun b => (freqAt s.block.freq b).toNat).sum) →
    exec .treeBuild s = .next (raisedAtOnce s .formatError)

/-- 41_tree_builder.md R170, R172: on valid counts TREE_BUILD completes: n_total is the sum of the counts, the queue is
empty, the tree has the shape of R172 over the symbols in ascending byte order, RESULT0 is their number and RESULT1 the
root; nothing else changes. -/
def Obligations.TreeBuildMakesAFullTree : Prop :=
  encode .treeBuild = 0x00000022#32 ∧
  ∀ s : State, 256 ≤ s.params.heapCap → countsValid s.block.freq →
    ∃ ns root,
      exec .treeBuild s =
        .next
          (returned s
            { s.block with
              nTotal := BitVec.ofNat 32 (allBytes.map fun b => (freqAt s.block.freq b).toNat).sum
              heap := [], nodes := ns, root := root
              result0 := BitVec.ofNat 32 (symbolsOf s.block.freq).length, result1 := root.setWidth 32 }) ∧
      treeShape (symbolsOf s.block.freq) ns root

/-- 41_tree_builder.md R169: the tree is a function of the 256 counts alone: whatever else two machines hold, their
queue capacities included, equal counts give equal trees. -/
def Obligations.TreeDependsOnTheCountsAlone : Prop :=
  ∀ s1 s2 t1 t2 : State,
    256 ≤ s1.params.heapCap → 256 ≤ s2.params.heapCap → s1.block.freq = s2.block.freq →
    countsValid s1.block.freq → exec .treeBuild s1 = .next t1 → exec .treeBuild s2 = .next t2 →
    t1.block.nodes = t2.block.nodes ∧ t1.block.root = t2.block.root

/-- 41_tree_builder.md R167, R174: every merge takes the two elements of smallest weight among the nodes made so far that
have no parent yet, the lighter one as the left child; a node's weight is the sum of the counts of the leaves below it,
and with two symbols or more the root's weight is n_total. -/
def Obligations.TreeMergesTheTwoSmallestWeights : Prop :=
  ∀ s : State, 256 ≤ s.params.heapCap → countsValid s.block.freq →
    ∃ t, exec .treeBuild s = .next t ∧
      (∀ (i : Nat) (l r : NodeIdx), t.block.nodes[i]? = some (.internal l r) → r ≠ Config.nil →
        l ≠ r ∧ weightAt t.block.freq t.block.nodes l.toNat ≤ weightAt t.block.freq t.block.nodes r.toNat ∧
        ∀ j < i, j ≠ l.toNat → j ≠ r.toNat →
          (∀ k < i, ∀ l' r' : NodeIdx, t.block.nodes[k]? = some (.internal l' r') → j ≠ l'.toNat ∧ j ≠ r'.toNat) →
          weightAt t.block.freq t.block.nodes r.toNat ≤ weightAt t.block.freq t.block.nodes j) ∧
      (2 ≤ (symbolsOf s.block.freq).length →
        weightAt t.block.freq t.block.nodes t.block.root.toNat = t.block.nTotal.toNat)

/-- 41_tree_builder.md R171, 30_encoding.md R106: TREE_READ returns the node word of the live node ARG0 and changes
nothing but RESULT0; any other index raises BAD_ARGUMENT. -/
def Obligations.TreeReadReturnsTheNodeWord : Prop :=
  encode .treeRead = 0x00000023#32 ∧
  (∀ (s : State) (nd : Node), s.block.nodes[s.block.running.a0.toNat]? = some nd →
    ∃ v : Word, exec .treeRead s = .next (returned s { s.block with result0 := v }) ∧
      (∀ b, nd = .leaf b → v.toNat = b.toNat) ∧
      ∀ l r, nd = .internal l r → v.toNat = 2 ^ 31 + r.toNat * 2 ^ 16 + l.toNat) ∧
  ∀ s : State, s.block.nodes.length ≤ s.block.running.a0.toNat →
    exec .treeRead s = .next (raisedAtOnce s .badArgument)

/-! ### code_table_rom_lookup -/

/-- 42_code_table.md R191, R192: on a tree TreeBuild can have left, CODE_GEN completes: an entry with a codeword holds
the path from the root to its byte's leaf, an entry without one is zero and its byte has no leaf below the root, RESULT0
counts the codewords and RESULT1 is the largest length; nothing else changes. -/
def Obligations.CodeGenRecordsThePathToEachLeaf : Prop :=
  encode .codeGen = 0x00000030#32 ∧
  ∀ s : State, treeLegal s.block.nodes s.block.root →
    ∃ c n m,
      exec .codeGen s =
        .next (returned s { s.block with code := c, result0 := BitVec.ofNat 32 n, result1 := BitVec.ofNat 32 m }) ∧
      n = (allBytes.filter fun b => (codeAt c b).len != 0#8).length ∧
      (∀ b : Byte, (codeAt c b).len.toNat ≤ m) ∧ (m = 0 ∨ ∃ b : Byte, (codeAt c b).len.toNat = m) ∧
      ∀ b : Byte,
        ((codeAt c b).len ≠ 0#8 →
          ∃ j, walkPath s.block.nodes s.block.root (codewordBits (codeAt c b)) = some j ∧
            s.block.nodes[j.toNat]? = some (.leaf b)) ∧
        ((codeAt c b).len = 0#8 →
          (codeAt c b).cw = 0#256 ∧
          (s.block.root ≠ Config.nil → ∀ p j, walkPath s.block.nodes s.block.root p = some j →
            s.block.nodes[j.toNat]? ≠ some (.leaf b)))

/-- 42_code_table.md R196: after TREE_BUILD and CODE_GEN a byte has a codeword exactly when its count was nonzero, and
the codeword has 1 to n - 1 bits for n ≥ 2 symbols and 1 bit for one symbol. -/
def Obligations.CodeLengthsAreBounded : Prop :=
  ∀ s : State, 256 ≤ s.params.heapCap → countsValid s.block.freq →
    ∃ t u, exec .treeBuild s = .next t ∧ exec .codeGen t = .next u ∧
      ∀ b : Byte,
        (1 ≤ (codeAt u.block.code b).len.toNat ↔ freqAt s.block.freq b ≠ 0#32) ∧
        (2 ≤ (symbolsOf s.block.freq).length →
          (codeAt u.block.code b).len.toNat ≤ (symbolsOf s.block.freq).length - 1) ∧
        ((symbolsOf s.block.freq).length = 1 → (codeAt u.block.code b).len.toNat ≤ 1)

/-- 42_code_table.md R195: after TREE_BUILD and CODE_GEN no codeword is a prefix of another byte's codeword. -/
def Obligations.CodewordsArePrefixFree : Prop :=
  ∀ s t u : State, 256 ≤ s.params.heapCap → countsValid s.block.freq →
    exec .treeBuild s = .next t → exec .codeGen t = .next u →
    ∀ b c : Byte, b ≠ c → freqAt s.block.freq b ≠ 0#32 → freqAt s.block.freq c ≠ 0#32 →
      ¬ (codewordBits (codeAt u.block.code b)).IsPrefix (codewordBits (codeAt u.block.code c))

/-- 42_code_table.md R193: CODE_LOOKUP returns the length and the codeword of the byte ARG0 and changes nothing else; for a
byte without a codeword, in a code table whose entries have no bit at or above their length (10_state.md R38), both are
0; an argument above 0xFF raises BAD_ARGUMENT. -/
def Obligations.CodeLookupReturnsTheEntry : Prop :=
  encode .codeLookup = 0x00000031#32 ∧
  (∀ (s : State) (b : Byte), s.block.running.a0.toNat = b.toNat →
    exec .codeLookup s =
      .next
        (returned s
          { s.block with
            result0 := (codeAt s.block.code b).len.setWidth 32, cwreg := (codeAt s.block.code b).cw })) ∧
  (∀ (s : State) (b : Byte), codeLegal s.block.code → s.block.running.a0.toNat = b.toNat →
    (codeAt s.block.code b).len = 0#8 →
    exec .codeLookup s = .next (returned s { s.block with result0 := 0#32, cwreg := 0#256 })) ∧
  ∀ s : State, 0xFF < s.block.running.a0.toNat →
    exec .codeLookup s = .next (raisedAtOnce s .badArgument)

/-! ### bit_stream_io -/

/-- 43_bit_stream_io.md R211, R218: BW_WRITE_BIT puts the bit below the buffered ones; the eighth bit of a byte emits
it; an argument above 1 raises BAD_ARGUMENT with nothing written. -/
def Obligations.BwWriteBitBuffersOrEmits : Prop :=
  encode .bwWriteBit = 0x00000040#32 ∧
  (∀ s : State, s.block.running.a0.toNat ≤ 1 → s.block.writer.off.val < 7 →
    ∃ w : Writer, exec .bwWriteBit s = .next (returned s { s.block with writer := w }) ∧
      w.off.val = s.block.writer.off.val + 1 ∧
      pendingBits w = pendingBits s.block.writer ++ [s.block.running.a0.getLsbD 0]) ∧
  (∀ s : State, s.block.running.a0.toNat ≤ 1 → s.block.writer.off.val = 7 →
    ∃ x : Byte,
      exec .bwWriteBit s =
        .next
          { returned s { s.block with writer := Writer.reset, outCount := s.block.outCount + 1#64 } with
            portlog := s.portlog ++ [.snkByte x] } ∧
      byteBits x = pendingBits s.block.writer ++ [s.block.running.a0.getLsbD 0]) ∧
  ∀ s : State, 1 < s.block.running.a0.toNat → exec .bwWriteBit s = .next (raisedAtOnce s .badArgument)

/-- 43_bit_stream_io.md R212, R219, R224: BW_WRITE_U32 emits four bytes and leaves as many bits buffered as before; the
bytes and what is left are the buffered bits followed by v[31], ..., v[0]; from an aligned writer the bytes are
v[31:24], v[23:16], v[15:8], v[7:0]. -/
def Obligations.BwWriteU32WritesThirtyTwoBits : Prop :=
  encode .bwWriteU32 = 0x00000041#32 ∧
  ∀ s : State, ∃ (bytes : List Byte) (w : Writer),
    exec .bwWriteU32 s =
      .next
        { returned s { s.block with writer := w, outCount := s.block.outCount + 4#64 } with
          portlog := s.portlog ++ bytes.map .snkByte } ∧
    bytes.length = 4 ∧ w.off = s.block.writer.off ∧
    bytes.flatMap byteBits ++ pendingBits w = pendingBits s.block.writer ++ bitsDown s.block.running.a0 32 ∧
    (s.block.writer.off = 0 → bytes = bigEndian s.block.running.a0 ∧ w = Writer.reset)

/-- 43_bit_stream_io.md R213, R220: BW_FLUSH emits the partly filled byte, if there is one, its low bits 0 in a legal
writer, and leaves the writer aligned; an aligned writer emits nothing. -/
def Obligations.BwFlushPadsToAByte : Prop :=
  encode .bwFlush = 0x00000042#32 ∧
  (∀ s : State, s.block.writer.off = 0 → exec .bwFlush s = .next (returned s s.block)) ∧
  ∀ s : State, s.block.writer.off ≠ 0 → writerLegal s.block.writer →
    ∃ x : Byte,
      exec .bwFlush s =
        .next
          { returned s { s.block with writer := Writer.reset, outCount := s.block.outCount + 1#64 } with
            portlog := s.portlog ++ [.snkByte x] } ∧
      byteBits x = pendingBits s.block.writer ++ List.replicate (8 - s.block.writer.off.val) false

/-- 43_bit_stream_io.md R215, R221: BR_READ_BIT takes bit 7 - rd_off of the byte there is, or fetches one and takes its
bit 7; after bit 0 the byte is spent; at the end of the source it raises STREAM_TRUNCATED with RESULT0 and the reader
unchanged. -/
def Obligations.BrReadBitTakesTheNextBit : Prop :=
  encode .brReadBit = 0x00000048#32 ∧
  (∀ s : State, s.block.reader.valid = true →
    exec .brReadBit s =
      .next
        (returned s
          { s.block with
            result0 := if s.block.reader.buf.getLsbD (7 - s.block.reader.off.val) then 1#32 else 0#32
            reader :=
              if s.block.reader.off = 7 then { buf := s.block.reader.buf, off := 0, valid := false }
              else { buf := s.block.reader.buf, off := s.block.reader.off + 1, valid := true } })) ∧
  (∀ (s : State) (x : Byte), s.block.reader.valid = false → s.src[s.srcPos]? = some x →
    exec .brReadBit s =
      .next
        { returned s
            { s.block with
              result0 := if x.getLsbD 7 then 1#32 else 0#32
              reader := { buf := x, off := 1, valid := true }
              inCount := s.block.inCount + 1#64 } with
          srcPos := s.srcPos + 1
          portlog := s.portlog ++ [.srcByte x] }) ∧
  ∀ s : State, s.block.reader.valid = false → s.src.length ≤ s.srcPos →
    exec .brReadBit s = .next { raisedAtOnce s .streamTruncated with portlog := s.portlog ++ [.srcEOF] }

/-- 43_bit_stream_io.md R216, R222, R224: BR_READ_U32 takes the next 32 bits from any reader, aligned or not, the first
one as v[31]; when the source runs out partway it raises STREAM_TRUNCATED with RESULT0 unchanged and the bits so far
consumed. On an aligned reader with four bytes left it fetches exactly those four and returns their big-endian value;
with fewer than four left every byte is consumed. -/
def Obligations.BrReadU32ReadsABigEndianWord : Prop :=
  encode .brReadU32 = 0x00000049#32 ∧
  (∀ (s u : State) (bits : List Bool), readBitList 32 s = .ok bits u →
    ∃ v : Word,
      exec .brReadU32 s =
        .next { returned s { u.block with result0 := v } with srcPos := u.srcPos, portlog := u.portlog } ∧
      bitsDown v 32 = bits) ∧
  (∀ (s u : State) (e : ErrCode), readBitList 32 s = .err e u →
    e = .streamTruncated ∧
    exec .brReadU32 s =
      .next
        { raisedAtOnce { s with block := u.block } .streamTruncated with srcPos := u.srcPos, portlog := u.portlog }) ∧
  (∀ (s : State) (x0 x1 x2 x3 : Byte) (more : List Byte),
    s.block.reader.valid = false → s.src.drop s.srcPos = x0 :: x1 :: x2 :: x3 :: more →
    ∃ v : Word,
      exec .brReadU32 s =
        .next
          { returned s
              { s.block with
                result0 := v, reader := { buf := x3, off := 0, valid := false }
                inCount := s.block.inCount + 4#64 } with
            srcPos := s.srcPos + 4
            portlog := s.portlog ++ [.srcByte x0, .srcByte x1, .srcByte x2, .srcByte x3] } ∧
      v.toNat = x0.toNat * 2 ^ 24 + x1.toNat * 2 ^ 16 + x2.toNat * 2 ^ 8 + x3.toNat) ∧
  ∀ (s : State) (left : List Byte),
    s.block.reader.valid = false → s.block.reader.off = 0 → s.src.drop s.srcPos = left → left.length < 4 →
    ∃ buf : Byte,
      exec .brReadU32 s =
        .next
          { raisedAtOnce
              { s with
                block :=
                  { s.block with
                    reader := { buf := buf, off := 0, valid := false }
                    inCount := s.block.inCount + BitVec.ofNat 64 left.length } }
              .streamTruncated with
            srcPos := s.srcPos + left.length
            portlog := s.portlog ++ left.map .srcByte ++ [.srcEOF] } ∧
      buf = left.getLastD s.block.reader.buf

/-- 43_bit_stream_io.md R217, R223: BR_ALIGN drops the unread bits of the current byte, fetches nothing, and changes
nothing else. -/
def Obligations.BrAlignDropsUnreadBits : Prop :=
  encode .brAlign = 0x0000004A#32 ∧
  ∀ s : State,
    exec .brAlign s =
      .next (returned s { s.block with reader := { buf := s.block.reader.buf, off := 0, valid := false } })

/-- 43_bit_stream_io.md R225: bits written from an aligned writer and flushed are ⌈n/8⌉ bytes, and an aligned reader on
those bytes returns the bits, followed by (8 - n mod 8) mod 8 zero bits. -/
def Obligations.BitStreamRoundTrip : Prop :=
  ∀ (bits : List Bool) (s r : State),
    s.block.writer = Writer.reset → r.block.reader.valid = false → r.srcPos = 0 →
    ∃ bytes : List Byte,
      (flushBits (writeBits bits s)).portlog = s.portlog ++ bytes.map .snkByte ∧
      bytes.length = (bits.length + 7) / 8 ∧
      (r.src = bytes →
        ∃ r1 r2, readBitList bits.length r = .ok bits r1 ∧
          readBitList ((8 - bits.length % 8) % 8) r1 =
            .ok (List.replicate ((8 - bits.length % 8) % 8) false) r2)

/-! ### huffman_encoder_fsm -/

/-- 44_encoder_fsm.md R247, R250: on every source of at most MAX_TOTAL bytes ENCODE completes without an error: the
counts and n_total are those of the source, the queue is empty, the tree is the one TreeBuild makes of the counts and the
code table the one CodeGen makes of that tree, the writer is aligned, in_count is twice the length, RESULT0 the length;
the reader, ARG0, ARG1 and cwreg, and everything outside the block and the ports, are unchanged. -/
def Obligations.EncodeCompletesOnEveryLegalSource : Prop :=
  encode .encode = 0x00000050#32 ∧
  ∀ s : State, 256 ≤ s.params.heapCap → s.src.length ≤ 0x7FFFFFFF →
    ∃ t, exec .encode s = .next t ∧
      t.block.status = { s.block.status with phase := .idle, busy := false } ∧
      countsOf s.src t.block.freq ∧ t.block.nTotal = BitVec.ofNat 32 s.src.length ∧ t.block.heap = [] ∧
      treeShape (symbolsOf t.block.freq) t.block.nodes t.block.root ∧
      (t.block.nodes, t.block.root) = treeOf t.block.freq ∧
      t.block.code = codeTableOf t.block.nodes t.block.root ∧ t.block.writer = Writer.reset ∧
      t.block.inCount = BitVec.ofNat 64 (2 * s.src.length) ∧
      t.block.result0 = BitVec.ofNat 32 s.src.length ∧ t.srcPos = s.src.length ∧
      t.block.reader = s.block.reader ∧ t.block.arg0 = s.block.arg0 ∧ t.block.arg1 = s.block.arg1 ∧
      t.block.cwreg = s.block.cwreg ∧ surroundingsSame s t

/-- 44_encoder_fsm.md R242, R247, 60_exceptions.md R306: a source of more than MAX_TOTAL bytes makes ENCODE raise
INPUT_TOO_LONG in phase COUNT: the first 2^31 bytes are fetched, no byte is emitted, the streams are closed, n_total stands
at MAX_TOTAL, and the results, the tree, the code table and the queue are unchanged. -/
def Obligations.EncodeRejectsATooLongSource : Prop :=
  ∀ s : State, 0x7FFFFFFF < s.src.length →
    ∃ t, exec .encode s = .next t ∧
      t.block.status = { s.block.status with err := true, errCode := .inputTooLong, phase := .count, busy := false } ∧
      t.portlog =
        s.portlog ++ [PortEvent.srcRewind] ++ (s.src.take 0x80000000).map PortEvent.srcByte ++
          [PortEvent.snkClose, .srcRelease] ∧
      t.srcPos = 0x80000000 ∧ t.block.nTotal = 0x7FFFFFFF#32 ∧ t.block.inCount = 0x80000000#64 ∧
      t.block.outCount = 0#64 ∧ t.block.result0 = s.block.result0 ∧ t.block.result1 = s.block.result1 ∧
      t.block.nodes = s.block.nodes ∧ t.block.root = s.block.root ∧ t.block.code = s.block.code ∧
      t.block.heap = s.block.heap ∧ t.block.writer = Writer.reset ∧ countsOf (s.src.take 0x7FFFFFFF) t.block.freq

/-- 44_encoder_fsm.md R248, 20_memory.md R89: the sink receives the 1024 header bytes, the counts in byte order, each
big-endian, and then the payload: 1024 + ⌈P/8⌉ bytes in all, with P the sum of freq[b]·code[b].len, which out_count shows,
followed by one SnkClose; RESULT1 is the number of padding bits. -/
def Obligations.EncodeOutputHasTheStatedSize : Prop :=
  ∀ s t : State, 256 ≤ s.params.heapCap → s.src.length ≤ 0x7FFFFFFF → exec .encode s = .next t →
    ∃ payload : List Byte,
      sinkBytes (newEvents s t) = headerBytes t.block.freq ++ payload ∧
      (headerBytes t.block.freq).length = 1024 ∧
      payload.length = (countedPayloadBits t.block.freq t.block.code + 7) / 8 ∧
      t.block.outCount = BitVec.ofNat 64 (1024 + payload.length) ∧
      t.block.result1 = BitVec.ofNat 32 ((8 - countedPayloadBits t.block.freq t.block.code % 8) % 8) ∧
      ∃ evs, newEvents s t = evs ++ [.snkClose, .srcRelease] ∧ PortEvent.snkClose ∉ evs

/-- 20_memory.md R89, 42_code_table.md R194: the payload is the codewords of the source bytes in order, MSB-first, and its
last byte is padded with zero bits; their number is the sum of freq[b]·code[b].len. -/
def Obligations.EncodePayloadIsTheCodewordsInOrder : Prop :=
  ∀ s t : State, 256 ≤ s.params.heapCap → s.src.length ≤ 0x7FFFFFFF → exec .encode s = .next t →
    ((sinkBytes (newEvents s t)).drop 1024).flatMap byteBits =
      (s.src.flatMap fun b => codewordBits (codeAt t.block.code b)) ++
        List.replicate ((8 - payloadBits t.block.code s.src % 8) % 8) false ∧
    payloadBits t.block.code s.src = countedPayloadBits t.block.freq t.block.code

/-- 44_encoder_fsm.md R249: the port events of ENCODE, and so its output bytes, are a function of src_bytes alone, and
the 256 counts it stores sum to the length of the source. -/
def Obligations.EncodeDependsOnTheSourceAlone : Prop :=
  ∀ s1 s2 t1 t2 : State,
    256 ≤ s1.params.heapCap → 256 ≤ s2.params.heapCap → s1.src = s2.src → s1.src.length ≤ 0x7FFFFFFF →
    exec .encode s1 = .next t1 → exec .encode s2 = .next t2 →
    newEvents s1 t1 = newEvents s2 t2 ∧
      (allBytes.map fun b => (freqAt t1.block.freq b).toNat).sum = s1.src.length

/-! ### huffman_decoder_fsm -/

/-- 45_decoder_fsm.md R262: a source shorter than 1024 bytes makes DECODE raise FORMAT_ERROR in phase HEADER_READ, after
every byte of it is fetched, with nothing emitted and the streams closed. -/
def Obligations.DecodeRejectsAShortHeader : Prop :=
  ∀ s : State, s.src.length < 1024 →
    ∃ t, exec .decode s = .next t ∧
      t.block.status =
        { s.block.status with err := true, errCode := .formatError, phase := .headerRead, busy := false } ∧
      t.portlog =
        s.portlog ++ [PortEvent.srcRewind] ++ s.src.map PortEvent.srcByte ++
          [PortEvent.srcEOF, .snkClose, .srcRelease] ∧
      t.block.result0 = 0#32 ∧ t.block.nTotal = 0#32 ∧ t.block.inCount = BitVec.ofNat 64 s.src.length ∧
      t.block.outCount = 0#64 ∧ t.block.nodes = s.block.nodes ∧ t.block.root = s.block.root

/-- 45_decoder_fsm.md R263: a header whose counts Validate rejects makes DECODE raise FORMAT_ERROR in phase BUILD, with
n_total 0, the tree and the queue unchanged, nothing emitted and the streams closed. -/
def Obligations.DecodeRejectsBadCounts : Prop :=
  ∀ (s : State) (f : Vector Word 256) (rest : List Byte),
    s.src = headerBytes f ++ rest → ¬ countsValid f →
    ∃ t, exec .decode s = .next t ∧
      t.block.status = { s.block.status with err := true, errCode := .formatError, phase := .build, busy := false } ∧
      t.portlog =
        s.portlog ++ [PortEvent.srcRewind] ++ (headerBytes f).map PortEvent.srcByte ++
          [PortEvent.snkClose, .srcRelease] ∧
      t.block.freq = f ∧ t.block.result0 = 0#32 ∧ t.block.nTotal = 0#32 ∧ t.block.nodes = s.block.nodes ∧
      t.block.root = s.block.root ∧ t.block.heap = s.block.heap

/-- 45_decoder_fsm.md R264, R266, 60_exceptions.md R303, R306: with a valid header and a payload that runs out before the
last symbol (the codewords of fewer bytes than the counts sum to, then bits that lead from the root to an internal node),
DECODE raises STREAM_TRUNCATED in phase WALK: the sink has the bytes before, RESULT0 is their number, the whole source
is fetched, and the streams are closed. An empty payload is the case of no byte. -/
def Obligations.DecodeWithoutPayloadIsTruncated : Prop :=
  ∀ (s : State) (f : Vector Word 256) (payload xs : List Byte) (p : List Bool) (j l r : NodeIdx),
    256 ≤ s.params.heapCap → s.src = headerBytes f ++ payload → countsValid f →
    (∀ b ∈ xs, freqAt f b ≠ 0#32) → xs.length < freqSum f →
    payload.flatMap byteBits = codewordsOf (codeOf f) xs ++ p →
    walkPath (treeOf f).1 (treeOf f).2 p = some j → (treeOf f).1[j.toNat]? = some (.internal l r) →
    ∃ t evs, exec .decode s = .next t ∧
      t.block.status = { s.block.status with err := true, errCode := .streamTruncated, phase := .walk, busy := false } ∧
      t.portlog =
        s.portlog ++ [PortEvent.srcRewind] ++ (headerBytes f).map PortEvent.srcByte ++ evs ++
          [PortEvent.srcEOF, .snkClose, .srcRelease] ∧
      (∀ e ∈ evs, byteEvent e) ∧ sinkBytes evs = xs ∧ sourceBytes evs = payload ∧ t.srcPos = s.src.length ∧
      t.block.result0 = BitVec.ofNat 32 xs.length ∧ t.block.outCount = BitVec.ofNat 64 xs.length ∧
      t.block.inCount = BitVec.ofNat 64 s.src.length ∧ t.block.freq = f ∧
      t.block.nTotal = BitVec.ofNat 32 (freqSum f) ∧ (t.block.nodes, t.block.root) = treeOf f ∧
      treeShape (symbolsOf f) t.block.nodes t.block.root ∧ t.block.reader.valid = false

/-- 45_decoder_fsm.md R264, R266, 60_exceptions.md R304 (d), R306: with one distinct symbol, a 1 bit after k zero bits, k
below the count, leads to the wrapper's absent child, and DECODE raises FORMAT_ERROR in phase WALK: the sink has k bytes,
RESULT0 is k, no byte behind that bit's is fetched, and the streams are closed. -/
def Obligations.DecodeRejectsAOneBitAtTheWrapper : Prop :=
  ∀ (s : State) (f : Vector Word 256) (b x : Byte) (payload : List Byte) (k : Nat) (more : List Bool),
    256 ≤ s.params.heapCap → s.src = headerBytes f ++ payload → countsValid f → symbolsOf f = [b] → k < freqSum f →
    payload.flatMap byteBits = List.replicate k false ++ true :: more → payload[k / 8]? = some x →
    ∃ t evs, exec .decode s = .next t ∧
      t.block.status = { s.block.status with err := true, errCode := .formatError, phase := .walk, busy := false } ∧
      t.portlog =
        s.portlog ++ [PortEvent.srcRewind] ++ (headerBytes f).map PortEvent.srcByte ++ evs ++
          [PortEvent.snkClose, .srcRelease] ∧
      (∀ e ∈ evs, byteEvent e) ∧ sinkBytes evs = List.replicate k b ∧ sourceBytes evs = payload.take (k / 8 + 1) ∧
      t.srcPos = 1024 + (k / 8 + 1) ∧ t.block.result0 = BitVec.ofNat 32 k ∧
      t.block.outCount = BitVec.ofNat 64 k ∧ t.block.inCount = BitVec.ofNat 64 (1024 + (k / 8 + 1)) ∧
      t.block.reader.buf = x ∧ t.block.reader.off.val = (k + 1) % 8 ∧
      (t.block.reader.valid = true ↔ k % 8 ≠ 7)

/-- 45_decoder_fsm.md R264, R265, R266: an all-zero header, whatever follows it, decodes to no byte, without an error,
and fetches exactly the 1024 header bytes. -/
def Obligations.DecodeOfAnEmptyHeader : Prop :=
  ∀ (s : State) (rest : List Byte), s.src = List.replicate 1024 0#8 ++ rest →
    ∃ t, exec .decode s = .next t ∧
      t.block.status = { s.block.status with phase := .idle, busy := false } ∧
      t.portlog =
        s.portlog ++ [PortEvent.srcRewind] ++ List.replicate 1024 (PortEvent.srcByte 0#8) ++
          [PortEvent.snkClose, .srcRelease] ∧
      t.srcPos = 1024 ∧ t.block.inCount = 1024#64 ∧ t.block.outCount = 0#64 ∧ t.block.result0 = 0#32 ∧
      t.block.nTotal = 0#32 ∧ t.block.root = Config.nil ∧ t.block.nodes = [] ∧ t.block.reader.valid = false ∧
      t.block.code = s.block.code ∧ t.block.writer = s.block.writer ∧ t.block.cwreg = s.block.cwreg ∧
      t.block.result1 = s.block.result1

/-- 45_decoder_fsm.md R262, R263, R264, R265, R266: a source that is a header of valid counts followed by the codewords of
as many bytes as the counts sum to, and by any further bits, decodes to those bytes without an error: the counts, n_total
and the tree are the header's, the queue is empty, RESULT0 and out_count are the number of bytes, and nothing behind the
last byte that holds a codeword bit is fetched; the code table, the writer, ARG0, ARG1, RESULT1, cwreg and everything
outside the block and the ports are unchanged. With two symbols or more, n of them, any payload of at least n - 1 bits
for each byte is such a source. -/
def Obligations.DecodeCompletesOnAValidStream : Prop :=
  (∀ (s : State) (f : Vector Word 256) (payload xs : List Byte) (pad : List Bool),
    256 ≤ s.params.heapCap → s.src = headerBytes f ++ payload → countsValid f →
    (∀ b ∈ xs, freqAt f b ≠ 0#32) → xs.length = freqSum f →
    payload.flatMap byteBits = codewordsOf (codeOf f) xs ++ pad →
    ∃ t evs, exec .decode s = .next t ∧
      t.block.status = { s.block.status with phase := .idle, busy := false } ∧
      t.portlog =
        s.portlog ++ [PortEvent.srcRewind] ++ (headerBytes f).map PortEvent.srcByte ++ evs ++
          [PortEvent.snkClose, .srcRelease] ∧
      (∀ e ∈ evs, byteEvent e) ∧ sinkBytes evs = xs ∧
      sourceBytes evs = payload.take ((payloadBits (codeOf f) xs + 7) / 8) ∧
      t.srcPos = 1024 + (payloadBits (codeOf f) xs + 7) / 8 ∧
      t.block.inCount = BitVec.ofNat 64 (1024 + (payloadBits (codeOf f) xs + 7) / 8) ∧
      t.block.outCount = BitVec.ofNat 64 xs.length ∧ t.block.result0 = BitVec.ofNat 32 xs.length ∧
      t.block.freq = f ∧ t.block.nTotal = BitVec.ofNat 32 (freqSum f) ∧ t.block.heap = [] ∧
      (t.block.nodes, t.block.root) = treeOf f ∧ treeShape (symbolsOf f) t.block.nodes t.block.root ∧
      t.block.code = s.block.code ∧ t.block.writer = s.block.writer ∧ t.block.arg0 = s.block.arg0 ∧
      t.block.arg1 = s.block.arg1 ∧ t.block.result1 = s.block.result1 ∧ t.block.cwreg = s.block.cwreg ∧
      surroundingsSame s t) ∧
  ∀ (s : State) (f : Vector Word 256) (payload : List Byte),
    256 ≤ s.params.heapCap → s.src = headerBytes f ++ payload → countsValid f → 2 ≤ (symbolsOf f).length →
    freqSum f * ((symbolsOf f).length - 1) ≤ 8 * payload.length →
    ∃ t xs pad, exec .decode s = .next t ∧
      t.block.status = { s.block.status with phase := .idle, busy := false } ∧
      sinkBytes (newEvents s t) = xs ∧ xs.length = freqSum f ∧ t.block.result0 = BitVec.ofNat 32 (freqSum f) ∧
      (∀ b ∈ xs, freqAt f b ≠ 0#32) ∧ payload.flatMap byteBits = codewordsOf (codeOf f) xs ++ pad

/-- 45_decoder_fsm.md R267: for every byte sequence of at most MAX_TOTAL bytes, DECODE of the bytes ENCODE emitted emits
exactly that sequence and raises nothing, in whatever state either command starts. -/
def Obligations.DecodeInvertsEncode : Prop :=
  encode .decode = 0x00000051#32 ∧
  ∀ s t d : State, 256 ≤ s.params.heapCap → 256 ≤ d.params.heapCap → s.src.length ≤ 0x7FFFFFFF →
    exec .encode s = .next t → d.src = sinkBytes (newEvents s t) →
    ∃ u, exec .decode d = .next u ∧
      u.block.status = { d.block.status with phase := .idle, busy := false } ∧
      sinkBytes (newEvents d u) = s.src ∧ u.block.result0 = BitVec.ofNat 32 s.src.length ∧
      u.block.outCount = BitVec.ofNat 64 s.src.length

/-! ### The invariant -/

/-- 10_state.md R44, 70_reset_and_hazards.md R331: the reset state is legal, idle, and a HUFF1 configuration, and it
stays as it is until the host acts. -/
def Obligations.ResetStateIsLegal : Prop :=
  Legal State.reset ∧ State.reset.params.wf = true ∧ State.reset.block.status.busy = false ∧
    step State.reset = .next State.reset

/-- 40_priority_queue.md R130, 10_state.md R21, R26, R35, R36, R38, R39, R40: from every legal machine a step leads to a
legal machine: the queue stays in heap order and within its capacity, n_total within MAX_TOTAL, the tree one that
TreeBuild makes, every codeword within its length, both cursors in their form, and STATUS consistent. -/
def Obligations.EveryStepKeepsTheMachineLegal : Prop :=
  ∀ s t : State, Legal s → step s = .next t → Legal t
end

