-- ==== Sys2Proof/Laws/State.lean ====
section
/-! SUPPORT. One lemma per field per named update of State, true by rfl, so that no proof unfolds a record update. -/

namespace Sys2Proof.Machine

@[simp] theorem setPhase_params (p : Phase) (s : State) : (setPhase p s).params = s.params := rfl
@[simp] theorem setPhase_block (p : Phase) (s : State) :
    (setPhase p s).block =
      { s.block with status := { s.block.status with phase := p } } := rfl
@[simp] theorem setPhase_resetLine (p : Phase) (s : State) : (setPhase p s).resetLine = s.resetLine := rfl
@[simp] theorem setPhase_src (p : Phase) (s : State) : (setPhase p s).src = s.src := rfl
@[simp] theorem setPhase_srcPos (p : Phase) (s : State) : (setPhase p s).srcPos = s.srcPos := rfl
@[simp] theorem setPhase_portlog (p : Phase) (s : State) : (setPhase p s).portlog = s.portlog := rfl
@[simp] theorem setPhase_script (p : Phase) (s : State) : (setPhase p s).script = s.script := rfl
@[simp] theorem setPhase_reads (p : Phase) (s : State) : (setPhase p s).reads = s.reads := rfl
@[simp] theorem setPhase_draws (p : Phase) (s : State) : (setPhase p s).draws = s.draws := rfl

@[simp] theorem accept_params (w : Word) (s : State) : (accept w s).params = s.params := rfl
@[simp] theorem accept_block (w : Word) (s : State) :
    (accept w s).block =
      { s.block with status := s.block.status.accepted w, running := { word := w, a0 := s.block.arg0, a1 := s.block.arg1, emitted := 0#32 } } := rfl
@[simp] theorem accept_resetLine (w : Word) (s : State) : (accept w s).resetLine = s.resetLine := rfl
@[simp] theorem accept_src (w : Word) (s : State) : (accept w s).src = s.src := rfl
@[simp] theorem accept_srcPos (w : Word) (s : State) : (accept w s).srcPos = s.srcPos := rfl
@[simp] theorem accept_portlog (w : Word) (s : State) : (accept w s).portlog = s.portlog := rfl
@[simp] theorem accept_script (w : Word) (s : State) : (accept w s).script = s.script := rfl
@[simp] theorem accept_reads (w : Word) (s : State) : (accept w s).reads = s.reads := rfl
@[simp] theorem accept_draws (w : Word) (s : State) : (accept w s).draws = s.draws := rfl

@[simp] theorem complete_params (s : State) : (complete s).params = s.params := rfl
@[simp] theorem complete_block (s : State) :
    (complete s).block =
      { s.block with status := s.block.status.returned, running := Running.none } := rfl
@[simp] theorem complete_resetLine (s : State) : (complete s).resetLine = s.resetLine := rfl
@[simp] theorem complete_src (s : State) : (complete s).src = s.src := rfl
@[simp] theorem complete_srcPos (s : State) : (complete s).srcPos = s.srcPos := rfl
@[simp] theorem complete_portlog (s : State) : (complete s).portlog = s.portlog := rfl
@[simp] theorem complete_script (s : State) : (complete s).script = s.script := rfl
@[simp] theorem complete_reads (s : State) : (complete s).reads = s.reads := rfl
@[simp] theorem complete_draws (s : State) : (complete s).draws = s.draws := rfl

@[simp] theorem srcRewind_params (s : State) : (srcRewind s).params = s.params := rfl
@[simp] theorem srcRewind_block (s : State) : (srcRewind s).block = s.block := rfl
@[simp] theorem srcRewind_resetLine (s : State) : (srcRewind s).resetLine = s.resetLine := rfl
@[simp] theorem srcRewind_src (s : State) : (srcRewind s).src = s.src := rfl
@[simp] theorem srcRewind_srcPos (s : State) : (srcRewind s).srcPos = 0 := rfl
@[simp] theorem srcRewind_portlog (s : State) : (srcRewind s).portlog = s.portlog ++ [.srcRewind] := rfl
@[simp] theorem srcRewind_script (s : State) : (srcRewind s).script = s.script := rfl
@[simp] theorem srcRewind_reads (s : State) : (srcRewind s).reads = s.reads := rfl
@[simp] theorem srcRewind_draws (s : State) : (srcRewind s).draws = s.draws := rfl

@[simp] theorem srcRelease_params (s : State) : (srcRelease s).params = s.params := rfl
@[simp] theorem srcRelease_block (s : State) : (srcRelease s).block = s.block := rfl
@[simp] theorem srcRelease_resetLine (s : State) : (srcRelease s).resetLine = s.resetLine := rfl
@[simp] theorem srcRelease_src (s : State) : (srcRelease s).src = s.src := rfl
@[simp] theorem srcRelease_srcPos (s : State) : (srcRelease s).srcPos = s.srcPos := rfl
@[simp] theorem srcRelease_portlog (s : State) : (srcRelease s).portlog = s.portlog ++ [.srcRelease] := rfl
@[simp] theorem srcRelease_script (s : State) : (srcRelease s).script = s.script := rfl
@[simp] theorem srcRelease_reads (s : State) : (srcRelease s).reads = s.reads := rfl
@[simp] theorem srcRelease_draws (s : State) : (srcRelease s).draws = s.draws := rfl

@[simp] theorem snkClose_params (s : State) : (snkClose s).params = s.params := rfl
@[simp] theorem snkClose_block (s : State) : (snkClose s).block = s.block := rfl
@[simp] theorem snkClose_resetLine (s : State) : (snkClose s).resetLine = s.resetLine := rfl
@[simp] theorem snkClose_src (s : State) : (snkClose s).src = s.src := rfl
@[simp] theorem snkClose_srcPos (s : State) : (snkClose s).srcPos = s.srcPos := rfl
@[simp] theorem snkClose_portlog (s : State) : (snkClose s).portlog = s.portlog ++ [.snkClose] := rfl
@[simp] theorem snkClose_script (s : State) : (snkClose s).script = s.script := rfl
@[simp] theorem snkClose_reads (s : State) : (snkClose s).reads = s.reads := rfl
@[simp] theorem snkClose_draws (s : State) : (snkClose s).draws = s.draws := rfl

@[simp] theorem snkEmit_params (b : Byte) (s : State) : (snkEmit b s).params = s.params := rfl
@[simp] theorem snkEmit_block (b : Byte) (s : State) :
    (snkEmit b s).block =
      { s.block with outCount := s.block.outCount + 1#64 } := rfl
@[simp] theorem snkEmit_resetLine (b : Byte) (s : State) : (snkEmit b s).resetLine = s.resetLine := rfl
@[simp] theorem snkEmit_src (b : Byte) (s : State) : (snkEmit b s).src = s.src := rfl
@[simp] theorem snkEmit_srcPos (b : Byte) (s : State) : (snkEmit b s).srcPos = s.srcPos := rfl
@[simp] theorem snkEmit_portlog (b : Byte) (s : State) : (snkEmit b s).portlog = s.portlog ++ [.snkByte b] := rfl
@[simp] theorem snkEmit_script (b : Byte) (s : State) : (snkEmit b s).script = s.script := rfl
@[simp] theorem snkEmit_reads (b : Byte) (s : State) : (snkEmit b s).reads = s.reads := rfl
@[simp] theorem snkEmit_draws (b : Byte) (s : State) : (snkEmit b s).draws = s.draws := rfl

@[simp] theorem alignRead_params (s : State) : (alignRead s).params = s.params := rfl
@[simp] theorem alignRead_block (s : State) :
    (alignRead s).block =
      { s.block with reader := { s.block.reader with valid := false, off := 0 } } := rfl
@[simp] theorem alignRead_resetLine (s : State) : (alignRead s).resetLine = s.resetLine := rfl
@[simp] theorem alignRead_src (s : State) : (alignRead s).src = s.src := rfl
@[simp] theorem alignRead_srcPos (s : State) : (alignRead s).srcPos = s.srcPos := rfl
@[simp] theorem alignRead_portlog (s : State) : (alignRead s).portlog = s.portlog := rfl
@[simp] theorem alignRead_script (s : State) : (alignRead s).script = s.script := rfl
@[simp] theorem alignRead_reads (s : State) : (alignRead s).reads = s.reads := rfl
@[simp] theorem alignRead_draws (s : State) : (alignRead s).draws = s.draws := rfl

@[simp] theorem codeGen_params (s : State) : (codeGen s).params = s.params := rfl
@[simp] theorem codeGen_block (s : State) :
    (codeGen s).block =
      { s.block with code := codeTableOf s.block.nodes s.block.root } := rfl
@[simp] theorem codeGen_resetLine (s : State) : (codeGen s).resetLine = s.resetLine := rfl
@[simp] theorem codeGen_src (s : State) : (codeGen s).src = s.src := rfl
@[simp] theorem codeGen_srcPos (s : State) : (codeGen s).srcPos = s.srcPos := rfl
@[simp] theorem codeGen_portlog (s : State) : (codeGen s).portlog = s.portlog := rfl
@[simp] theorem codeGen_script (s : State) : (codeGen s).script = s.script := rfl
@[simp] theorem codeGen_reads (s : State) : (codeGen s).reads = s.reads := rfl
@[simp] theorem codeGen_draws (s : State) : (codeGen s).draws = s.draws := rfl

@[simp] theorem emitSymbol_params (b : Byte) (s : State) : (emitSymbol b s).params = s.params := rfl
@[simp] theorem emitSymbol_block (b : Byte) (s : State) :
    (emitSymbol b s).block =
      { s.block with outCount := s.block.outCount + 1#64, running := { s.block.running with emitted := s.block.running.emitted + 1#32 } } := rfl
@[simp] theorem emitSymbol_resetLine (b : Byte) (s : State) : (emitSymbol b s).resetLine = s.resetLine := rfl
@[simp] theorem emitSymbol_src (b : Byte) (s : State) : (emitSymbol b s).src = s.src := rfl
@[simp] theorem emitSymbol_srcPos (b : Byte) (s : State) : (emitSymbol b s).srcPos = s.srcPos := rfl
@[simp] theorem emitSymbol_portlog (b : Byte) (s : State) :
    (emitSymbol b s).portlog =
      s.portlog ++ [.snkByte b] := rfl
@[simp] theorem emitSymbol_script (b : Byte) (s : State) : (emitSymbol b s).script = s.script := rfl
@[simp] theorem emitSymbol_reads (b : Byte) (s : State) : (emitSymbol b s).reads = s.reads := rfl
@[simp] theorem emitSymbol_draws (b : Byte) (s : State) : (emitSymbol b s).draws = s.draws := rfl

@[simp] theorem returned_params (s : State) (b : Block) : (returned s b).params = s.params := rfl
@[simp] theorem returned_block (s : State) (b : Block) :
    (returned s b).block =
      { b with status := { s.block.status with phase := .idle, busy := false }, running := Running.none } := rfl
@[simp] theorem returned_resetLine (s : State) (b : Block) : (returned s b).resetLine = s.resetLine := rfl
@[simp] theorem returned_src (s : State) (b : Block) : (returned s b).src = s.src := rfl
@[simp] theorem returned_srcPos (s : State) (b : Block) : (returned s b).srcPos = s.srcPos := rfl
@[simp] theorem returned_portlog (s : State) (b : Block) : (returned s b).portlog = s.portlog := rfl
@[simp] theorem returned_script (s : State) (b : Block) : (returned s b).script = s.script := rfl
@[simp] theorem returned_reads (s : State) (b : Block) : (returned s b).reads = s.reads := rfl
@[simp] theorem returned_draws (s : State) (b : Block) : (returned s b).draws = s.draws := rfl

@[simp] theorem raisedAtOnce_params (s : State) (e : ErrCode) : (raisedAtOnce s e).params = s.params := rfl
@[simp] theorem raisedAtOnce_block (s : State) (e : ErrCode) :
    (raisedAtOnce s e).block =
      { s.block with status := { s.block.status with err := true, errCode := e, phase := .exec, busy := false }, running := Running.none } := rfl
@[simp] theorem raisedAtOnce_resetLine (s : State) (e : ErrCode) : (raisedAtOnce s e).resetLine = s.resetLine := rfl
@[simp] theorem raisedAtOnce_src (s : State) (e : ErrCode) : (raisedAtOnce s e).src = s.src := rfl
@[simp] theorem raisedAtOnce_srcPos (s : State) (e : ErrCode) : (raisedAtOnce s e).srcPos = s.srcPos := rfl
@[simp] theorem raisedAtOnce_portlog (s : State) (e : ErrCode) : (raisedAtOnce s e).portlog = s.portlog := rfl
@[simp] theorem raisedAtOnce_script (s : State) (e : ErrCode) : (raisedAtOnce s e).script = s.script := rfl
@[simp] theorem raisedAtOnce_reads (s : State) (e : ErrCode) : (raisedAtOnce s e).reads = s.reads := rfl
@[simp] theorem raisedAtOnce_draws (s : State) (e : ErrCode) : (raisedAtOnce s e).draws = s.draws := rfl

end Sys2Proof.Machine
end

