-- ==== Sys2Proof/Laws/Lifecycle.lean ====
section
/-! SUPPORT. How a command ends: the two outcomes of its body, `return` and the error exit, and what STATUS holds then
(00_scope.md R12, 60_exceptions.md R306). -/

namespace Sys2Proof.Machine

section Res

variable {σ τ α β : Type}

@[simp] theorem Res.andThen_ok (a : α) (s : σ) (f : α → σ → Res σ β) : (Res.ok a s).andThen f = f a s := rfl
@[simp] theorem Res.andThen_err (e : ErrCode) (s : σ) (f : α → σ → Res σ β) :
    (Res.err e s : Res σ α).andThen f = .err e s := rfl
@[simp] theorem Res.within_ok (a : α) (t : τ) (put : τ → σ) : (Res.ok a t).within put = .ok a (put t) := rfl
@[simp] theorem Res.within_err (e : ErrCode) (t : τ) (put : τ → σ) :
    (Res.err e t : Res τ α).within put = .err e (put t) := rfl

/-- A piece that went on: both of its parts did. -/
theorem Res.andThen_eq_ok {r : Res σ α} {f : α → σ → Res σ β} {b : β} {t : σ} :
    r.andThen f = .ok b t ↔ ∃ a s, r = .ok a s ∧ f a s = .ok b t := by
  cases r <;> simp

/-- A piece that raised: the first part did, or it went on and the second did. -/
theorem Res.andThen_eq_err {r : Res σ α} {f : α → σ → Res σ β} {e : ErrCode} {t : σ} :
    r.andThen f = .err e t ↔ r = .err e t ∨ ∃ a s, r = .ok a s ∧ f a s = .err e t := by
  cases r <;> simp

theorem Res.within_eq_ok {r : Res τ α} {put : τ → σ} {a : α} {t : σ} :
    r.within put = .ok a t ↔ ∃ u, r = .ok a u ∧ put u = t := by
  cases r <;> simp [and_assoc, eq_comm]

theorem Res.within_eq_err {r : Res τ α} {put : τ → σ} {e : ErrCode} {t : σ} :
    r.within put = .err e t ↔ ∃ u, r = .err e u ∧ put u = t := by
  cases r <;> simp [and_assoc, eq_comm]

theorem Res.andThen_assoc {γ : Type} (r : Res σ α) (f : α → σ → Res σ β) (g : β → σ → Res σ γ) :
    (r.andThen f).andThen g = r.andThen fun a s => (f a s).andThen g := by
  cases r <;> rfl

/-- Where a piece leaves the state, whichever way it ends. -/
def Res.state : Res σ α → σ
  | .ok _ s => s
  | .err _ s => s

@[simp] theorem Res.state_ok (a : α) (s : σ) : (Res.ok a s).state = s := rfl
@[simp] theorem Res.state_err (e : ErrCode) (s : σ) : (Res.err e s : Res σ α).state = s := rfl

/-- A property that a piece ends in, whichever way, when its first part does and its second part keeps it. -/
theorem Res.state_andThen {r : Res σ α} {f : α → σ → Res σ β} (P : σ → Prop) (h : P r.state)
    (hf : ∀ a s, P s → P (f a s).state) : P (r.andThen f).state := by
  cases r with
  | ok a s => exact hf a s h
  | err e s => exact h

end Res

/-! ### The end of a command -/

@[simp] theorem Status.returned_err (st : Status) : st.returned.err = st.err := rfl
@[simp] theorem Status.returned_busy (st : Status) : st.returned.busy = false := rfl
@[simp] theorem Status.returned_phase (st : Status) : st.returned.phase = .idle := rfl
@[simp] theorem Status.raised_err (st : Status) (e : ErrCode) : (st.raised e).err = true := rfl
@[simp] theorem Status.raised_busy (st : Status) (e : ErrCode) : (st.raised e).busy = false := rfl
@[simp] theorem Status.raised_errCode (st : Status) (e : ErrCode) : (st.raised e).errCode = e := rfl
@[simp] theorem Status.raised_phase (st : Status) (e : ErrCode) : (st.raised e).phase = st.phase := rfl
@[simp] theorem Status.accepted_busy (st : Status) (w : Word) : (st.accepted w).busy = true := rfl
@[simp] theorem Status.accepted_err (st : Status) (w : Word) : (st.accepted w).err = false := rfl

@[simp] theorem flushBits_status (s : State) : (flushBits s).block.status = s.block.status := by
  unfold flushBits; split <;> rfl

@[simp] theorem flushBits_running (s : State) : (flushBits s).block.running = s.block.running := by
  unfold flushBits; split <;> rfl

@[simp] theorem finalise_status (k : ExitKind) (s : State) : (finalise k s).block.status = s.block.status := by
  cases k <;> simp [finalise]

/-- STATUS after the error exit: ERR, the code, BUSY 0, and the phase of detection. -/
@[simp] theorem errorExit_status (k : ExitKind) (e : ErrCode) (s : State) :
    (errorExit k e s).block.status = s.block.status.raised e := by
  simp [errorExit]

@[simp] theorem errorExit_running (k : ExitKind) (e : ErrCode) (s : State) :
    (errorExit k e s).block.running = Running.none := rfl

@[simp] theorem endState_ok (k : ExitKind) (s : State) : endState k (.ok () s) = complete s := rfl
@[simp] theorem endState_err (k : ExitKind) (e : ErrCode) (s : State) :
    endState k (.err e s) = errorExit k e s := rfl

theorem endState_idle (k : ExitKind) (r : Res State Unit) :
    (endState k r).block.status.busy = false ∧ (endState k r).block.running = Running.none := by
  cases r <;> simp [endState]

/-- The error exit of a standalone command touches nothing but STATUS and the latches. -/
theorem errorExit_standalone (e : ErrCode) (s : State) :
    errorExit .standalone e s =
      { s with block := { s.block with status := s.block.status.raised e, running := Running.none } } := rfl

/-- A standalone command whose body went on. -/
theorem standalone_ok {body : State → Res State Unit} {s t : State} (h : body (setPhase .exec s) = .ok () t) :
    standalone body s = .next (complete t) := by
  simp [standalone, finishCommand, h]

/-- A standalone command whose body raised. -/
theorem standalone_err {body : State → Res State Unit} {s t : State} {e : ErrCode}
    (h : body (setPhase .exec s) = .err e t) : standalone body s = .next (errorExit .standalone e t) := by
  simp [standalone, finishCommand, h]

/-- A standalone command that changes only the block, and not STATUS or the latches, ends as `returned`. -/
theorem standalone_returned {body : State → Res State Unit} {s : State} {b : Block}
    (h : body (setPhase .exec s) =
      .ok () { s with block := { b with status := { s.block.status with phase := .exec }, running := s.block.running } }) :
    standalone body s = .next (returned s b) := by
  rw [standalone_ok h]; rfl

/-- A standalone command that raises before it changes anything. -/
theorem standalone_raisedAtOnce {body : State → Res State Unit} {s : State} {e : ErrCode}
    (h : body (setPhase .exec s) = .err e (setPhase .exec s)) :
    standalone body s = .next (raisedAtOnce s e) := by
  rw [standalone_err h]; rfl

@[simp] theorem checkArg_true (s : State) : checkArg true s = .ok () s := rfl
@[simp] theorem checkArg_false (s : State) : checkArg false s = .err .badArgument s := rfl

end Sys2Proof.Machine
end

