-- ==== Sys2Proof/Laws/BitIO.lean ====
section
/-! SUPPORT. The bit cursors: what a run of WriteBits emits and leaves buffered, what a run of ReadBits takes, and the
values the bits spell (43_bit_stream_io.md R211-R217, R224, R225). -/

namespace Sys2Proof.Machine

/-! ### Bits and values -/

@[simp] theorem bitsDown_length {w : Nat} (v : BitVec w) (n : Nat) : (bitsDown v n).length = n := by
  simp [bitsDown]

@[simp] theorem bitsDown_zero {w : Nat} (v : BitVec w) : bitsDown v 0 = [] := rfl

theorem bitsDown_succ {w : Nat} (v : BitVec w) (n : Nat) : bitsDown v (n + 1) = v.getLsbD n :: bitsDown v n := by
  simp [bitsDown, List.range_succ]

theorem bitsDown_congr {w u : Nat} {x : BitVec w} {y : BitVec u} {n : Nat}
    (h : ∀ j < n, x.getLsbD j = y.getLsbD j) : bitsDown x n = bitsDown y n := by
  induction n with
  | zero => rfl
  | succ n ih =>
    rw [bitsDown_succ, bitsDown_succ, h n (Nat.lt_succ_self n), ih fun j hj => h j (by omega)]

/-- The number some bits spell, the first one most significant, after a number v. -/
def bitsValue (v : Nat) (bits : List Bool) : Nat := bits.foldl (fun a b => 2 * a + b.toNat) v

@[simp] theorem bitsValue_nil (v : Nat) : bitsValue v [] = v := rfl
@[simp] theorem bitsValue_cons (v : Nat) (b : Bool) (bits : List Bool) :
    bitsValue v (b :: bits) = bitsValue (2 * v + b.toNat) bits := rfl

theorem bitsValue_append (v : Nat) (p q : List Bool) : bitsValue v (p ++ q) = bitsValue (bitsValue v p) q := by
  simp [bitsValue, List.foldl_append]

theorem bitsValue_eq (v : Nat) (bits : List Bool) : bitsValue v bits = v * 2 ^ bits.length + bitsValue 0 bits := by
  induction bits generalizing v with
  | nil => simp
  | cons b bits ih =>
    rw [bitsValue_cons, bitsValue_cons, ih, ih (2 * 0 + b.toNat), List.length_cons, Nat.pow_succ]
    ring

theorem bitsValue_lt (bits : List Bool) : bitsValue 0 bits < 2 ^ bits.length := by
  induction bits with
  | nil => simp
  | cons b bits ih =>
    rw [bitsValue_cons, bitsValue_eq, List.length_cons, Nat.pow_succ]
    cases b <;> simp <;> omega

theorem testBit_bitsValue_cons (b : Bool) (bits : List Bool) (j : Nat) :
    (bitsValue 0 (b :: bits)).testBit j =
      if j = bits.length then b else if j < bits.length then (bitsValue 0 bits).testBit j else false := by
  have hlt := bitsValue_lt bits
  rw [bitsValue_cons, bitsValue_eq, Nat.mul_zero, Nat.zero_add, Nat.mul_comm, Nat.testBit_two_pow_mul_add _ hlt]
  by_cases h1 : j < bits.length
  · simp [h1, Nat.ne_of_lt h1]
  · by_cases h2 : j = bits.length
    · subst h2; cases b <;> simp
    · have h3 : j - bits.length ≠ 0 := by omega
      rw [if_neg h1, if_neg h2, if_neg h1]
      cases b
      · simp
      · simp [Nat.testBit_lt_two_pow (Nat.one_lt_two_pow h3)]

/-- The bits of the value that bits spell. -/
theorem bitsDown_bitsValue {w : Nat} (bits : List Bool) (h : bits.length ≤ w) :
    bitsDown (BitVec.ofNat w (bitsValue 0 bits)) bits.length = bits := by
  induction bits with
  | nil => rfl
  | cons b bits ih =>
    rw [List.length_cons] at h ⊢
    rw [bitsDown_succ, BitVec.getLsbD_ofNat, testBit_bitsValue_cons, if_pos rfl, decide_eq_true (by omega),
      Bool.true_and]
    have key : bitsDown (BitVec.ofNat w (bitsValue 0 (b :: bits))) bits.length =
        bitsDown (BitVec.ofNat w (bitsValue 0 bits)) bits.length :=
      bitsDown_congr fun j hj => by
        rw [BitVec.getLsbD_ofNat, BitVec.getLsbD_ofNat, testBit_bitsValue_cons, if_neg (by omega), if_pos hj]
    rw [key, ih (by omega)]

/-- Equal bits spell equal values. -/
theorem bitsDown_inj {w : Nat} {x y : BitVec w} (h : bitsDown x w = bitsDown y w) : x = y := by
  apply BitVec.eq_of_getLsbD_eq
  intro j hj
  have key : ∀ n, bitsDown x n = bitsDown y n → ∀ j < n, x.getLsbD j = y.getLsbD j := by
    intro n
    induction n with
    | zero => intro _ j hj; omega
    | succ n ih =>
      intro h j hj
      rw [bitsDown_succ, bitsDown_succ, List.cons.injEq] at h
      by_cases hjn : j = n
      · subst hjn; exact h.1
      · exact ih h.2 j (by omega)
  exact key w h j hj

@[simp] theorem byteBits_length (b : Byte) : (byteBits b).length = 8 := bitsDown_length b 8

theorem byteBits_inj {x y : Byte} (h : byteBits x = byteBits y) : x = y := bitsDown_inj h

theorem byteBits_eq (x : Byte) : byteBits x = (List.range 8).map fun j => x.getLsbD (7 - j) := rfl

theorem flatMap_byteBits_length (bytes : List Byte) : (bytes.flatMap byteBits).length = 8 * bytes.length := by
  induction bytes with
  | nil => rfl
  | cons x xs ih => rw [List.flatMap_cons, List.length_append, ih, byteBits_length, List.length_cons]; omega

/-- Equal bits come from equal bytes. -/
theorem flatMap_byteBits_inj : ∀ {xs ys : List Byte}, xs.flatMap byteBits = ys.flatMap byteBits → xs = ys
  | [], [], _ => rfl
  | [], y :: ys, h => by
    have := congrArg List.length h
    simp only [flatMap_byteBits_length, List.length_cons, List.length_nil] at this; omega
  | x :: xs, [], h => by
    have := congrArg List.length h
    simp only [flatMap_byteBits_length, List.length_cons, List.length_nil] at this; omega
  | x :: xs, y :: ys, h => by
    rw [List.flatMap_cons, List.flatMap_cons] at h
    obtain ⟨h1, h2⟩ := List.append_inj h (by simp)
    rw [byteBits_inj h1, flatMap_byteBits_inj h2]

/-- The bits of a word are the bits of its four bytes (20_memory.md R87). -/
theorem bigEndian_bits (v : Word) : (bigEndian v).flatMap byteBits = bitsDown v 32 := by
  simp [bigEndian, byteBits, bitsDown, List.range_succ, BitVec.getLsbD_extractLsb']

/-! ### The writer -/

theorem setBit_getLsbD (v : Byte) (i : Nat) (b : Bool) (j : Nat) (hi : i < 8) :
    (setBit v i b).getLsbD j = if j = i then b else v.getLsbD j := by
  unfold setBit
  by_cases hji : j = i
  · subst hji
    cases b <;> simp [hi]
  · rw [if_neg hji]
    have ht : (BitVec.twoPow 8 i).getLsbD j = false := by
      rw [BitVec.getLsbD_twoPow]; simp [Ne.symm hji]
    cases b
    · simp only [Bool.false_eq_true, if_false, BitVec.getLsbD_and, BitVec.getLsbD_not, ht]
      by_cases hj : j < 8
      · simp [hj]
      · simp [BitVec.getLsbD_of_ge v j (by omega)]
    · simp only [if_true, BitVec.getLsbD_or, ht, Bool.or_false]

@[simp] theorem pendingBits_length (w : Writer) : (pendingBits w).length = w.off.val := by simp [pendingBits]

theorem pendingBits_of_off_zero {w : Writer} (h : w.off = 0) : pendingBits w = [] := by simp [pendingBits, h]

@[simp] theorem pendingBits_reset : pendingBits Writer.reset = [] := rfl

theorem writerLegal_reset : writerLegal Writer.reset := fun _ _ => BitVec.getLsbD_zero

/-- The state after some bytes went to the sink and the writer stands at `w`. -/
def emitted (s : State) (bytes : List Byte) (w : Writer) : State :=
  { s with
    block := { s.block with writer := w, outCount := s.block.outCount + BitVec.ofNat 64 bytes.length }
    portlog := s.portlog ++ bytes.map .snkByte }

theorem emitted_nil (s : State) : emitted s [] s.block.writer = s := by simp [emitted]

theorem emitted_emitted (s : State) (xs ys : List Byte) (v w : Writer) :
    emitted (emitted s xs v) ys w = emitted s (xs ++ ys) w := by
  simp [emitted, BitVec.ofNat_add, BitVec.add_assoc]

@[simp] theorem emitted_writer (s : State) (bytes : List Byte) (w : Writer) :
    (emitted s bytes w).block.writer = w := rfl

/-- One WriteBit: the bit stands below the buffered ones, or completes a byte, which is emitted. -/
theorem writeBit_spec (b : Bool) (v : Writer) :
    ∃ bytes w, (∀ s : State, s.block.writer = v → writeBit b s = emitted s bytes w) ∧
      bytes.flatMap byteBits ++ pendingBits w = pendingBits v ++ [b] ∧
      (v.off.val < 7 → bytes = [] ∧ w.off.val = v.off.val + 1) ∧
      (v.off.val = 7 → bytes.length = 1 ∧ w = Writer.reset) ∧ (writerLegal v → writerLegal w) := by
  obtain ⟨buf, off⟩ := v
  have hoff := off.isLt
  by_cases h7 : off.val = 7
  · refine ⟨[setBit buf (7 - off.val) b], Writer.reset, fun s hs => by simp [writeBit, hs, h7, emitted, snkEmit], ?_,
      fun h => absurd h7 (Nat.ne_of_lt h), fun _ => ⟨rfl, rfl⟩, fun _ => writerLegal_reset⟩
    rw [List.flatMap_singleton, pendingBits_reset, List.append_nil, byteBits_eq, pendingBits]
    simp only [h7]
    rw [List.range_succ, List.map_append, List.map_singleton, setBit_getLsbD _ _ _ _ (by omega), if_pos rfl]
    congr 1
    refine List.map_congr_left fun j hj => ?_
    rw [List.mem_range] at hj
    rw [setBit_getLsbD _ _ _ _ (by omega), if_neg (by omega)]
  · have hv : (off + 1).val = off.val + 1 := by
      rw [Fin.val_add]; exact Nat.mod_eq_of_lt (by change off.val + 1 < 8; omega)
    refine ⟨[], ⟨setBit buf (7 - off.val) b, off + 1⟩, fun s hs => by simp [writeBit, hs, h7, emitted], ?_,
      fun _ => ⟨rfl, hv⟩, fun h => absurd h h7, ?_⟩
    · rw [List.flatMap_nil, List.nil_append, pendingBits, pendingBits]
      simp only [hv]
      rw [List.range_succ, List.map_append, List.map_singleton, setBit_getLsbD _ _ _ _ (by omega), if_pos rfl]
      congr 1
      refine List.map_congr_left fun j hj => ?_
      rw [List.mem_range] at hj
      rw [setBit_getLsbD _ _ _ _ (by omega), if_neg (by omega)]
    · intro hl j hj
      simp only [hv] at hj
      rw [setBit_getLsbD _ _ _ _ (by omega), if_neg (by omega)]
      exact hl j (by simp only; omega)

@[simp] theorem writeBits_nil (s : State) : writeBits [] s = s := rfl
@[simp] theorem writeBits_cons (b : Bool) (bits : List Bool) (s : State) :
    writeBits (b :: bits) s = writeBits bits (writeBit b s) := rfl

theorem writeBits_append (p q : List Bool) (s : State) : writeBits (p ++ q) s = writeBits q (writeBits p s) := by
  simp [writeBits, List.foldl_append]

/-- A run of WriteBits: the bytes emitted, followed by what is left buffered, are what was buffered before, followed by
the bits; they depend on the writer and the bits alone. -/
theorem writeBits_spec (bits : List Bool) :
    ∀ v : Writer, ∃ bytes w, (∀ s : State, s.block.writer = v → writeBits bits s = emitted s bytes w) ∧
      bytes.flatMap byteBits ++ pendingBits w = pendingBits v ++ bits ∧
      bytes.length = (v.off.val + bits.length) / 8 ∧ w.off.val = (v.off.val + bits.length) % 8 ∧
      (bits ≠ [] → w.off = 0 → w = Writer.reset) ∧ (writerLegal v → writerLegal w) := by
  induction bits with
  | nil =>
    intro v
    have := v.off.isLt
    exact ⟨[], v, fun s hs => by rw [writeBits_nil, ← hs, emitted_nil], by simp, by simp; omega, by simp; omega,
      fun h => absurd rfl h, id⟩
  | cons b bits ih =>
    intro u
    obtain ⟨x, v, h1, h2, h3, h4, h5⟩ := writeBit_spec b u
    obtain ⟨y, w, g1, g2, g3, g4, g5, g6⟩ := ih v
    have hoff := u.off.isLt
    have hlen : 8 * x.length + v.off.val = u.off.val + 1 := by
      have := congrArg List.length h2
      simpa only [List.length_append, flatMap_byteBits_length, pendingBits_length, List.length_singleton] using this
    have hlen2 : 8 * y.length + w.off.val = v.off.val + bits.length := by
      have := congrArg List.length g2
      simpa only [List.length_append, flatMap_byteBits_length, pendingBits_length] using this
    have hv := v.off.isLt
    have hwo := w.off.isLt
    refine ⟨x ++ y, w, fun s hs => ?_, ?_, ?_, ?_, ?_, fun hl => g6 (h5 hl)⟩
    · rw [writeBits_cons, h1 s hs, g1 _ rfl, emitted_emitted]
    · rw [List.flatMap_append, List.append_assoc, g2, ← List.append_assoc, h2, List.append_assoc]; rfl
    · rw [List.length_append, List.length_cons]; omega
    · rw [List.length_cons]; omega
    · intro _ hw0
      by_cases hb : bits = []
      · subst hb
        have hwv : w = v := by
          have := congrArg (fun t : State => t.block.writer) (g1 { State.reset with block := { Block.reset with writer := v } } rfl)
          simpa [emitted] using this.symm
        rcases Nat.lt_or_ge u.off.val 7 with h7 | h7
        · have := (h3 h7).2
          rw [← hwv, hw0] at this
          simp at this
        · rw [hwv]; exact (h4 (by omega)).2
      · exact g5 hb hw0

/-- WriteU32: four bytes go out and as many bits stay buffered as before (43_bit_stream_io.md R212, R224). -/
theorem writeU32_spec (x : Word) (v : Writer) :
    ∃ bytes w, (∀ s : State, s.block.writer = v → writeU32 x s = emitted s bytes w) ∧ bytes.length = 4 ∧
      w.off = v.off ∧ bytes.flatMap byteBits ++ pendingBits w = pendingBits v ++ bitsDown x 32 ∧
      (v.off = 0 → bytes = bigEndian x ∧ w = Writer.reset) ∧ (writerLegal v → writerLegal w) := by
  obtain ⟨bytes, w, h1, h2, h3, h4, h5, h6⟩ := writeBits_spec (bitsDown x 32) v
  rw [bitsDown_length] at h3 h4
  have := v.off.isLt
  have hw : w.off = v.off := Fin.ext (by omega)
  refine ⟨bytes, w, h1, by omega, hw, h2, fun h0 => ?_, h6⟩
  have hr : w = Writer.reset := h5 (by rw [bitsDown_succ]; simp) (hw.trans h0)
  refine ⟨?_, hr⟩
  rw [hr, pendingBits_reset, List.append_nil, pendingBits_of_off_zero h0, List.nil_append, ← bigEndian_bits] at h2
  exact flatMap_byteBits_inj h2

/-- The low bits of a legal writer's byte are 0. -/
theorem byteBits_legal {w : Writer} (h : writerLegal w) :
    byteBits w.buf = pendingBits w ++ List.replicate (8 - w.off.val) false := by
  have ho := w.off.isLt
  rw [byteBits_eq, pendingBits]
  apply List.ext_getElem
  · simp only [List.length_map, List.length_range, List.length_append, List.length_replicate]; omega
  · intro i h1 h2
    simp only [List.length_map, List.length_range] at h1
    by_cases hi : i < w.off.val
    · rw [List.getElem_append_left (by simpa using hi)]; simp
    · rw [List.getElem_append_right (by simp; omega)]
      simp only [List.getElem_map, List.getElem_range, List.getElem_replicate]
      exact h _ (by omega)

/-- FlushBits (43_bit_stream_io.md R213): the padded byte, if some bit was buffered; then the writer is aligned. -/
theorem flushBits_spec (v : Writer) :
    ∃ bytes w, (∀ s : State, s.block.writer = v → flushBits s = emitted s bytes w) ∧
      (v.off = 0 → bytes = [] ∧ w = v) ∧ (v.off ≠ 0 → bytes = [v.buf] ∧ w = Writer.reset) ∧
      (writerLegal v →
        w = Writer.reset ∧
          bytes.flatMap byteBits = pendingBits v ++ List.replicate ((8 - v.off.val) % 8) false) := by
  obtain ⟨buf, off⟩ := v
  have ho := off.isLt
  by_cases h : 0 < off.val
  · have hne : off ≠ 0 := by rintro rfl; simp at h
    refine ⟨[buf], Writer.reset, fun s hs => by simp [flushBits, hs, h, emitted, snkEmit], fun h0 => absurd h0 hne,
      fun _ => ⟨rfl, rfl⟩, fun hl => ⟨rfl, ?_⟩⟩
    rw [List.flatMap_singleton, byteBits_legal hl]
    congr 2
    simp only; omega
  · have h0 : off = 0 := Fin.ext (by simp; omega)
    subst h0
    refine ⟨[], ⟨buf, 0⟩, fun s hs => ?_, fun _ => ⟨rfl, rfl⟩, fun hne => absurd rfl hne,
      fun hl => ⟨?_, by simp [pendingBits]⟩⟩
    · rw [← hs, emitted_nil, flushBits, hs, if_neg h]
    · have : buf = 0#8 := BitVec.eq_of_getLsbD_eq fun j hj => by
        rw [hl j (by simpa using hj)]; simp
      rw [this]; rfl

/-! ### The reader -/

/-- The bits a reader still delivers: the unread ones of its byte, then those of the source from where it stands. -/
def unreadBits (s : State) : List Bool :=
  (if s.block.reader.valid then (byteBits s.block.reader.buf).drop s.block.reader.off.val else []) ++
    (s.src.drop s.srcPos).flatMap byteBits

theorem unreadBits_length (s : State) : (unreadBits s).length = bitsLeft s := by
  unfold unreadBits bitsLeft
  rw [List.length_append, flatMap_byteBits_length, List.length_drop, Nat.add_comm]
  congr 1
  split <;> simp

/-- The state after m more bytes were fetched and the reader stands at `r`. -/
def fetched (s : State) (m : Nat) (r : Reader) : State :=
  { s with
    block := { s.block with reader := r, inCount := s.block.inCount + BitVec.ofNat 64 m }
    srcPos := s.srcPos + m
    portlog := s.portlog ++ ((s.src.drop s.srcPos).take m).map .srcByte }

theorem fetched_zero (s : State) : fetched s 0 s.block.reader = s := by simp [fetched]

theorem fetched_fetched (s : State) (m n : Nat) (q r : Reader) :
    fetched (fetched s m q) n r = fetched s (m + n) r := by
  simp only [fetched, BitVec.ofNat_add, BitVec.add_assoc, Nat.add_assoc, List.append_assoc, State.mk.injEq, true_and,
    and_true, List.append_cancel_left_eq]
  rw [List.take_add, List.map_append, List.drop_drop]

@[simp] theorem fetched_src (s : State) (m : Nat) (r : Reader) : (fetched s m r).src = s.src := rfl
@[simp] theorem fetched_srcPos (s : State) (m : Nat) (r : Reader) : (fetched s m r).srcPos = s.srcPos + m := rfl
@[simp] theorem fetched_reader (s : State) (m : Nat) (r : Reader) : (fetched s m r).block.reader = r := rfl

/-- SrcFetch at a byte. -/
theorem srcFetch_some {s : State} {x : Byte} (h : s.src[s.srcPos]? = some x) :
    srcFetch s = (some x, fetched s 1 s.block.reader) := by
  have hd : (s.src.drop s.srcPos).take 1 = [x] := by
    rw [List.take_one, List.head?_drop, h]; rfl
  simp [srcFetch, h, fetched, hd]

/-- SrcFetch at the end of the source. -/
theorem srcFetch_none {s : State} (h : s.src.length ≤ s.srcPos) :
    srcFetch s = (none, { s with portlog := s.portlog ++ [.srcEOF] }) := by
  simp [srcFetch, h]

/-- A reader between bits: its offset is not 0 while it holds a byte, and 0 when it holds none. -/
def Reader.between (r : Reader) : Prop := (r.valid = true → r.off ≠ 0) ∧ (r.valid = false → r.off = 0)

theorem takeBit_spec (s : State) (hv : s.block.reader.valid = true) :
    ∃ b r, takeBit s = .ok b (fetched s 0 r) ∧
      (byteBits s.block.reader.buf).drop s.block.reader.off.val =
        b :: (if r.valid then (byteBits r.buf).drop r.off.val else []) ∧
      r.between ∧ r.buf = s.block.reader.buf ∧
      b = s.block.reader.buf.getLsbD (7 - s.block.reader.off.val) := by
  rcases hr : s.block.reader with ⟨buf, off, valid⟩
  rw [hr] at hv
  simp only at hv
  subst hv
  have ho := off.isLt
  have hdrop : (byteBits buf).drop off.val = buf.getLsbD (7 - off.val) :: (byteBits buf).drop (off.val + 1) := by
    rw [List.drop_eq_getElem_cons (by simp)]
    congr 1
    simp [byteBits_eq]
  unfold takeBit
  simp only [hr]
  by_cases h7 : off.val = 7
  · refine ⟨buf.getLsbD (7 - off.val), ⟨buf, 0, false⟩, by simp [fetched, h7], ?_, ⟨by simp, fun _ => rfl⟩, rfl, rfl⟩
    rw [hdrop, h7]
    simp [List.drop_eq_nil_of_le]
  · have hv : (off + 1).val = off.val + 1 := by
      rw [Fin.val_add]; exact Nat.mod_eq_of_lt (by change off.val + 1 < 8; omega)
    refine ⟨buf.getLsbD (7 - off.val), ⟨buf, off + 1, true⟩, by simp [fetched, h7], ?_,
      ⟨fun _ h => ?_, by simp⟩, rfl, rfl⟩
    · rw [hdrop]; simp [hv]
    · have := congrArg Fin.val h
      rw [hv] at this
      simp at this

/-- One ReadBit (43_bit_stream_io.md R215): the next bit of those left, or STREAM_TRUNCATED when none is. -/
theorem readBit_spec (s : State) :
    (unreadBits s = [] ∧ readBit s = .err .streamTruncated { s with portlog := s.portlog ++ [.srcEOF] }) ∨
      ∃ b m r, readBit s = .ok b (fetched s m r) ∧ unreadBits s = b :: unreadBits (fetched s m r) ∧ r.between ∧
        r.buf = ((s.src.drop s.srcPos).take m).getLastD s.block.reader.buf ∧ s.srcPos + m ≤ max s.srcPos s.src.length := by
  by_cases hv : s.block.reader.valid = true
  · right
    obtain ⟨b, r, h1, h2, h3, h4, -⟩ := takeBit_spec s hv
    refine ⟨b, 0, r, by rw [readBit, if_pos hv, h1], ?_, h3, by simpa using h4, by omega⟩
    rw [unreadBits, if_pos hv, h2, unreadBits]
    rfl
  · have hvf : s.block.reader.valid = false := by simpa using hv
    rcases Nat.lt_or_ge s.srcPos s.src.length with hl | hl
    · right
      have hx : s.src[s.srcPos]? = some s.src[s.srcPos] := List.getElem?_eq_getElem hl
      have hdrop := List.drop_eq_getElem_cons hl
      generalize s.src[s.srcPos] = x at hx hdrop
      obtain ⟨b, r, h1, h2, h3, h4, -⟩ :=
        takeBit_spec { fetched s 1 s.block.reader with
          block := { (fetched s 1 s.block.reader).block with reader := { buf := x, off := 0, valid := true } } } rfl
      refine ⟨b, 1, r, ?_, ?_, h3, ?_, by omega⟩
      · rw [readBit, if_neg hv, srcFetch_some hx]
        simp only []
        rw [h1]
        simp [fetched]
      · rw [unreadBits, if_neg hv, List.nil_append, hdrop, List.flatMap_cons]
        simp only [List.drop_zero, Fin.val_zero] at h2
        rw [h2, unreadBits]
        simp [fetched]
      · rw [h4, hdrop]; simp
    · left
      refine ⟨?_, ?_⟩
      · rw [unreadBits, if_neg hv, List.drop_eq_nil_of_le hl]; rfl
      · rw [readBit, if_neg hv, srcFetch_none hl]

/-- A run of ReadBits with enough bits left: it takes them, and what is left is the rest. -/
theorem readBitList_spec (k : Nat) :
    ∀ s : State, k ≤ (unreadBits s).length →
      ∃ m r, readBitList k s = .ok ((unreadBits s).take k) (fetched s m r) ∧
        unreadBits (fetched s m r) = (unreadBits s).drop k ∧ (k = 0 → m = 0 ∧ r = s.block.reader) ∧
        (k ≠ 0 → r.between) ∧ r.buf = ((s.src.drop s.srcPos).take m).getLastD s.block.reader.buf ∧
        s.srcPos + m ≤ max s.srcPos s.src.length := by
  induction k with
  | zero =>
    intro s _
    exact ⟨0, s.block.reader, by simp [readBitList, fetched_zero], by simp [fetched_zero], fun _ => ⟨rfl, rfl⟩,
      fun h => absurd rfl h, by simp, by omega⟩
  | succ k ih =>
    intro s hk
    rcases readBit_spec s with ⟨h0, -⟩ | ⟨b, m, r, h1, h2, h3, h4, h5⟩
    · rw [h0] at hk; simp at hk
    · rw [h2, List.length_cons] at hk
      obtain ⟨m', r', g1, g2, g3, g4, g5, g6⟩ := ih (fetched s m r) (by omega)
      refine ⟨m + m', r', ?_, ?_, fun h => absurd h (by omega), fun _ => ?_, ?_, ?_⟩
      · rw [readBitList, h1, Res.andThen_ok, g1, Res.andThen_ok, fetched_fetched, h2, List.take_succ_cons]
      · rw [← fetched_fetched s m m' r r', g2, h2, List.drop_succ_cons]
      · by_cases hk0 : k = 0
        · rw [(g3 hk0).2]; exact h3
        · exact g4 hk0
      · rw [g5, fetched_src, fetched_srcPos, fetched_reader, h4, List.take_add, List.drop_drop]
        rcases (List.drop (s.srcPos + m) s.src).take m' with _ | ⟨y, ys⟩
        · simp
        · simp [List.getLastD_eq_getLast?]
      · rw [fetched_src, fetched_srcPos] at g6; omega

/-- A run of ReadBits with too few bits left: it takes all of them, then the source is at its end. -/
theorem readBitList_short (k : Nat) :
    ∀ s : State, (unreadBits s).length < k →
      ∃ m r, readBitList k s = .err .streamTruncated { fetched s m r with portlog := (fetched s m r).portlog ++ [.srcEOF] } ∧
        unreadBits (fetched s m r) = [] ∧ (unreadBits s = [] → m = 0 ∧ r = s.block.reader) ∧
        (unreadBits s ≠ [] → r.between) ∧
        r.buf = ((s.src.drop s.srcPos).take m).getLastD s.block.reader.buf ∧
        s.srcPos + m ≤ max s.srcPos s.src.length := by
  induction k with
  | zero => intro s h; omega
  | succ k ih =>
    intro s hk
    rcases readBit_spec s with ⟨h0, h1⟩ | ⟨b, m, r, h1, h2, h3, h4, h5⟩
    · exact ⟨0, s.block.reader, by rw [readBitList, h1, Res.andThen_err, fetched_zero], by rw [fetched_zero, h0],
        fun _ => ⟨rfl, rfl⟩, fun h => absurd h0 h, by simp, by omega⟩
    · rw [h2, List.length_cons] at hk
      obtain ⟨m', r', g1, g2, g3, g4, g5, g6⟩ := ih (fetched s m r) (by omega)
      refine ⟨m + m', r', ?_, ?_, fun h => absurd h (by rw [h2]; simp), fun _ => ?_, ?_, ?_⟩
      · rw [readBitList, h1, Res.andThen_ok, g1, Res.andThen_err, fetched_fetched]
      · rw [← fetched_fetched s m m' r r', g2]
      · by_cases hk0 : unreadBits (fetched s m r) = []
        · rw [(g3 hk0).2]; exact h3
        · exact g4 hk0
      · rw [g5, fetched_src, fetched_srcPos, fetched_reader, h4, List.take_add, List.drop_drop]
        rcases (List.drop (s.srcPos + m) s.src).take m' with _ | ⟨y, ys⟩
        · simp
        · simp [List.getLastD_eq_getLast?]
      · rw [fetched_src, fetched_srcPos] at g6; omega

/-- The loop of ReadU32 is a run of ReadBits whose bits spell the value. -/
theorem readBitsInto_eq (k : Nat) :
    ∀ (v : Nat) (s : State),
      readBitsInto k (BitVec.ofNat 32 v) s =
        (readBitList k s).andThen fun bits t => .ok (BitVec.ofNat 32 (bitsValue v bits)) t := by
  induction k with
  | zero => intro v s; rfl
  | succ k ih =>
    intro v s
    rw [readBitsInto, readBitList, Res.andThen_assoc]
    congr 1
    funext b t
    have : (2#32 * BitVec.ofNat 32 v + if b = true then 1#32 else 0#32) = BitVec.ofNat 32 (2 * v + b.toNat) := by
      rw [BitVec.ofNat_add, BitVec.ofNat_mul]
      cases b <;> rfl
    rw [this, ih, Res.andThen_assoc]
    rfl

theorem readU32_eq (s : State) :
    readU32 s = (readBitList 32 s).andThen fun bits t => .ok (BitVec.ofNat 32 (bitsValue 0 bits)) t :=
  readBitsInto_eq 32 0 s

/-- The value that the bits of a word spell is the word. -/
theorem ofNat_bitsValue_bitsDown (v : Word) : BitVec.ofNat 32 (bitsValue 0 (bitsDown v 32)) = v := by
  apply bitsDown_inj
  have := bitsDown_bitsValue (w := 32) (bitsDown v 32) (by simp)
  rwa [bitsDown_length] at this

end Sys2Proof.Machine
end

