-- ==== Sys2Proof/Laws/Heap.lean ====
section
/-! SUPPORT. The queue primitives: what sift_up, sift_down, HeapInsert and HeapExtract do to the elements held and to the
heap order (40_priority_queue.md R130, R133, R134, R142). -/

namespace Sys2Proof.Machine

/-- The key in a slot. -/
abbrev keyAt (h : List Elem) (i : Nat) : Word := (heapAt h i).key

theorem heapAt_of_lt {h : List Elem} {i : Nat} (hi : i < h.length) : heapAt h i = h[i] := by
  simp [heapAt, List.getD_eq_getElem?_getD, hi]

theorem heapAt_eq_of_getElem? {h : List Elem} {i : Nat} {e : Elem} (he : h[i]? = some e) : heapAt h i = e := by
  simp [heapAt, List.getD_eq_getElem?_getD, he]

theorem heapAt_append_left {h t : List Elem} {i : Nat} (hi : i < h.length) : heapAt (h ++ t) i = heapAt h i := by
  simp [heapAt, List.getD_eq_getElem?_getD, List.getElem?_append_left hi, hi]

@[simp] theorem heapSwap_length (h : List Elem) (i j : Nat) : (heapSwap h i j).length = h.length := by
  simp [heapSwap]

/-- A slot after a swap of two live slots. -/
theorem heapAt_heapSwap {h : List Elem} {i j : Nat} (hi : i < h.length) (hj : j < h.length) (k : Nat) :
    heapAt (heapSwap h i j) k = if k = j then heapAt h i else if k = i then heapAt h j else heapAt h k := by
  rw [heapSwap, heapAt, List.getD_eq_getElem?_getD, List.getElem?_set, List.length_set, List.getElem?_set]
  by_cases h1 : k = j
  · subst h1; simp [hj]
  · by_cases h2 : k = i
    · subst h2; simp [hi, h1, Ne.symm h1]
    · simp [h1, h2, Ne.symm h1, Ne.symm h2, heapAt, List.getD_eq_getElem?_getD]

theorem heapSwap_perm {h : List Elem} {i j : Nat} (hi : i < h.length) (hj : j < h.length) :
    (heapSwap h i j).Perm h := by
  rw [heapSwap, heapAt_of_lt hi, heapAt_of_lt hj]
  exact List.set_set_perm hi hj

/-- In a queue in heap order the root has a minimum key. -/
theorem heapOrdered_root_le {h : List Elem} (ho : heapOrdered h) : ∀ i < h.length, keyAt h 0 ≤ keyAt h i := by
  intro i
  induction i using Nat.strongRecOn with
  | ind i ih =>
    intro hi
    rcases Nat.eq_zero_or_pos i with rfl | hp
    · exact BitVec.le_refl _
    · exact BitVec.le_trans (ih ((i - 1) / 2) (by omega) (by omega)) (ho i hi hp)

/-! ### sift_up -/

/-- Heap order everywhere but at slot i against its parent. -/
def upOrdered (h : List Elem) (i : Nat) : Prop :=
  (∀ j < h.length, 1 ≤ j → j ≠ i → keyAt h ((j - 1) / 2) ≤ keyAt h j) ∧
    ∀ j < h.length, 1 ≤ j → (j - 1) / 2 = i → 1 ≤ i → keyAt h ((i - 1) / 2) ≤ keyAt h j

theorem upOrdered_swap {h : List Elem} {i : Nat} (hi : i < h.length) (hp : i ≠ 0)
    (hk : keyAt h i < keyAt h ((i - 1) / 2)) (ho : upOrdered h i) :
    upOrdered (heapSwap h i ((i - 1) / 2)) ((i - 1) / 2) := by
  have hpl : (i - 1) / 2 < h.length := by omega
  obtain ⟨ho1, ho2⟩ := ho
  have hle := BitVec.le_of_lt hk
  constructor
  · intro j hj h1 hne
    rw [heapSwap_length] at hj
    simp only [keyAt, heapAt_heapSwap hi hpl]
    by_cases hji : j = i
    · subst hji
      rw [if_pos rfl, if_neg (by omega), if_pos rfl]
      exact hle
    · rw [if_neg hne, if_neg hji]
      by_cases hjp : (j - 1) / 2 = (i - 1) / 2
      · rw [if_pos hjp]
        have := ho1 j hj h1 hji
        rw [hjp] at this
        exact BitVec.le_trans hle this
      · rw [if_neg hjp]
        by_cases hjc : (j - 1) / 2 = i
        · rw [if_pos hjc]; exact ho2 j hj h1 hjc (by omega)
        · rw [if_neg hjc]; exact ho1 j hj h1 hji
  · intro j hj h1 hjp h1p
    rw [heapSwap_length] at hj
    have hg := ho1 ((i - 1) / 2) hpl h1p (by omega)
    simp only [keyAt, heapAt_heapSwap hi hpl]
    rw [if_neg (by omega), if_neg (by omega), if_neg (by omega)]
    by_cases hji : j = i
    · rw [if_pos hji]; exact hg
    · rw [if_neg hji]
      have := ho1 j hj h1 hji
      rw [hjp] at this
      exact BitVec.le_trans hg this

theorem siftUp_perm (fuel : Nat) : ∀ (i : Nat) (h : List Elem), i < h.length → (siftUp fuel i h).Perm h := by
  induction fuel with
  | zero => intro i h _; exact List.Perm.refl _
  | succ n ih =>
    intro i h hi
    rw [siftUp]
    split
    · exact List.Perm.refl _
    · split
      · have hp : (i - 1) / 2 < h.length := by omega
        exact (ih _ _ (by simpa using hp)).trans (heapSwap_perm hi hp)
      · exact List.Perm.refl _

theorem siftUp_ordered (fuel : Nat) :
    ∀ (i : Nat) (h : List Elem), i < h.length → i ≤ fuel → upOrdered h i → heapOrdered (siftUp fuel i h) := by
  induction fuel with
  | zero =>
    intro i h _ hf ho j hj h1
    exact ho.1 j hj h1 (by omega)
  | succ n ih =>
    intro i h hi hf ho
    rw [siftUp]
    split
    · next h0 => intro j hj h1; exact ho.1 j hj h1 (by omega)
    · next h0 =>
      split
      · next hk =>
        exact ih _ _ (by rw [heapSwap_length]; omega) (by omega) (upOrdered_swap hi h0 hk ho)
      · next hk =>
        intro j hj h1
        by_cases hji : j = i
        · subst hji; exact BitVec.not_lt.1 hk
        · exact ho.1 j hj h1 hji

theorem ancestor_succ (k : Nat) : ∀ i, ancestor (k + 1) i = (ancestor k i - 1) / 2 := by
  induction k with
  | zero => intro i; rfl
  | succ k ih => intro i; exact ih ((i - 1) / 2)

theorem ancestor_le (k : Nat) : ∀ i, ancestor k i ≤ i := by
  induction k with
  | zero => intro i; exact Nat.le_refl _
  | succ k ih => intro i; exact Nat.le_trans (ih _) (by omega)

@[simp] theorem siftUp_length (fuel : Nat) : ∀ (i : Nat) (h : List Elem), (siftUp fuel i h).length = h.length := by
  induction fuel with
  | zero => intro i h; rfl
  | succ n ih =>
    intro i h
    rw [siftUp]
    split
    · rfl
    · split
      · rw [ih, heapSwap_length]
      · rfl

/-- What sift_up does to each slot: the element of slot i moves up past the ancestors with a strictly larger key, which
come down one level each, and stops below the first other one (40_priority_queue.md R133, R135). -/
theorem siftUp_trace (fuel : Nat) :
    ∀ (i : Nat) (h : List Elem), i < h.length → i ≤ fuel → ∃ m,
      (∀ k < m, ancestor k i ≠ 0 ∧ keyAt h i < keyAt h (ancestor (k + 1) i) ∧
        heapAt (siftUp fuel i h) (ancestor k i) = heapAt h (ancestor (k + 1) i)) ∧
      heapAt (siftUp fuel i h) (ancestor m i) = heapAt h i ∧
      (ancestor m i ≠ 0 → keyAt h (ancestor (m + 1) i) ≤ keyAt h i) ∧
      ∀ j, (∀ k ≤ m, j ≠ ancestor k i) → heapAt (siftUp fuel i h) j = heapAt h j := by
  induction fuel with
  | zero =>
    intro i h _ hf
    obtain rfl : i = 0 := by omega
    exact ⟨0, fun k hk => absurd hk (Nat.not_lt_zero _), rfl, fun h0 => absurd rfl h0, fun _ _ => rfl⟩
  | succ n ih =>
    intro i h hi hf
    rw [siftUp]
    by_cases h0 : i = 0
    · rw [if_pos h0]
      exact ⟨0, fun k hk => absurd hk (Nat.not_lt_zero _), rfl, fun hne => absurd h0 hne, fun _ _ => rfl⟩
    · rw [if_neg h0]
      by_cases hk : (heapAt h i).key < (heapAt h ((i - 1) / 2)).key
      · rw [if_pos hk]
        have hp : (i - 1) / 2 < h.length := by omega
        obtain ⟨m, g1, g2, g3, g4⟩ := ih ((i - 1) / 2) (heapSwap h i ((i - 1) / 2)) (by rw [heapSwap_length]; exact hp) (by omega)
        have hsw := heapAt_heapSwap hi hp
        have hpi : heapAt (heapSwap h i ((i - 1) / 2)) ((i - 1) / 2) = heapAt h i := by rw [hsw, if_pos rfl]
        have hup : ∀ k, ancestor k ((i - 1) / 2) ≠ 0 →
            heapAt (heapSwap h i ((i - 1) / 2)) (ancestor (k + 1) ((i - 1) / 2)) =
              heapAt h (ancestor (k + 1) ((i - 1) / 2)) := by
          intro k hne
          have h1 := ancestor_le k ((i - 1) / 2)
          rw [hsw, ancestor_succ, if_neg (by omega), if_neg (by omega)]
        simp only [keyAt] at g1 g2 g3 g4 ⊢
        rw [hpi] at g1 g2 g3
        refine ⟨m + 1, ?_, g2, ?_, ?_⟩
        · intro k hkm
          rcases k with _ | k
          · refine ⟨h0, hk, ?_⟩
            rw [show ancestor 0 i = i from rfl, show ancestor (0 + 1) i = (i - 1) / 2 from rfl,
              g4 i fun k _ he => by have := ancestor_le k ((i - 1) / 2); omega, hsw, if_neg (by omega), if_pos rfl]
          · obtain ⟨q1, q2, q3⟩ := g1 k (by omega)
            rw [hup k q1] at q2 q3
            exact ⟨q1, q2, q3⟩
        · intro hne
          have := g3 hne
          rwa [hup m hne] at this
        · intro j hj
          have hji : j ≠ i := hj 0 (by omega)
          have hjp : j ≠ (i - 1) / 2 := hj 1 (by omega)
          rw [g4 j fun k hkm => hj (k + 1) (by omega), hsw, if_neg hjp, if_neg hji]
      · rw [if_neg hk]
        exact ⟨0, fun k hk => absurd hk (Nat.not_lt_zero _), rfl, fun _ => BitVec.not_lt.1 hk, fun _ _ => rfl⟩

/-! ### HeapInsert -/

/-- HeapInsert into a queue that is full: QUEUE_OVERFLOW, nothing changed. -/
theorem heapInsert_full {cap : Nat} {e : Elem} {h : List Elem} (hc : cap ≤ h.length) :
    heapInsert cap e h = .err .queueOverflow h := by
  simp [heapInsert, hc]

/-- HeapInsert into a queue that is not full: the same queue whatever the capacity. -/
theorem heapInsert_room {cap : Nat} {e : Elem} {h : List Elem} (hc : h.length < cap) :
    heapInsert cap e h = .ok () (siftUp h.length h.length (h ++ [e])) := by
  simp [heapInsert, Nat.not_le.2 hc]

/-- What HeapInsert does to a queue that is not full: it adds the element and keeps the heap order; what it leaves does not
depend on the capacity. -/
theorem heapInsert_spec (e : Elem) (h : List Elem) :
    ∃ h', (∀ cap, h.length < cap → heapInsert cap e h = .ok () h') ∧ h'.Perm (e :: h) ∧
      (heapOrdered h → heapOrdered h') := by
  refine ⟨_, fun cap hc => heapInsert_room hc, ?_, ?_⟩
  · exact (siftUp_perm _ _ _ (by simp)).trans List.perm_append_comm
  · intro ho
    refine siftUp_ordered _ _ _ (by simp) (Nat.le_refl _) ⟨?_, ?_⟩
    · intro j hj h1 hne
      rw [List.length_append, List.length_singleton] at hj
      have hj' : j < h.length := by omega
      rw [keyAt, keyAt, heapAt_append_left (by omega), heapAt_append_left hj']
      exact ho j hj' h1
    · intro j hj h1 hjp h1p
      rw [List.length_append, List.length_singleton] at hj
      omega

/-! ### sift_down -/

/-- The child choice of sift_down: a live child with a strictly smaller key, no child's key below it, or the slot
itself. -/
theorem minChild_spec (h : List Elem) (i : Nat) :
    (minChild h i = i ∨
      ((minChild h i = 2 * i + 1 ∨ minChild h i = 2 * i + 2) ∧ minChild h i < h.length ∧
        keyAt h (minChild h i) < keyAt h i)) ∧
    ∀ c, c = 2 * i + 1 ∨ c = 2 * i + 2 → c < h.length → keyAt h (minChild h i) ≤ keyAt h c := by
  unfold minChild
  simp only [keyAt]
  by_cases h1 : 2 * i + 1 < h.length ∧ (heapAt h (2 * i + 1)).key < (heapAt h i).key
  · rw [if_pos h1]
    by_cases h2 : 2 * i + 2 < h.length ∧ (heapAt h (2 * i + 2)).key < (heapAt h (2 * i + 1)).key
    · rw [if_pos h2]
      refine ⟨.inr ⟨.inr rfl, h2.1, BitVec.lt_trans h2.2 h1.2⟩, ?_⟩
      rintro c (rfl | rfl) hc
      · exact BitVec.le_of_lt h2.2
      · exact BitVec.le_refl _
    · rw [if_neg h2]
      refine ⟨.inr ⟨.inl rfl, h1.1, h1.2⟩, ?_⟩
      rintro c (rfl | rfl) hc
      · exact BitVec.le_refl _
      · exact BitVec.not_lt.1 fun hl => h2 ⟨hc, hl⟩
  · rw [if_neg h1]
    by_cases h2 : 2 * i + 2 < h.length ∧ (heapAt h (2 * i + 2)).key < (heapAt h i).key
    · rw [if_pos h2]
      refine ⟨.inr ⟨.inr rfl, h2.1, h2.2⟩, ?_⟩
      rintro c (rfl | rfl) hc
      · exact BitVec.le_trans (BitVec.le_of_lt h2.2) (BitVec.not_lt.1 fun hl => h1 ⟨hc, hl⟩)
      · exact BitVec.le_refl _
    · rw [if_neg h2]
      refine ⟨.inl rfl, ?_⟩
      rintro c (rfl | rfl) hc
      · exact BitVec.not_lt.1 fun hl => h1 ⟨hc, hl⟩
      · exact BitVec.not_lt.1 fun hl => h2 ⟨hc, hl⟩

/-- The child choice, when it is a child, is the one the element gives way to (40_priority_queue.md R134, R135). -/
theorem minChild_givesWay {h : List Elem} {i : Nat} (hm : minChild h i ≠ i) :
    givesWay h (keyAt h i) i (minChild h i) := by
  unfold minChild at hm ⊢
  simp only [keyAt] at hm ⊢
  by_cases h1 : 2 * i + 1 < h.length ∧ (heapAt h (2 * i + 1)).key < (heapAt h i).key
  · rw [if_pos h1] at hm ⊢
    by_cases h2 : 2 * i + 2 < h.length ∧ (heapAt h (2 * i + 2)).key < (heapAt h (2 * i + 1)).key
    · rw [if_pos h2]
      exact ⟨h2.1, BitVec.lt_trans h2.2 h1.2, .inr ⟨rfl, h2.2⟩⟩
    · rw [if_neg h2]
      exact ⟨h1.1, h1.2, .inl ⟨rfl, fun hc => BitVec.not_lt.1 fun hl => h2 ⟨hc, hl⟩⟩⟩
  · rw [if_neg h1] at hm ⊢
    by_cases h2 : 2 * i + 2 < h.length ∧ (heapAt h (2 * i + 2)).key < (heapAt h i).key
    · rw [if_pos h2]
      have hle := BitVec.not_lt.1 fun hl => h1 ⟨by omega, hl⟩
      exact ⟨h2.1, h2.2, .inr ⟨rfl, BitVec.lt_def.2 (Nat.lt_of_lt_of_le (BitVec.lt_def.1 h2.2) (BitVec.le_def.1 hle))⟩⟩
    · rw [if_neg h2] at hm
      exact absurd rfl hm

/-- A slot gives way to one of its children, which lies behind it. -/
theorem givesWay_child {h : List Elem} {k : Word} {i c : Nat} (hg : givesWay h k i c) :
    (c = 2 * i + 1 ∨ c = 2 * i + 2) ∧ c < h.length ∧ (heapAt h c).key < k := by
  obtain ⟨h1, h2, ⟨h3, -⟩ | ⟨h3, -⟩⟩ := hg
  · exact ⟨.inl h3, h1, h2⟩
  · exact ⟨.inr h3, h1, h2⟩

@[simp] theorem siftDown_length (fuel : Nat) : ∀ (i : Nat) (h : List Elem), (siftDown fuel i h).length = h.length := by
  induction fuel with
  | zero => intro i h; rfl
  | succ n ih =>
    intro i h
    rw [siftDown]
    split
    · rfl
    · rw [ih, heapSwap_length]

/-- What sift_down does to each slot: the element of slot i moves down past the children it gives way to, which come up
one level each, and stops where no child has a strictly smaller key (40_priority_queue.md R134, R135). -/
theorem siftDown_trace (fuel : Nat) :
    ∀ (i : Nat) (h : List Elem), i < h.length → h.length ≤ i + fuel → ∃ (path : Nat → Nat) (m : Nat), path 0 = i ∧
      (∀ k ≤ m, i ≤ path k ∧ path k < h.length) ∧
      (∀ k < m, givesWay h (keyAt h i) (path k) (path (k + 1)) ∧
        heapAt (siftDown fuel i h) (path k) = heapAt h (path (k + 1))) ∧
      heapAt (siftDown fuel i h) (path m) = heapAt h i ∧
      (∀ c < h.length, c = 2 * path m + 1 ∨ c = 2 * path m + 2 → keyAt h i ≤ keyAt h c) ∧
      ∀ j, (∀ k ≤ m, j ≠ path k) → heapAt (siftDown fuel i h) j = heapAt h j := by
  induction fuel with
  | zero => intro i h hi hf; omega
  | succ n ih =>
    intro i h hi hf
    rw [siftDown]
    by_cases he : minChild h i = i
    · rw [if_pos he]
      refine ⟨fun _ => i, 0, rfl, fun _ _ => ⟨Nat.le_refl _, hi⟩, fun k hk => absurd hk (Nat.not_lt_zero _), rfl, ?_,
        fun _ _ => rfl⟩
      intro c hc hcc
      have := (minChild_spec h i).2 c hcc hc
      rwa [he] at this
    · rw [if_neg he]
      have hg := minChild_givesWay he
      obtain ⟨hc, hcl, hck⟩ := givesWay_child hg
      generalize minChild h i = c at *
      obtain ⟨path, m, g0, gb, g1, g2, g3, g4⟩ := ih c (heapSwap h i c) (by rw [heapSwap_length]; exact hcl)
        (by rw [heapSwap_length]; omega)
      have hsw := heapAt_heapSwap hi hcl
      have hci : heapAt (heapSwap h i c) c = heapAt h i := by rw [hsw, if_pos rfl]
      have hbelow : ∀ j, c < j → heapAt (heapSwap h i c) j = heapAt h j := fun j hj => by
        rw [hsw, if_neg (by omega), if_neg (by omega)]
      rw [heapSwap_length] at gb g3
      simp only [keyAt] at g1 g2 g3 g4 hg ⊢
      rw [hci] at g1 g2 g3
      refine ⟨fun k => if k = 0 then i else path (k - 1), m + 1, rfl, ?_, ?_, ?_, ?_, ?_⟩
      · intro k hk
        rcases k with _ | k
        · exact ⟨Nat.le_refl _, hi⟩
        · have := gb k (by omega)
          exact ⟨by show i ≤ path k; omega, this.2⟩
      · intro k hk
        rcases k with _ | k
        · show givesWay h _ i (path 0) ∧ heapAt _ i = heapAt h (path 0)
          rw [g0]
          refine ⟨hg, ?_⟩
          rw [g4 i fun k hk he => by have := gb k hk; omega, hsw, if_neg (by omega), if_pos rfl]
        · show givesWay h _ (path k) (path (k + 1)) ∧ heapAt _ (path k) = heapAt h (path (k + 1))
          obtain ⟨q1, q2⟩ := g1 k (by omega)
          have hk1 := gb k (by omega)
          obtain ⟨qc, -, -⟩ := givesWay_child q1
          rw [hbelow (path (k + 1)) (by omega)] at q2
          refine ⟨?_, q2⟩
          unfold givesWay at q1 ⊢
          rwa [heapSwap_length, hbelow _ (by omega), hbelow (2 * path k + 1) (by omega),
            hbelow (2 * path k + 2) (by omega)] at q1
      · exact g2
      · intro j hj hjc
        have hm1 := gb m (Nat.le_refl _)
        have := g3 j hj hjc
        have hjc' : j = 2 * path m + 1 ∨ j = 2 * path m + 2 := hjc
        rwa [hbelow j (by omega)] at this
      · intro j hj
        have hji : j ≠ i := hj 0 (by omega)
        have hjc : j ≠ c := by have := hj 1 (by omega); rw [← g0]; exact this
        rw [g4 j fun k hk => hj (k + 1) (by omega), hsw, if_neg hjc, if_neg hji]

/-- Heap order everywhere but between slot i and its children. -/
def downOrdered (h : List Elem) (i : Nat) : Prop :=
  (∀ j < h.length, 1 ≤ j → (j - 1) / 2 ≠ i → keyAt h ((j - 1) / 2) ≤ keyAt h j) ∧
    ∀ j < h.length, 1 ≤ j → (j - 1) / 2 = i → 1 ≤ i → keyAt h ((i - 1) / 2) ≤ keyAt h j

theorem downOrdered_swap {h : List Elem} {i m : Nat} (hi : i < h.length) (hm : m = 2 * i + 1 ∨ m = 2 * i + 2)
    (hml : m < h.length) (hk : keyAt h m < keyAt h i)
    (hmin : ∀ c, c = 2 * i + 1 ∨ c = 2 * i + 2 → c < h.length → keyAt h m ≤ keyAt h c) (ho : downOrdered h i) :
    downOrdered (heapSwap h i m) m := by
  obtain ⟨ho1, ho2⟩ := ho
  have hpm : (m - 1) / 2 = i := by omega
  constructor
  · intro j hj h1 hne
    rw [heapSwap_length] at hj
    simp only [keyAt, heapAt_heapSwap hi hml]
    rw [if_neg hne]
    by_cases hjm : j = m
    · subst hjm
      rw [if_pos hpm, if_pos rfl]
      exact BitVec.le_of_lt hk
    · rw [if_neg hjm]
      by_cases hji : j = i
      · subst hji
        rw [if_neg (by omega), if_pos rfl]
        exact ho2 m hml (by omega) hpm h1
      · rw [if_neg hji]
        by_cases hjc : (j - 1) / 2 = i
        · rw [if_pos hjc]; exact hmin j (by omega) hj
        · rw [if_neg hjc]; exact ho1 j hj h1 hjc
  · intro j hj h1 hjp h1m
    rw [heapSwap_length] at hj
    simp only [keyAt, heapAt_heapSwap hi hml]
    rw [hpm, if_neg (by omega), if_pos rfl, if_neg (by omega), if_neg (by omega)]
    have := ho1 j hj h1 (by omega)
    rwa [hjp] at this

theorem siftDown_perm (fuel : Nat) : ∀ (i : Nat) (h : List Elem), i < h.length → (siftDown fuel i h).Perm h := by
  induction fuel with
  | zero => intro i h _; exact List.Perm.refl _
  | succ n ih =>
    intro i h hi
    rw [siftDown]
    split
    · exact List.Perm.refl _
    · next hne =>
      obtain ⟨-, hml, -⟩ := (minChild_spec h i).1.resolve_left hne
      exact (ih _ _ (by simpa using hml)).trans (heapSwap_perm hi hml)

theorem siftDown_ordered (fuel : Nat) :
    ∀ (i : Nat) (h : List Elem), i < h.length → h.length ≤ i + fuel → downOrdered h i →
      heapOrdered (siftDown fuel i h) := by
  induction fuel with
  | zero => intro i h hi hf; omega
  | succ n ih =>
    intro i h hi hf ho
    rw [siftDown]
    obtain ⟨hc, hmin⟩ := minChild_spec h i
    split
    · next he =>
      intro j hj h1
      by_cases hji : (j - 1) / 2 = i
      · have := hmin j (by omega) hj
        rw [he] at this
        rw [hji]; exact this
      · exact ho.1 j hj h1 hji
    · next hne =>
      obtain ⟨hm, hml, hk⟩ := hc.resolve_left hne
      exact ih _ _ (by simpa using hml) (by rw [heapSwap_length]; omega)
        (downOrdered_swap hi hm hml hk hmin ho)

/-! ### HeapExtract -/

/-- HeapExtract from an empty queue: QUEUE_UNDERFLOW, nothing changed. -/
theorem heapExtract_empty : heapExtract [] = .err .queueUnderflow [] := rfl

theorem heapRemoveRoot_perm {h : List Elem} (hn : h ≠ []) : (heapAt h 0 :: heapRemoveRoot h).Perm h := by
  obtain ⟨init, last, rfl⟩ : ∃ init last, h = init ++ [last] := ⟨_, _, (List.dropLast_concat_getLast hn).symm⟩
  unfold heapRemoveRoot
  simp only [List.dropLast_concat]
  split
  · next h0 =>
    obtain rfl := List.length_eq_zero_iff.1 h0
    exact List.Perm.refl _
  · next h0 =>
    obtain ⟨x, xs, rfl⟩ := List.exists_cons_of_length_pos (Nat.pos_of_ne_zero h0)
    have hlast : heapAt (x :: xs ++ [last]) ((x :: xs ++ [last]).length - 1) = last :=
      heapAt_eq_of_getElem? (by simp)
    rw [hlast, show heapAt (x :: xs ++ [last]) 0 = x from rfl, List.set_cons_zero]
    refine ((siftDown_perm _ 0 (last :: xs) (by simp)).cons x).trans ?_
    rw [List.cons_append]
    exact (List.perm_append_comm (l₁ := [last]) (l₂ := xs)).cons x

theorem heapRemoveRoot_ordered {h : List Elem} (ho : heapOrdered h) : heapOrdered (heapRemoveRoot h) := by
  unfold heapRemoveRoot
  simp only []
  split
  · next h0 => intro i hi; omega
  · next h0 =>
    refine siftDown_ordered _ 0 _ (by rw [List.length_set]; omega) (by rw [List.length_set]; omega) ⟨?_, ?_⟩
    · intro j hj h1 hne
      rw [List.length_set] at hj
      have hjl : j < h.length := by rw [List.length_dropLast] at hj; omega
      have aux : ∀ k, k ≠ 0 → k < h.dropLast.length →
          heapAt (h.dropLast.set 0 (heapAt h (h.length - 1))) k = heapAt h k := by
        intro k hk hkl
        have hkl' : k < h.length := by rw [List.length_dropLast] at hkl; omega
        rw [heapAt_of_lt (by rw [List.length_set]; exact hkl), heapAt_of_lt hkl', List.getElem_set_ne (Ne.symm hk),
          List.getElem_dropLast]
      rw [keyAt, keyAt, aux _ hne (by omega), aux j (by omega) hj]
      exact ho j hjl h1
    · intro j hj h1 hjp h1p; omega

/-- What HeapExtract does to a queue that is not empty: it takes the root, the rest stays, and the heap order is kept. -/
theorem heapExtract_spec {h : List Elem} (hn : h ≠ []) :
    ∃ h', heapExtract h = .ok (heapAt h 0) h' ∧ (heapAt h 0 :: h').Perm h ∧ (heapOrdered h → heapOrdered h') := by
  refine ⟨heapRemoveRoot h, ?_, heapRemoveRoot_perm hn, heapRemoveRoot_ordered⟩
  have : h.length ≠ 0 := fun h0 => hn (List.length_eq_zero_iff.1 h0)
  simp [heapExtract, this]

/-- The root of a queue in heap order is a minimum of the elements held (40_priority_queue.md R142). -/
theorem heapOrdered_root_min {h : List Elem} (ho : heapOrdered h) : ∀ x ∈ h, (heapAt h 0).key ≤ x.key := by
  intro x hx
  obtain ⟨i, hi, rfl⟩ := List.getElem_of_mem hx
  have := heapOrdered_root_le ho i hi
  rwa [keyAt, keyAt, heapAt_of_lt hi] at this

end Sys2Proof.Machine
end

