-- ==== Sys2Proof/Laws/Tables.lean ====
section
/-! SUPPORT. The frequency and code tables as functions of a byte: reading after writing, equality of tables, and loops
over all byte values. -/

namespace Sys2Proof.Machine

theorem freqAt_freqSet_self (tbl : Vector Word 256) (b : Byte) (v : Word) : freqAt (freqSet tbl b v) b = v := by
  simp [freqAt, freqSet]

theorem freqAt_freqSet_ne (tbl : Vector Word 256) {b c : Byte} (v : Word) (h : c ≠ b) :
    freqAt (freqSet tbl b v) c = freqAt tbl c := by
  have hn : b.toNat ≠ c.toNat := fun e => h (BitVec.eq_of_toNat_eq e.symm)
  simp [freqAt, freqSet, hn]

theorem freqAt_freqSet (tbl : Vector Word 256) (b c : Byte) (v : Word) :
    freqAt (freqSet tbl b v) c = if c = b then v else freqAt tbl c := by
  split
  · next h => subst h; exact freqAt_freqSet_self tbl c v
  · next h => exact freqAt_freqSet_ne tbl v h

@[simp] theorem freqAt_zeroFreq (b : Byte) : freqAt zeroFreq b = 0#32 := by simp [freqAt, zeroFreq]

theorem freq_ext {f g : Vector Word 256} (h : ∀ b : Byte, freqAt f b = freqAt g b) : f = g := by
  apply Vector.ext
  intro i hi
  have := h (BitVec.ofNat 8 i)
  simpa [freqAt, Nat.mod_eq_of_lt hi] using this

theorem codeAt_codeSet_self (tbl : Vector CodeEntry 256) (b : Byte) (e : CodeEntry) :
    codeAt (codeSet tbl b e) b = e := by
  simp [codeAt, codeSet]

theorem codeAt_codeSet_ne (tbl : Vector CodeEntry 256) {b c : Byte} (e : CodeEntry) (h : c ≠ b) :
    codeAt (codeSet tbl b e) c = codeAt tbl c := by
  have hn : b.toNat ≠ c.toNat := fun e => h (BitVec.eq_of_toNat_eq e.symm)
  simp [codeAt, codeSet, hn]

theorem codeAt_codeSet (tbl : Vector CodeEntry 256) (b c : Byte) (e : CodeEntry) :
    codeAt (codeSet tbl b e) c = if c = b then e else codeAt tbl c := by
  split
  · next h => subst h; exact codeAt_codeSet_self tbl c e
  · next h => exact codeAt_codeSet_ne tbl e h

@[simp] theorem codeAt_emptyCode (b : Byte) : codeAt emptyCode b = { len := 0#8, cw := 0#256 } := by
  simp [codeAt, emptyCode]

theorem codeLegal_emptyCode : codeLegal emptyCode := fun b j _ => by
  rw [codeAt_emptyCode]; exact BitVec.getLsbD_zero

/-! ### All byte values -/

@[simp] theorem allBytes_length : allBytes.length = 256 := by simp [allBytes]

theorem allBytes_getElem (i : Nat) (h : i < allBytes.length) : allBytes[i] = BitVec.ofNat 8 i := by
  simp [allBytes]

theorem mem_allBytes (b : Byte) : b ∈ allBytes := by
  simp only [allBytes, List.mem_map, List.mem_range]
  exact ⟨b.toNat, b.isLt, by simp⟩

theorem allBytes_nodup : allBytes.Nodup := by
  rw [allBytes, List.nodup_map_iff_inj_on List.nodup_range]
  intro x hx y hy h
  have hx' := List.mem_range.1 hx
  have hy' := List.mem_range.1 hy
  have := congrArg BitVec.toNat h
  simpa [Nat.mod_eq_of_lt hx', Nat.mod_eq_of_lt hy'] using this

theorem map_freqAt_allBytes (f : Vector Word 256) : allBytes.map (freqAt f) = f.toList := by
  apply List.ext_getElem
  · simp
  · intro i h1 h2
    have hi : i < 256 := by simpa using h1
    simp [allBytes_getElem, freqAt, Nat.mod_eq_of_lt hi]

theorem map_codeAt_allBytes (c : Vector CodeEntry 256) : allBytes.map (codeAt c) = c.toList := by
  apply List.ext_getElem
  · simp
  · intro i h1 h2
    have hi : i < 256 := by simpa using h1
    simp [allBytes_getElem, codeAt, Nat.mod_eq_of_lt hi]

/-- The exact sum of the counts, over the byte values. -/
theorem freqSum_eq (f : Vector Word 256) : freqSum f = (allBytes.map fun b => (freqAt f b).toNat).sum := by
  rw [freqSum, ← map_freqAt_allBytes, List.map_map]; rfl

/-- Replacing one term of a sum over distinct indices. -/
theorem sum_map_update {α : Type} [DecidableEq α] (l : List α) (hn : l.Nodup) (g h : α → Nat) (a : α) (ha : a ∈ l)
    (hne : ∀ x ∈ l, x ≠ a → h x = g x) : (l.map h).sum + g a = (l.map g).sum + h a := by
  induction l with
  | nil => simp at ha
  | cons x xs ih =>
    rw [List.nodup_cons] at hn
    simp only [List.map_cons, List.sum_cons]
    rcases List.mem_cons.1 ha with rfl | hm
    · have : xs.map h = xs.map g :=
        List.map_congr_left fun y hy => hne y (List.mem_cons_of_mem _ hy) fun e => hn.1 (e ▸ hy)
      rw [this]; omega
    · have hx : h x = g x := hne x List.mem_cons_self fun e => hn.1 (e ▸ hm)
      have := ih hn.2 hm fun y hy => hne y (List.mem_cons_of_mem _ hy)
      omega

/-- Adding 1 to one count adds 1 to the sum. -/
theorem freqSum_freqSet_succ (f : Vector Word 256) (b : Byte) (h : (freqAt f b).toNat + 1 < 2 ^ 32) :
    freqSum (freqSet f b (freqAt f b + 1#32)) = freqSum f + 1 := by
  rw [freqSum_eq, freqSum_eq]
  have := sum_map_update allBytes allBytes_nodup (fun c => (freqAt f c).toNat)
    (fun c => (freqAt (freqSet f b (freqAt f b + 1#32)) c).toNat) b (mem_allBytes b)
    (fun x _ hx => congrArg BitVec.toNat (freqAt_freqSet_ne f _ hx))
  have hs : (freqAt f b + 1#32).toNat = (freqAt f b).toNat + 1 := by
    rw [BitVec.toNat_add]; exact Nat.mod_eq_of_lt h
  simp only [freqAt_freqSet_self, hs] at this
  omega

theorem le_freqSum (f : Vector Word 256) (b : Byte) : (freqAt f b).toNat ≤ freqSum f := by
  rw [freqSum_eq]
  exact List.single_le_sum (by simp) _ (List.mem_map.2 ⟨b, mem_allBytes b, rfl⟩)

@[simp] theorem freqSum_zeroFreq : freqSum zeroFreq = 0 := by
  rw [freqSum_eq]
  exact List.sum_eq_zero fun x hx => by
    obtain ⟨b, -, rfl⟩ := List.mem_map.1 hx
    exact congrArg BitVec.toNat (freqAt_zeroFreq b)

/-- Validate answers the sum exactly on valid counts (41_tree_builder.md R164). -/
theorem validate_eq_some {f : Vector Word 256} {n : Nat} : validate f = some n ↔ countsValid f ∧ n = freqSum f := by
  have hany : (f.toList.any fun c => decide (0x80000000 ≤ c.toNat)) = true ↔
      ∃ b : Byte, 0x80000000 ≤ (freqAt f b).toNat := by
    rw [← map_freqAt_allBytes, List.any_eq_true]
    constructor
    · rintro ⟨c, hc, h⟩
      obtain ⟨b, -, rfl⟩ := List.mem_map.1 hc
      exact ⟨b, by simpa using h⟩
    · rintro ⟨b, h⟩
      exact ⟨freqAt f b, List.mem_map.2 ⟨b, mem_allBytes b, rfl⟩, by simpa using h⟩
  unfold validate countsValid
  rw [← freqSum_eq]
  split
  · next h =>
    obtain ⟨b, hb⟩ := hany.1 h
    simp only [reduceCtorEq, false_iff, not_and]
    intro h2
    have := h2.1 b
    omega
  · next h =>
    have h' : ∀ b : Byte, (freqAt f b).toNat < 0x80000000 := by
      intro b; by_contra hc; exact h (hany.2 ⟨b, by omega⟩)
    split
    · next h2 => simp only [reduceCtorEq, false_iff, not_and]; intro h3; omega
    · next h2 =>
      simp only [Option.some.injEq]
      exact ⟨fun e => ⟨⟨h', by omega⟩, e.symm⟩, fun e => e.2.symm⟩

theorem validate_eq_none {f : Vector Word 256} : validate f = none ↔ ¬ countsValid f := by
  constructor
  · intro h hv
    have := validate_eq_some.2 ⟨hv, rfl⟩
    simp [h] at this
  · intro h
    cases hv : validate f with
    | none => rfl
    | some n => exact absurd (validate_eq_some.1 hv).1 h

theorem countsValid_of_sum {f : Vector Word 256} (h : freqSum f ≤ Config.maxTotal) : countsValid f := by
  refine ⟨fun b => ?_, by rwa [← freqSum_eq]⟩
  have := le_freqSum f b
  simp only [Config.maxTotal] at h
  omega

theorem mem_symbolsOf {f : Vector Word 256} {b : Byte} : b ∈ symbolsOf f ↔ freqAt f b ≠ 0#32 := by
  simp [symbolsOf, mem_allBytes]

theorem symbolsOf_nodup (f : Vector Word 256) : (symbolsOf f).Nodup := allBytes_nodup.filter _

theorem symbolsOf_length_le (f : Vector Word 256) : (symbolsOf f).length ≤ 256 := by
  have := List.length_filter_le (fun b => freqAt f b != 0#32) allBytes
  simpa [symbolsOf] using this

end Sys2Proof.Machine
end

