-- ==== Sys2Proof/Laws/Tree.lean ====
section
/-! SUPPORT. TreeBuild: it never raises after Validate, it does not depend on the capacity, and the tree it leaves
(41_tree_builder.md R165-R169, R172-R174). -/

namespace Sys2Proof.Machine

theorem nodeAt_of_getElem? {ns : List Node} {i : Nat} {nd : Node} (h : ns[i]? = some nd) : nodeAt ns i = nd := by
  simp [nodeAt, List.getD_eq_getElem?_getD, h]

/-! ### Weights -/

/-- The weight of a node whose children stand before it. -/
def newWeight (f : Vector Word 256) (ns : List Node) : Node → Nat
  | .leaf b => (freqAt f b).toNat
  | .internal l r => weightAt f ns l.toNat + weightAt f ns r.toNat

theorem nodeWeights_append (f : Vector Word 256) (ns : List Node) (nd : Node) :
    nodeWeights f (ns ++ [nd]) = nodeWeights f ns ++ [newWeight f ns nd] := by
  cases nd <;> simp [nodeWeights, newWeight, weightAt, List.foldl_append]

@[simp] theorem nodeWeights_length (f : Vector Word 256) (ns : List Node) : (nodeWeights f ns).length = ns.length := by
  induction ns using List.reverseRecOn with
  | nil => rfl
  | append_singleton ns nd ih => simp [nodeWeights_append, ih]

theorem weightAt_append_of_lt (f : Vector Word 256) (ns : List Node) (nd : Node) {i : Nat} (h : i < ns.length) :
    weightAt f (ns ++ [nd]) i = weightAt f ns i := by
  rw [weightAt, weightAt, nodeWeights_append, List.getD_eq_getElem?_getD, List.getD_eq_getElem?_getD,
    List.getElem?_append_left (by simpa using h)]

theorem weightAt_append_self (f : Vector Word 256) (ns : List Node) (nd : Node) :
    weightAt f (ns ++ [nd]) ns.length = newWeight f ns nd := by
  rw [weightAt, nodeWeights_append, List.getD_eq_getElem?_getD, List.getElem?_append_right (by simp)]
  simp

theorem weightAt_leaves (f : Vector Word 256) (bs : List Byte) {i : Nat} (h : i < bs.length) :
    weightAt f (bs.map Node.leaf) i = (freqAt f bs[i]).toNat := by
  induction bs using List.reverseRecOn with
  | nil => simp at h
  | append_singleton bs b ih =>
    rw [List.map_append, List.map_singleton]
    by_cases hi : i < bs.length
    · rw [weightAt_append_of_lt f _ _ (by simpa using hi), ih hi, List.getElem_append_left hi]
    · obtain rfl : i = bs.length := by simp at h; omega
      have := weightAt_append_self f (bs.map Node.leaf) (.leaf b)
      rw [List.length_map] at this
      rw [this]
      simp [newWeight]

/-! ### The leaf loop -/

/-- The queue elements of consecutive leaves, the first at node k. -/
def leafElems (f : Vector Word 256) : Nat → List Byte → List Elem
  | _, [] => []
  | k, b :: bs => { key := freqAt f b, payload := BitVec.ofNat 9 k } :: leafElems f (k + 1) bs

@[simp] theorem leafElems_length (f : Vector Word 256) (k : Nat) (bs : List Byte) :
    (leafElems f k bs).length = bs.length := by
  induction bs generalizing k with
  | nil => rfl
  | cons b bs ih => simp [leafElems, ih]

theorem mem_leafElems {f : Vector Word 256} {k : Nat} {bs : List Byte} {e : Elem} :
    e ∈ leafElems f k bs ↔
      ∃ (i : Nat) (h : i < bs.length), e = { key := freqAt f bs[i], payload := BitVec.ofNat 9 (k + i) } := by
  induction bs generalizing k with
  | nil => simp [leafElems]
  | cons b bs ih =>
    simp only [leafElems, List.mem_cons, ih]
    constructor
    · rintro (rfl | ⟨i, h, rfl⟩)
      · exact ⟨0, by simp, rfl⟩
      · exact ⟨i + 1, by simpa using h, by simp [Nat.add_assoc, Nat.add_comm 1 i]⟩
    · rintro ⟨i, h, rfl⟩
      cases i with
      | zero => exact .inl rfl
      | succ i =>
        exact .inr ⟨i, by simpa using h, by simp [Nat.add_assoc, Nat.add_comm 1 i]⟩

theorem leafElems_payload_nodup (f : Vector Word 256) (k : Nat) (bs : List Byte) (h : k + bs.length ≤ 512) :
    ((leafElems f k bs).map (·.payload)).Nodup := by
  induction bs generalizing k with
  | nil => simp [leafElems]
  | cons b bs ih =>
    simp only [List.length_cons] at h
    simp only [leafElems, List.map_cons, List.nodup_cons, List.mem_map, not_exists, not_and]
    refine ⟨fun e he hp => ?_, ih (k + 1) (by omega)⟩
    obtain ⟨i, hi, rfl⟩ := mem_leafElems.1 he
    have := congrArg BitVec.toNat hp
    simp only [BitVec.toNat_ofNat] at this
    omega

theorem leafElems_sum (f : Vector Word 256) (k : Nat) (bs : List Byte) :
    ((leafElems f k bs).map fun e => e.key.toNat).sum = (bs.map fun b => (freqAt f b).toNat).sum := by
  induction bs generalizing k with
  | nil => rfl
  | cons b bs ih => simp [leafElems, ih]

/-- Adding a node: the queue gains its element and the node becomes live; nothing depends on the capacity. -/
theorem addNode_spec (nd : Node) (k : Word) (t : Build) :
    ∃ t', (∀ cap, t.heap.length < cap → addNode cap nd k t = .ok () t') ∧ t'.nodes = t.nodes ++ [nd] ∧
      t'.root = t.root ∧ t'.heap.Perm ({ key := k, payload := BitVec.ofNat 9 t.nodes.length } :: t.heap) ∧
      (heapOrdered t.heap → heapOrdered t'.heap) := by
  obtain ⟨h', h1, h2, h3⟩ := heapInsert_spec { key := k, payload := BitVec.ofNat 9 t.nodes.length } t.heap
  exact ⟨{ heap := h', nodes := t.nodes ++ [nd], root := t.root }, fun cap hc => by simp [addNode, h1 cap hc], rfl, rfl,
    h2, h3⟩

theorem insertLeaves_spec (f : Vector Word 256) (bs : List Byte) :
    ∀ (n : Nat) (t : Build), ∃ t',
      (∀ cap, t.heap.length + (bs.filter fun b => freqAt f b != 0#32).length ≤ cap →
        insertLeaves cap f bs n t = .ok (n + (bs.filter fun b => freqAt f b != 0#32).length) t') ∧
      t'.nodes = t.nodes ++ (bs.filter fun b => freqAt f b != 0#32).map Node.leaf ∧ t'.root = t.root ∧
      t'.heap.Perm (t.heap ++ leafElems f t.nodes.length (bs.filter fun b => freqAt f b != 0#32)) ∧
      (heapOrdered t.heap → heapOrdered t'.heap) := by
  induction bs with
  | nil => intro n t; exact ⟨t, fun cap _ => rfl, by simp, rfl, by simp [leafElems], id⟩
  | cons b bs ih =>
    intro n t
    by_cases hb : freqAt f b = 0#32
    · obtain ⟨t', h1, h2⟩ := ih n t
      rw [List.filter_cons_of_neg (by simp [hb])]
      exact ⟨t', fun cap hc => by simpa [insertLeaves, hb] using h1 cap hc, h2⟩
    · obtain ⟨t1, g1, g2, g3, g4, g5⟩ := addNode_spec (.leaf b) (freqAt f b) t
      obtain ⟨t', h1, h2, h3, h4, h5⟩ := ih (n + 1) t1
      have hl : t1.heap.length = t.heap.length + 1 := by simpa using g4.length_eq
      rw [List.filter_cons_of_pos (by simp [hb])]
      refine ⟨t', fun cap hc => ?_, ?_, h3.trans g3, ?_, fun ho => h5 (g5 ho)⟩
      · rw [List.length_cons] at hc ⊢
        rw [insertLeaves, if_neg hb, g1 cap (by omega), Res.andThen_ok, h1 cap (by omega)]
        congr 1; omega
      · rw [h2, g2, List.map_cons, List.append_assoc]; rfl
      · refine h4.trans ?_
        rw [g2, List.length_append, List.length_singleton, leafElems]
        refine (g4.append_right _).trans ?_
        rw [List.cons_append]
        exact List.perm_middle.symm

/-! ### Merging -/

/-- What holds between merges, for leaves `bs`: every node is made of earlier ones, the queue holds exactly the nodes with
no parent yet, each under its weight, no node has two parents, and every merge so far took the two lightest. -/
structure BuildInv (f : Vector Word 256) (bs : List Byte) (t : Build) : Prop where
  few : bs.length ≤ 256
  count : t.nodes.length + t.heap.length = 2 * bs.length
  leafCount : bs.length ≤ t.nodes.length
  leaves : ∀ i < bs.length, t.nodes[i]? = (bs[i]?).map Node.leaf
  internal : ∀ i, bs.length ≤ i → i < t.nodes.length →
    ∃ l r : NodeIdx, t.nodes[i]? = some (.internal l r) ∧ l.toNat < i ∧ r.toNat < i
  ordered : heapOrdered t.heap
  nodup : (t.heap.map (·.payload)).Nodup
  bound : ∀ e ∈ t.heap, e.payload.toNat < t.nodes.length
  orphan : ∀ j < t.nodes.length,
    (∃ e ∈ t.heap, e.payload.toNat = j) ↔
      ∀ (k : Nat) (l r : NodeIdx), t.nodes[k]? = some (.internal l r) → j ≠ l.toNat ∧ j ≠ r.toNat
  key : ∀ e ∈ t.heap, e.key.toNat = weightAt f t.nodes e.payload.toNat
  total : (t.heap.map fun e => e.key.toNat).sum = (bs.map fun b => (freqAt f b).toNat).sum
  greedy : ∀ (i : Nat) (l r : NodeIdx), t.nodes[i]? = some (.internal l r) →
    l ≠ r ∧ weightAt f t.nodes l.toNat ≤ weightAt f t.nodes r.toNat ∧
      ∀ j < i, j ≠ l.toNat → j ≠ r.toNat →
        (∀ k < i, ∀ l' r' : NodeIdx, t.nodes[k]? = some (.internal l' r') → j ≠ l'.toNat ∧ j ≠ r'.toNat) →
        weightAt f t.nodes r.toNat ≤ weightAt f t.nodes j
  parent : ∀ (i k : Nat) (l r l' r' : NodeIdx), t.nodes[i]? = some (.internal l r) →
    t.nodes[k]? = some (.internal l' r') → i ≠ k → l ≠ l' ∧ l ≠ r' ∧ r ≠ l' ∧ r ≠ r'
  root : t.root = Config.nil

/-- The children of an internal node stand before it. -/
theorem BuildInv.children {f : Vector Word 256} {bs : List Byte} {t : Build} (hi : BuildInv f bs t) {i : Nat}
    {l r : NodeIdx} (h : t.nodes[i]? = some (.internal l r)) : i < t.nodes.length ∧ l.toNat < i ∧ r.toNat < i := by
  have hlt : i < t.nodes.length := (List.getElem?_eq_some_iff.1 h).1
  by_cases hb : i < bs.length
  · have := hi.leaves i hb
    rw [h, List.getElem?_eq_getElem hb] at this
    simp at this
  · obtain ⟨l', r', h', hl, hr⟩ := hi.internal i (by omega) hlt
    rw [h] at h'
    simp only [Option.some.injEq, Node.internal.injEq] at h'
    obtain ⟨rfl, rfl⟩ := h'
    exact ⟨hlt, hl, hr⟩

theorem ofNat9_toNat {n : Nat} (h : n < 512) : (BitVec.ofNat 9 n).toNat = n := by
  simp only [BitVec.toNat_ofNat]; omega

/-- After the leaf loop. -/
theorem insertLeaves_inv (f : Vector Word 256) :
    ∃ t, (∀ cap, 256 ≤ cap → insertLeaves cap f allBytes 0 Build.empty = .ok (symbolsOf f).length t) ∧
      BuildInv f (symbolsOf f) t ∧ t.heap.length = (symbolsOf f).length := by
  obtain ⟨t, h1, h2, h3, h4, h5⟩ := insertLeaves_spec f allBytes 0 Build.empty
  change (∀ cap, 0 + (symbolsOf f).length ≤ cap → insertLeaves cap f allBytes 0 Build.empty =
    .ok (0 + (symbolsOf f).length) t) at h1
  change t.nodes = [] ++ (symbolsOf f).map Node.leaf at h2
  change t.heap.Perm ([] ++ leafElems f 0 (symbolsOf f)) at h4
  rw [List.nil_append] at h2 h4
  have hle := symbolsOf_length_le f
  generalize symbolsOf f = bs at *
  have hlen : t.nodes.length = bs.length := by simp [h2]
  have hh : t.heap.length = bs.length := by simpa using h4.length_eq
  have hnoint : ∀ (k : Nat) (l r : NodeIdx), t.nodes[k]? ≠ some (.internal l r) := by
    intro k l r; rw [h2, List.getElem?_map]
    cases bs[k]? <;> simp
  refine ⟨t, fun cap hc => by simpa using h1 cap (by omega), ?_, hh⟩
  refine ⟨hle, by omega, by omega, fun i hi => by rw [h2, List.getElem?_map], fun i h1 h2 => absurd h1 (by omega),
    h5 (fun i hi => absurd hi (by simp [Build.empty])), ?_, ?_, ?_, ?_, ?_, fun i l r h => absurd h (hnoint i l r),
    fun i _ l r _ _ h => absurd h (hnoint i l r), h3⟩
  · exact (h4.map _).nodup_iff.2 (leafElems_payload_nodup f 0 bs (by omega))
  · intro e he
    obtain ⟨i, hi, rfl⟩ := mem_leafElems.1 (h4.mem_iff.1 he)
    rw [ofNat9_toNat (by omega)]; omega
  · intro j hj
    refine ⟨fun _ k l r h => absurd h (hnoint k l r), fun _ => ?_⟩
    exact ⟨_, h4.mem_iff.2 (mem_leafElems.2 ⟨j, by omega, rfl⟩), by rw [Nat.zero_add, ofNat9_toNat (by omega)]⟩
  · intro e he
    obtain ⟨i, hi, rfl⟩ := mem_leafElems.1 (h4.mem_iff.1 he)
    rw [Nat.zero_add, ofNat9_toNat (by omega), h2, weightAt_leaves f bs hi]
  · rw [(h4.map _).sum_eq, leafElems_sum]

theorem buildExtract_spec {t : Build} (hn : t.heap ≠ []) :
    ∃ h', buildExtract t = .ok (heapAt t.heap 0) { t with heap := h' } ∧ (heapAt t.heap 0 :: h').Perm t.heap ∧
      (heapOrdered t.heap → heapOrdered h') := by
  obtain ⟨h', h1, h2, h3⟩ := heapExtract_spec hn
  exact ⟨h', by simp [buildExtract, h1], h2, h3⟩

/-- One merge. -/
theorem mergeOnce_inv {f : Vector Word 256} {bs : List Byte} {t : Build} (hi : BuildInv f bs t)
    (hs : (bs.map fun b => (freqAt f b).toNat).sum < 2 ^ 32) (hl : 1 < t.heap.length) :
    ∃ t', (∀ cap, 256 ≤ cap → mergeOnce cap t = .ok () t') ∧ BuildInv f bs t' ∧
      t'.heap.length + 1 = t.heap.length := by
  have hn : t.heap ≠ [] := by rintro h; rw [h] at hl; simp at hl
  obtain ⟨h1, e1, p1, o1⟩ := buildExtract_spec hn
  have hl1 : h1.length + 1 = t.heap.length := by simpa using p1.length_eq
  have hn1 : ({ t with heap := h1 } : Build).heap ≠ [] := by
    rintro h; change h1 = [] at h; rw [h] at hl1; simp at hl1; omega
  obtain ⟨h2, e2, p2, o2⟩ := buildExtract_spec hn1
  change (heapAt h1 0 :: h2).Perm h1 at p2
  change heapOrdered h1 → heapOrdered h2 at o2
  change buildExtract _ = .ok (heapAt h1 0) _ at e2
  have amin : ∀ x ∈ h1, (heapAt t.heap 0).key ≤ x.key := fun x hx =>
    heapOrdered_root_min hi.ordered x (p1.mem_iff.1 (List.mem_cons_of_mem _ hx))
  have bmin : ∀ x ∈ h2, (heapAt h1 0).key ≤ x.key := fun x hx =>
    heapOrdered_root_min (o1 hi.ordered) x (p2.mem_iff.1 (List.mem_cons_of_mem _ hx))
  generalize heapAt t.heap 0 = a at *
  generalize heapAt h1 0 = b at *
  have hl2 : h2.length + 1 = h1.length := by simpa using p2.length_eq
  have perm : t.heap.Perm (a :: b :: h2) := p1.symm.trans (p2.symm.cons a)
  have hbh1 : b ∈ h1 := p2.mem_iff.1 List.mem_cons_self
  obtain ⟨t', g1, g2, g3, g4, g5⟩ :=
    addNode_spec (.internal a.payload b.payload) (a.key + b.key) { t with heap := h2 }
  change ∀ cap, h2.length < cap → _ at g1
  change t'.nodes = t.nodes ++ _ at g2
  change t'.root = t.root at g3
  change t'.heap.Perm (_ :: h2) at g4
  change heapOrdered h2 → _ at g5
  have hcount := hi.count
  have hfew := hi.few
  have hN : t.nodes.length < 512 := by omega
  have hlen' : t'.nodes.length = t.nodes.length + 1 := by simp [g2]
  have hh' : t'.heap.length = h2.length + 1 := by simpa using g4.length_eq
  have ha : a ∈ t.heap := perm.mem_iff.2 List.mem_cons_self
  have hb : b ∈ t.heap := perm.mem_iff.2 (List.mem_cons_of_mem _ List.mem_cons_self)
  have hmem2 : ∀ e ∈ h2, e ∈ t.heap := fun e he => perm.mem_iff.2 (List.mem_cons_of_mem _ (List.mem_cons_of_mem _ he))
  have hnd := (perm.map (·.payload)).nodup_iff.1 hi.nodup
  simp only [List.map_cons, List.nodup_cons, List.mem_cons, List.mem_map, not_or, not_exists, not_and] at hnd
  obtain ⟨⟨hab, ha2⟩, hb2, hnd2⟩ := hnd
  have hsum := hi.total
  rw [(perm.map fun e => e.key.toNat).sum_eq] at hsum
  simp only [List.map_cons, List.sum_cons] at hsum
  have hkey : (a.key + b.key).toNat = a.key.toNat + b.key.toNat := by
    rw [BitVec.toNat_add]; exact Nat.mod_eq_of_lt (by omega)
  have hold : ∀ k, k < t.nodes.length → t'.nodes[k]? = t.nodes[k]? := fun k hk => by
    rw [g2, List.getElem?_append_left hk]
  have hnew : t'.nodes[t.nodes.length]? = some (.internal a.payload b.payload) := by
    rw [g2, List.getElem?_append_right (Nat.le_refl _), Nat.sub_self]; rfl
  have hw : ∀ k, k < t.nodes.length → weightAt f t'.nodes k = weightAt f t.nodes k := fun k hk => by
    rw [g2, weightAt_append_of_lt f _ _ hk]
  have hab' := hi.bound a ha
  have hbb' := hi.bound b hb
  have hcases : ∀ (k : Nat) (l r : NodeIdx), t'.nodes[k]? = some (.internal l r) →
      (k < t.nodes.length ∧ t.nodes[k]? = some (.internal l r)) ∨
        (k = t.nodes.length ∧ l = a.payload ∧ r = b.payload) := by
    intro k l r hk
    have hkl : k < t'.nodes.length := (List.getElem?_eq_some_iff.1 hk).1
    by_cases hkn : k < t.nodes.length
    · exact .inl ⟨hkn, by rw [← hold k hkn]; exact hk⟩
    · obtain rfl : k = t.nodes.length := by omega
      rw [hnew] at hk
      simp only [Option.some.injEq, Node.internal.injEq] at hk
      exact .inr ⟨rfl, hk.1.symm, hk.2.symm⟩
  refine ⟨t', fun cap hc => ?_, ?_, by omega⟩
  · rw [mergeOnce, e1, Res.andThen_ok, e2, Res.andThen_ok]
    exact g1 cap (by have := hi.leafCount; omega)
  · refine ⟨hfew, by omega, by have := hi.leafCount; omega, ?_, ?_, g5 (o2 (o1 hi.ordered)), ?_, ?_, ?_, ?_, ?_, ?_, ?_,
      g3.trans hi.root⟩
    · intro i hib
      rw [hold i (by have := hi.leafCount; omega)]
      exact hi.leaves i hib
    · intro i hib hil
      by_cases hin : i < t.nodes.length
      · rw [hold i hin]; exact hi.internal i hib hin
      · obtain rfl : i = t.nodes.length := by omega
        exact ⟨_, _, hnew, hab', hbb'⟩
    · refine (g4.map (·.payload)).nodup_iff.2 ?_
      simp only [List.map_cons, List.nodup_cons, List.mem_map, not_exists, not_and]
      refine ⟨fun e he hp => ?_, hnd2⟩
      have := hi.bound e (hmem2 e he)
      rw [hp, ofNat9_toNat hN] at this
      omega
    · intro e he
      rcases List.mem_cons.1 (g4.mem_iff.1 he) with rfl | he
      · change (BitVec.ofNat 9 t.nodes.length).toNat < _
        rw [ofNat9_toNat hN]; omega
      · have := hi.bound e (hmem2 e he); omega
    · intro j hj
      by_cases hjn : j < t.nodes.length
      · constructor
        · rintro ⟨e, he, rfl⟩ k l r hk
          rcases List.mem_cons.1 (g4.mem_iff.1 he) with rfl | he
          · change (BitVec.ofNat 9 t.nodes.length).toNat < _ at hjn
            rw [ofNat9_toNat hN] at hjn; omega
          · rcases hcases k l r hk with ⟨-, hk⟩ | ⟨-, rfl, rfl⟩
            · exact (hi.orphan _ hjn).1 ⟨e, hmem2 e he, rfl⟩ k l r hk
            · exact ⟨fun h => ha2 e he (BitVec.eq_of_toNat_eq h), fun h => hb2 e he (BitVec.eq_of_toNat_eq h)⟩
        · intro h
          obtain ⟨e, he, hej⟩ := (hi.orphan j hjn).2 fun k l r hk => h k l r (by
            rw [hold k (List.getElem?_eq_some_iff.1 hk).1]; exact hk)
          obtain ⟨hja, hjb⟩ := h _ _ _ hnew
          rcases List.mem_cons.1 (perm.mem_iff.1 he) with rfl | he
          · exact absurd hej.symm hja
          · rcases List.mem_cons.1 he with rfl | he
            · exact absurd hej.symm hjb
            · exact ⟨e, g4.mem_iff.2 (List.mem_cons_of_mem _ he), hej⟩
      · obtain rfl : j = t.nodes.length := by omega
        refine ⟨fun _ k l r hk => ?_, fun _ => ⟨_, g4.mem_iff.2 List.mem_cons_self, ofNat9_toNat hN⟩⟩
        rcases hcases k l r hk with ⟨hkn, hk⟩ | ⟨-, rfl, rfl⟩
        · have := hi.children hk; omega
        · omega
    · intro e he
      rcases List.mem_cons.1 (g4.mem_iff.1 he) with rfl | he
      · change (a.key + b.key).toNat = weightAt f t'.nodes (BitVec.ofNat 9 t.nodes.length).toNat
        rw [ofNat9_toNat hN, g2, weightAt_append_self, newWeight, hkey, hi.key a ha, hi.key b hb]
      · rw [hw _ (hi.bound e (hmem2 e he))]
        exact hi.key e (hmem2 e he)
    · rw [(g4.map fun e => e.key.toNat).sum_eq]
      simp only [List.map_cons, List.sum_cons, hkey]
      omega
    · intro i l r hk
      rcases hcases i l r hk with ⟨hin, hk⟩ | ⟨rfl, rfl, rfl⟩
      · obtain ⟨-, hll, hrl⟩ := hi.children hk
        obtain ⟨q1, q2, q3⟩ := hi.greedy i l r hk
        rw [hw _ (by omega), hw _ (by omega)]
        refine ⟨q1, q2, fun j hj h1 h2 h3 => ?_⟩
        rw [hw _ (by omega)]
        exact q3 j hj h1 h2 fun k hki l' r' hk' => h3 k hki l' r' (by rw [hold k (by omega)]; exact hk')
      · rw [hw _ hab', hw _ hbb', ← hi.key a ha, ← hi.key b hb]
        refine ⟨hab, amin b hbh1, fun j hj h1 h2 h3 => ?_⟩
        obtain ⟨e, he, hej⟩ := (hi.orphan j hj).2 fun k l' r' hk' =>
          h3 k (List.getElem?_eq_some_iff.1 hk').1 l' r' (by rw [hold k (List.getElem?_eq_some_iff.1 hk').1]; exact hk')
        rw [hw _ hj, ← hej, ← hi.key e he]
        rcases List.mem_cons.1 (perm.mem_iff.1 he) with rfl | he
        · exact absurd hej.symm h1
        · rcases List.mem_cons.1 he with rfl | he
          · exact absurd hej.symm h2
          · exact bmin e he
    · have horphan : ∀ (i : Nat) (l r : NodeIdx), t.nodes[i]? = some (.internal l r) →
          l ≠ a.payload ∧ l ≠ b.payload ∧ r ≠ a.payload ∧ r ≠ b.payload := by
        intro i l r h
        obtain ⟨q1, q2⟩ := (hi.orphan _ hab').1 ⟨a, ha, rfl⟩ i l r h
        obtain ⟨q3, q4⟩ := (hi.orphan _ hbb').1 ⟨b, hb, rfl⟩ i l r h
        exact ⟨fun h => q1 (congrArg _ h.symm), fun h => q3 (congrArg _ h.symm), fun h => q2 (congrArg _ h.symm),
          fun h => q4 (congrArg _ h.symm)⟩
      intro i k l r l' r' h1 h2 hik
      rcases hcases i l r h1 with ⟨-, h1⟩ | ⟨hi1, rfl, rfl⟩ <;> rcases hcases k l' r' h2 with ⟨-, h2⟩ | ⟨hk1, rfl, rfl⟩
      · exact hi.parent i k l r l' r' h1 h2 hik
      · exact horphan i l r h1
      · obtain ⟨q1, q2, q3, q4⟩ := horphan k l' r' h2
        exact ⟨q1.symm, q3.symm, q2.symm, q4.symm⟩
      · exact absurd (hi1.trans hk1.symm) hik

theorem mergeLoop_inv {f : Vector Word 256} {bs : List Byte}
    (hs : (bs.map fun b => (freqAt f b).toNat).sum < 2 ^ 32) (fuel : Nat) :
    ∀ t : Build, BuildInv f bs t → t.heap.length ≤ fuel + 1 →
      ∃ t', (∀ cap, 256 ≤ cap → mergeLoop cap fuel t = .ok () t') ∧ BuildInv f bs t' ∧ t'.heap.length ≤ 1 ∧
        (t.heap.length ≠ 0 → t'.heap.length ≠ 0) := by
  induction fuel with
  | zero => intro t hi hf; exact ⟨t, fun _ _ => rfl, hi, by omega, id⟩
  | succ n ih =>
    intro t hi hf
    by_cases hl : 1 < t.heap.length
    · obtain ⟨t1, h1, h2, h3⟩ := mergeOnce_inv hi hs hl
      obtain ⟨t', g1, g2, g3, g4⟩ := ih t1 h2 (by omega)
      exact ⟨t', fun cap hc => by rw [mergeLoop, if_pos hl, h1 cap hc, Res.andThen_ok, g1 cap hc], g2, g3,
        fun _ => g4 (by omega)⟩
    · exact ⟨t, fun cap _ => by rw [mergeLoop, if_neg hl], hi, by omega, id⟩

/-! ### Paths -/

/-- A path goes on from where its first part leads. -/
theorem walkPath_append (ns : List Node) (i : NodeIdx) (p q : List Bool) :
    walkPath ns i (p ++ q) = (walkPath ns i p).bind fun j => walkPath ns j q := by
  induction p generalizing i with
  | nil => rfl
  | cons b p ih =>
    rw [List.cons_append, walkPath, walkPath]
    cases nodeAt ns i.toNat with
    | leaf _ => rfl
    | internal l r =>
      simp only []
      generalize (if b = true then r else l) = c
      by_cases hc : c = Config.nil
      · simp [hc]
      · simp [hc, ih]

theorem walkPath_singleton {ns : List Node} {i l r : NodeIdx} (h : ns[i.toNat]? = some (.internal l r)) (b : Bool)
    (hc : (if b then r else l) ≠ Config.nil) : walkPath ns i [b] = some (if b then r else l) := by
  rw [walkPath, nodeAt_of_getElem? h]
  simp only [walkPath]
  rw [if_neg hc]

/-- No path goes on from a leaf. -/
theorem walkPath_leaf {ns : List Node} {i : NodeIdx} {b : Byte} (h : ns[i.toNat]? = some (.leaf b)) (x : Bool)
    (p : List Bool) : walkPath ns i (x :: p) = none := by
  rw [walkPath, nodeAt_of_getElem? h]

/-! ### TreeBuild -/

/-- What TreeBuild leaves, beside the shape: every live node has a path from the root, no node has two parents, the two
children of a node differ, and every merge took the two lightest nodes left. -/
structure TreeFacts (f : Vector Word 256) (ns : List Node) (root : NodeIdx) : Prop where
  reach : ∀ j < ns.length, ∃ p, walkPath ns root p = some (BitVec.ofNat 9 j)
  greedy : ∀ (i : Nat) (l r : NodeIdx), ns[i]? = some (.internal l r) → r ≠ Config.nil →
    l ≠ r ∧ weightAt f ns l.toNat ≤ weightAt f ns r.toNat ∧
      ∀ j < i, j ≠ l.toNat → j ≠ r.toNat →
        (∀ k < i, ∀ l' r' : NodeIdx, ns[k]? = some (.internal l' r') → j ≠ l'.toNat ∧ j ≠ r'.toNat) →
        weightAt f ns r.toNat ≤ weightAt f ns j
  parent : ∀ (i k : Nat) (l r l' r' : NodeIdx), ns[i]? = some (.internal l r) →
    ns[k]? = some (.internal l' r') → i ≠ k → l ≠ l' ∧ l ≠ r' ∧ r ≠ l' ∧ r ≠ r'
  rootWeight : 2 ≤ (symbolsOf f).length → weightAt f ns root.toNat = freqSum f

theorem sum_symbolsOf (f : Vector Word 256) : ((symbolsOf f).map fun b => (freqAt f b).toNat).sum = freqSum f := by
  rw [freqSum_eq, symbolsOf]
  generalize allBytes = l
  induction l with
  | nil => rfl
  | cons b bs ih =>
    by_cases hb : freqAt f b = 0#32
    · rw [List.filter_cons_of_neg (by simp [hb]), List.map_cons, List.sum_cons, ih, hb]; simp
    · rw [List.filter_cons_of_pos (by simp [hb]), List.map_cons, List.sum_cons, List.map_cons, List.sum_cons, ih]

/-- The last step of a build with two leaves or more: the one element left is the last node made, and every node has a
path from it. -/
theorem finishTree_many {f : Vector Word 256} {bs : List Byte} {t : Build} (hi : BuildInv f bs t) (hn : 2 ≤ bs.length)
    (hl : t.heap.length = 1) :
    finishTree t = .ok () { t with heap := [], root := BitVec.ofNat 9 (2 * bs.length - 2) } ∧
      ∀ j < t.nodes.length, ∃ p, walkPath t.nodes (BitVec.ofNat 9 (2 * bs.length - 2)) p = some (BitVec.ofNat 9 j) := by
  have hcount := hi.count
  have hfew := hi.few
  obtain ⟨e, he⟩ : ∃ e, t.heap = [e] := List.length_eq_one_iff.1 hl
  have hlast : ∀ (k : Nat) (l r : NodeIdx), t.nodes[k]? = some (.internal l r) →
      2 * bs.length - 2 ≠ l.toNat ∧ 2 * bs.length - 2 ≠ r.toNat := by
    intro k l r hk; have := hi.children hk; omega
  obtain ⟨e', he', hej⟩ := (hi.orphan (2 * bs.length - 2) (by omega)).2 hlast
  rw [he, List.mem_singleton] at he'
  subst he'
  obtain ⟨l, r, hnode, -, -⟩ := hi.internal (2 * bs.length - 2) (by omega) (by omega)
  have hpay : e'.payload = BitVec.ofNat 9 (2 * bs.length - 2) :=
    BitVec.eq_of_toNat_eq (by rw [hej, ofNat9_toNat (by omega)])
  constructor
  · obtain ⟨h', h1, h2, -⟩ := buildExtract_spec (t := t) (by rw [he]; simp)
    have h0 : heapAt t.heap 0 = e' := by rw [he]; rfl
    have hh' : h' = [] := by
      have := h2.length_eq
      rw [List.length_cons, hl] at this
      exact List.length_eq_zero_iff.1 (by omega)
    rw [finishTree, if_pos hl, h1, Res.andThen_ok, h0]
    simp only []
    rw [hej, nodeAt_of_getElem? hnode]
    simp [hh', hpay]
  · intro j hj
    induction h : t.nodes.length - j using Nat.strongRecOn generalizing j with
    | ind m ih =>
      by_cases hr : j = 2 * bs.length - 2
      · subst hr; exact ⟨[], rfl⟩
      · have hno : ¬ ∃ e ∈ t.heap, e.payload.toNat = j := by
          rintro ⟨x, hx, hxj⟩
          rw [he, List.mem_singleton] at hx
          subst hx; omega
        rw [hi.orphan j hj] at hno
        push Not at hno
        obtain ⟨k, l, r, hk, hor⟩ := hno
        obtain ⟨hkl, hl1, hr1⟩ := hi.children hk
        have hjb : j = (if decide (j = l.toNat) = true then l else r).toNat := by
          by_cases hjl : j = l.toNat
          · simp [← hjl]
          · simp only [hjl, decide_false, Bool.false_eq_true, if_false]
            exact hor hjl
        have hjk : j < k := by split at hjb <;> omega
        obtain ⟨p, hp⟩ := ih (t.nodes.length - k) (by omega) k hkl rfl
        refine ⟨p ++ [!decide (j = l.toNat)], ?_⟩
        have hc : (if (!decide (j = l.toNat)) = true then r else l) = BitVec.ofNat 9 j := by
          apply BitVec.eq_of_toNat_eq
          rw [ofNat9_toNat (by omega)]
          by_cases hjl : j = l.toNat
          · simp [← hjl]
          · simp only [hjl, decide_false, Bool.not_false, if_true]
            exact (hor hjl).symm
        rw [walkPath_append, hp, Option.bind_some]
        rw [walkPath_singleton (l := l) (r := r) (by rw [ofNat9_toNat (by omega)]; exact hk)]
        · rw [hc]
        · rw [hc]
          intro h
          have := congrArg BitVec.toNat h
          rw [ofNat9_toNat (by omega)] at this
          simp [Config.nil] at this
          omega

/-- TreeBuild after Validate: it never raises, it leaves an empty queue, the number of symbols and a tree of the stated
shape, and what it leaves does not depend on the capacity (41_tree_builder.md R169, R172, R173). -/
theorem buildTree_spec (f : Vector Word 256) (hs : freqSum f < 2 ^ 32) :
    ∃ t, (∀ cap, 256 ≤ cap → buildTree cap f = .ok (symbolsOf f).length t) ∧ t.heap = [] ∧
      treeShape (symbolsOf f) t.nodes t.root ∧ TreeFacts f t.nodes t.root := by
  obtain ⟨t0, e0, i0, l0⟩ := insertLeaves_inv f
  have hsum := sum_symbolsOf f
  obtain ⟨t1, e1, i1, l1, n1⟩ := mergeLoop_inv (f := f) (bs := symbolsOf f) (by omega) t0.heap.length t0 i0 (by omega)
  have hb : ∀ cap, 256 ≤ cap → buildTree cap f = (finishTree t1).andThen fun _ t2 => .ok (symbolsOf f).length t2 := by
    intro cap hc
    rw [buildTree, e0 cap hc, Res.andThen_ok, e1 cap hc, Res.andThen_ok]
  have htot := i1.total
  rw [hsum] at htot
  clear e0 e1
  rcases hbs : symbolsOf f with _ | ⟨b, _ | ⟨c, bs⟩⟩
  · -- no symbol
    have hcnt := i1.count
    rw [hbs] at hcnt l0
    simp only [List.length_nil] at hcnt l0
    have hh : t1.heap = [] := List.length_eq_zero_iff.1 (by omega)
    have hnn : t1.nodes = [] := List.length_eq_zero_iff.1 (by omega)
    refine ⟨t1, fun cap hc => ?_, hh, ⟨hnn, i1.root⟩, ?_, ?_, i1.parent, ?_⟩
    · rw [hb cap hc, finishTree, if_neg (by rw [hh]; simp), hbs]; rfl
    · intro j hj; rw [hnn] at hj; simp at hj
    · intro i l r h; rw [hnn] at h; simp at h
    · intro h; rw [hbs] at h; simp at h
  · -- one symbol
    have hcnt := i1.count
    rw [hbs] at hcnt l0
    simp only [List.length_cons, List.length_nil] at hcnt l0
    have hh1 : t1.heap.length = 1 := by have := n1 (by omega); omega
    have hleaf := i1.leaves 0 (by rw [hbs]; simp)
    rw [hbs] at hleaf
    have hns : t1.nodes = [.leaf b] := by
      obtain ⟨x, hx⟩ := List.length_eq_one_iff.1 (show t1.nodes.length = 1 by omega)
      rw [hx] at hleaf ⊢
      simpa using hleaf
    obtain ⟨e, he⟩ : ∃ e, t1.heap = [e] := List.length_eq_one_iff.1 hh1
    have hpay : e.payload = 0#9 := by
      have := i1.bound e (by rw [he]; simp)
      rw [hns, List.length_singleton] at this
      exact BitVec.eq_of_toNat_eq (by simp; omega)
    obtain ⟨h', h1, h2, -⟩ := buildExtract_spec (t := t1) (by rw [he]; simp)
    have hh' : h' = [] := by
      have := h2.length_eq
      rw [List.length_cons, hh1] at this
      exact List.length_eq_zero_iff.1 (by omega)
    have h0 : heapAt t1.heap 0 = e := by rw [he]; rfl
    have hfin : finishTree t1 =
        .ok () { heap := [], nodes := [.leaf b, .internal 0#9 Config.nil], root := 1#9 } := by
      rw [finishTree, if_pos hh1, h1, Res.andThen_ok, h0, hpay]
      simp only []
      rw [nodeAt_of_getElem? (nd := .leaf b) (by rw [hns]; rfl)]
      simp [hns, hh']
    refine ⟨_, fun cap hc => by rw [hb cap hc, hfin, Res.andThen_ok, hbs], rfl, ⟨rfl, rfl⟩, ?_, ?_, ?_, ?_⟩
    · intro j hj
      obtain rfl | rfl : j = 0 ∨ j = 1 := by simp at hj; omega
      · exact ⟨[false], rfl⟩
      · exact ⟨[], rfl⟩
    · intro i l r h hr
      obtain ⟨hil, -⟩ := List.getElem?_eq_some_iff.1 h
      obtain rfl | rfl : i = 0 ∨ i = 1 := by simp at hil; omega
      · simp at h
      · simp at h; exact absurd h.2.symm hr
    · intro i k l r l' r' h1 h2 hik
      obtain ⟨hil, -⟩ := List.getElem?_eq_some_iff.1 h1
      obtain ⟨hkl, -⟩ := List.getElem?_eq_some_iff.1 h2
      simp only [List.length_cons, List.length_nil] at hil hkl
      obtain ⟨rfl, rfl⟩ | ⟨rfl, rfl⟩ : i = 0 ∧ k = 1 ∨ i = 1 ∧ k = 0 := by omega
      · simp at h1
      · simp at h2
    · intro h; rw [hbs] at h; simp at h
  · -- two symbols or more
    have hcnt := i1.count
    have hn : 2 ≤ (symbolsOf f).length := by rw [hbs]; simp
    have hh1 : t1.heap.length = 1 := by have := n1 (by omega); omega
    obtain ⟨hfin, hreach⟩ := finishTree_many i1 hn hh1
    have hfew := i1.few
    have hroot : (BitVec.ofNat 9 (2 * (symbolsOf f).length - 2)).toNat = 2 * (symbolsOf f).length - 2 :=
      ofNat9_toNat (by omega)
    refine ⟨{ t1 with heap := [], root := BitVec.ofNat 9 (2 * (symbolsOf f).length - 2) },
      fun cap hc => by rw [hb cap hc, hfin, Res.andThen_ok, ← hbs], rfl, ?_, hreach, ?_, i1.parent, ?_⟩
    · rw [← hbs]
      have : treeShape (symbolsOf f) t1.nodes (BitVec.ofNat 9 (2 * (symbolsOf f).length - 2)) := by
        have h1 : t1.nodes.length = 2 * (symbolsOf f).length - 1 := by omega
        have h3 := i1.leaves
        have h4 := i1.internal
        rw [h1] at h4
        rw [hbs] at *
        exact ⟨h1, hroot, h3, h4⟩
      exact this
    · intro i l r h _
      exact i1.greedy i l r h
    · intro _
      obtain ⟨e, he⟩ : ∃ e, t1.heap = [e] := List.length_eq_one_iff.1 hh1
      have hlast : ∀ (k : Nat) (l r : NodeIdx), t1.nodes[k]? = some (.internal l r) →
          2 * (symbolsOf f).length - 2 ≠ l.toNat ∧ 2 * (symbolsOf f).length - 2 ≠ r.toNat := by
        intro k l r hk; have := i1.children hk; omega
      obtain ⟨e', he', hej⟩ := (i1.orphan (2 * (symbolsOf f).length - 2) (by omega)).2 hlast
      have hk := i1.key e' he'
      rw [he, List.mem_singleton] at he'
      subst he'
      rw [he] at htot
      simp only [List.map_cons, List.map_nil, List.sum_cons, List.sum_nil, Nat.add_zero] at htot
      change weightAt f t1.nodes (BitVec.ofNat 9 (2 * (symbolsOf f).length - 2)).toNat = freqSum f
      rw [hroot, ← hej, ← hk, htot]

/-- TreeBuild on valid counts, with room for every leaf: it makes the tree of the counts and raises nothing. -/
theorem treeBuild_treeOf {f : Vector Word 256} (hv : countsValid f) :
    treeShape (symbolsOf f) (treeOf f).1 (treeOf f).2 ∧ TreeFacts f (treeOf f).1 (treeOf f).2 ∧
      ∀ s : State, 256 ≤ s.params.heapCap → s.block.freq = f →
        treeBuild s =
          .ok (symbolsOf f).length
            { s with
              block :=
                { s.block with
                  nTotal := BitVec.ofNat 32 (freqSum f), heap := [], nodes := (treeOf f).1
                  root := (treeOf f).2 } } := by
  have hle : freqSum f ≤ Config.maxTotal := by rw [freqSum_eq]; exact hv.2
  obtain ⟨t, h1, h2, h3, h4⟩ := buildTree_spec f (by simp only [Config.maxTotal] at hle; omega)
  have ht : treeOf f = (t.nodes, t.root) := by rw [treeOf, h1 256 (Nat.le_refl _)]
  rw [ht]
  refine ⟨h3, h4, fun s hc hf => ?_⟩
  subst hf
  rw [treeBuild, validate_eq_some.2 ⟨hv, rfl⟩]
  simp only [h1 _ hc, Res.within_ok, h2]

/-- The same, for a proof that does not name the tree. -/
theorem treeBuild_valid {f : Vector Word 256} (hv : countsValid f) :
    ∃ ns root, treeShape (symbolsOf f) ns root ∧ TreeFacts f ns root ∧
      ∀ s : State, 256 ≤ s.params.heapCap → s.block.freq = f →
        treeBuild s =
          .ok (symbolsOf f).length
            { s with
              block :=
                { s.block with
                  nTotal := BitVec.ofNat 32 (freqSum f), heap := [], nodes := ns, root := root } } :=
  ⟨_, _, treeBuild_treeOf hv⟩

/-- TreeBuild on counts Validate rejects: nothing changes. -/
theorem treeBuild_invalid {s : State} (hv : ¬ countsValid s.block.freq) : treeBuild s = .err .formatError s := by
  rw [treeBuild, validate_eq_none.2 hv]

end Sys2Proof.Machine
end

