-- ==== Sys2Proof/Laws/Code.lean ====
section
/-! SUPPORT. CodeGen: the table entry of a byte is the path to its leaf, and what follows for lengths and prefixes
(42_code_table.md R191, R192, R195, R196). -/

namespace Sys2Proof.Machine

/-- Children stand before their parent; an absent right child is NIL. -/
def treeDown (ns : List Node) : Prop :=
  ns.length ≤ 511 ∧ ∀ (i : Nat) (l r : NodeIdx), ns[i]? = some (.internal l r) →
    l.toNat < i ∧ (r = Config.nil ∨ r.toNat < i)

/-- The entry CodeGen records at the end of a path. -/
def pathEntry (p : List Bool) : CodeEntry :=
  { len := BitVec.ofNat 8 p.length, cw := BitVec.ofNat 256 (bitsValue 0 p) }

theorem ne_nil_of_lt {i : NodeIdx} {n : Nat} (h : i.toNat < n) (hn : n ≤ 511) : i ≠ Config.nil := by
  rintro rfl
  simp [Config.nil] at h
  omega

/-- Visit below node i, reached by the path p: every byte either gets the entry of a path through p to a leaf of its own,
or has no leaf below i and keeps its entry. -/
theorem visit_spec {ns : List Node} (hd : treeDown ns) (fuel : Nat) :
    ∀ (i : NodeIdx) (p : List Bool) (tbl : Vector CodeEntry 256) (b : Byte),
      i.toNat < ns.length → i.toNat < fuel →
      (∃ q j, walkPath ns i q = some j ∧ ns[j.toNat]? = some (.leaf b) ∧
        codeAt (visit ns fuel i p.length (bitsValue 0 p) tbl) b = pathEntry (p ++ q)) ∨
      ((∀ q j, walkPath ns i q = some j → ns[j.toNat]? ≠ some (.leaf b)) ∧
        codeAt (visit ns fuel i p.length (bitsValue 0 p) tbl) b = codeAt tbl b) := by
  induction fuel with
  | zero => intro i p tbl b _ hf; omega
  | succ n ih =>
    intro i p tbl b hi hf
    have hnode : ns[i.toNat]? = some ns[i.toNat] := List.getElem?_eq_getElem hi
    rw [visit, nodeAt_of_getElem? hnode]
    cases hcase : ns[i.toNat] with
    | leaf c =>
      rw [hcase] at hnode
      simp only []
      by_cases hbc : b = c
      · subst hbc
        exact .inl ⟨[], i, rfl, hnode, by rw [codeAt_codeSet_self, List.append_nil]; rfl⟩
      · refine .inr ⟨?_, codeAt_codeSet_ne tbl _ hbc⟩
        intro q j hq hj
        rcases q with _ | ⟨x, q⟩
        · simp only [walkPath, Option.some.injEq] at hq
          subst hq
          rw [hnode] at hj
          simp only [Option.some.injEq, Node.leaf.injEq] at hj
          exact hbc hj.symm
        · rw [walkPath_leaf hnode] at hq
          exact absurd hq (by simp)
    | internal l r =>
      rw [hcase] at hnode
      obtain ⟨hl, hr⟩ := hd.2 _ _ _ hnode
      have hlen := hd.1
      have hln : l ≠ Config.nil := ne_nil_of_lt hl (by omega)
      simp only []
      rw [if_pos hln]
      have stepL : p.length + 1 = (p ++ [false]).length ∧ 2 * bitsValue 0 p = bitsValue 0 (p ++ [false]) := by
        simp [bitsValue_append]
      have stepR : p.length + 1 = (p ++ [true]).length ∧ 2 * bitsValue 0 p + 1 = bitsValue 0 (p ++ [true]) := by
        simp [bitsValue_append]
      have hL := ih l (p ++ [false]) tbl b (by omega) (by omega)
      rw [← stepL.1, ← stepL.2] at hL
      generalize visit ns n l (p.length + 1) (2 * bitsValue 0 p) tbl = t1 at hL
      -- the outcome below the left child, carried over to a table that agrees on b
      have left : ∀ t2, codeAt t2 b = codeAt t1 b →
          (r = Config.nil ∨ ∀ q j, walkPath ns r q = some j → ns[j.toNat]? ≠ some (.leaf b)) →
          (∃ q j, walkPath ns i q = some j ∧ ns[j.toNat]? = some (.leaf b) ∧ codeAt t2 b = pathEntry (p ++ q)) ∨
            ((∀ q j, walkPath ns i q = some j → ns[j.toNat]? ≠ some (.leaf b)) ∧ codeAt t2 b = codeAt tbl b) := by
        intro t2 ht hnr
        rcases hL with ⟨q, j, h1, h2, h3⟩ | ⟨h1, h2⟩
        · refine .inl ⟨false :: q, j, ?_, h2, ?_⟩
          · have := walkPath_append ns i [false] q
            rw [walkPath_singleton hnode false (by simpa using hln)] at this
            exact this.trans h1
          · rw [ht, h3, List.append_assoc]; rfl
        · refine .inr ⟨?_, ht.trans h2⟩
          intro q j hq hj
          rcases q with _ | ⟨x, q⟩
          · simp only [walkPath, Option.some.injEq] at hq
            subst hq
            rw [hnode] at hj
            simp at hj
          · rw [walkPath, nodeAt_of_getElem? hnode] at hq
            simp only [] at hq
            cases x
            · simp only [Bool.false_eq_true, if_false, if_neg hln] at hq
              exact h1 q j hq hj
            · simp only [if_true] at hq
              rcases hnr with hn | hn
              · rw [if_pos hn] at hq; exact absurd hq (by simp)
              · split at hq
                · exact absurd hq (by simp)
                · exact hn q j hq hj
      by_cases hrn : r = Config.nil
      · rw [if_neg (by simpa using hrn)]
        exact left t1 rfl (.inl hrn)
      · rw [if_pos hrn]
        have hri := hr.resolve_left hrn
        have hR := ih r (p ++ [true]) t1 b (by omega) (by omega)
        rw [← stepR.1, ← stepR.2] at hR
        rcases hR with ⟨q, j, h1, h2, h3⟩ | ⟨h1, h2⟩
        · refine .inl ⟨true :: q, j, ?_, h2, ?_⟩
          · have := walkPath_append ns i [true] q
            rw [walkPath_singleton hnode true (by simpa using hrn)] at this
            exact this.trans h1
          · rw [h3, List.append_assoc]; rfl
        · exact left _ h2 (.inr h1)

/-! ### The shapes of trees -/

theorem treeShape_down {bs : List Byte} {ns : List Node} {root : NodeIdx} (hb : bs.length ≤ 256)
    (h : treeShape bs ns root) : treeDown ns := by
  rcases bs with _ | ⟨b, _ | ⟨c, bs⟩⟩
  · obtain ⟨rfl, -⟩ := h
    exact ⟨by simp, fun i l r h => by simp at h⟩
  · obtain ⟨rfl, -⟩ := h
    refine ⟨by simp, fun i l r h => ?_⟩
    obtain ⟨hil, -⟩ := List.getElem?_eq_some_iff.1 h
    obtain rfl | rfl : i = 0 ∨ i = 1 := by simp at hil; omega
    · simp at h
    · simp only [List.getElem?_cons_succ, List.getElem?_cons_zero, Option.some.injEq, Node.internal.injEq] at h
      obtain ⟨rfl, rfl⟩ := h
      exact ⟨by simp, .inl rfl⟩
  · obtain ⟨h1, h2, h3, h4⟩ := h
    refine ⟨by omega, fun i l r h => ?_⟩
    obtain ⟨hil, -⟩ := List.getElem?_eq_some_iff.1 h
    by_cases hi : i < (b :: c :: bs).length
    · rw [h3 i hi, List.getElem?_eq_getElem hi] at h
      simp at h
    · obtain ⟨l', r', h', hl, hr⟩ := h4 i (by omega) (by omega)
      rw [h] at h'
      simp only [Option.some.injEq, Node.internal.injEq] at h'
      obtain ⟨rfl, rfl⟩ := h'
      exact ⟨hl, .inr hr⟩

/-- The root of a tree that is not empty is a live internal node. -/
theorem treeShape_root {bs : List Byte} {ns : List Node} {root : NodeIdx} (hb : bs.length ≤ 256) (hn : bs ≠ [])
    (h : treeShape bs ns root) : root ≠ Config.nil ∧ ∃ l r, ns[root.toNat]? = some (.internal l r) := by
  rcases bs with _ | ⟨b, _ | ⟨c, bs⟩⟩
  · exact absurd rfl hn
  · obtain ⟨rfl, rfl⟩ := h
    exact ⟨by decide, _, _, rfl⟩
  · obtain ⟨h1, h2, h3, h4⟩ := h
    simp only [List.length_cons] at *
    refine ⟨ne_nil_of_lt (n := 511) (by omega) (by omega), ?_⟩
    obtain ⟨l, r, h', -⟩ := h4 root.toNat (by omega) (by omega)
    exact ⟨l, r, h'⟩

theorem treeShape_root_nil {bs : List Byte} {ns : List Node} {root : NodeIdx} (hb : bs.length ≤ 256)
    (h : treeShape bs ns root) : root = Config.nil ↔ bs = [] := by
  constructor
  · intro hr
    by_contra hn
    exact (treeShape_root hb hn h).1 hr
  · rintro rfl; exact h.2

/-- The byte of a leaf is one of the symbols. -/
theorem treeShape_leaf {bs : List Byte} {ns : List Node} {root : NodeIdx} (h : treeShape bs ns root) {j : Nat} {b : Byte}
    (hj : ns[j]? = some (.leaf b)) : ∃ h : j < bs.length, bs[j] = b := by
  obtain ⟨hjl, -⟩ := List.getElem?_eq_some_iff.1 hj
  rcases bs with _ | ⟨x, _ | ⟨c, bs⟩⟩
  · obtain ⟨rfl, -⟩ := h
    simp at hj
  · obtain ⟨rfl, -⟩ := h
    obtain rfl | rfl : j = 0 ∨ j = 1 := by simp at hjl; omega
    · exact ⟨by simp, by simpa using hj⟩
    · simp at hj
  · obtain ⟨h1, h2, h3, h4⟩ := h
    by_cases hi : j < (x :: c :: bs).length
    · rw [h3 j hi, List.getElem?_eq_getElem hi] at hj
      exact ⟨hi, by simpa using hj⟩
    · obtain ⟨l', r', h', -⟩ := h4 j (by omega) (by omega)
      rw [hj] at h'
      simp at h'

/-- Each symbol has a leaf at its own place. -/
theorem treeShape_getElem {bs : List Byte} {ns : List Node} {root : NodeIdx} (h : treeShape bs ns root) {j : Nat}
    (hj : j < bs.length) : ns[j]? = some (.leaf bs[j]) := by
  rcases bs with _ | ⟨x, _ | ⟨c, bs⟩⟩
  · simp at hj
  · obtain ⟨rfl, -⟩ := h
    obtain rfl : j = 0 := by simp at hj; omega
    rfl
  · obtain ⟨h1, h2, h3, h4⟩ := h
    rw [h3 j hj, List.getElem?_eq_getElem hj]; rfl

/-- A path from an internal node visits ever smaller internal nodes. -/
theorem walkPath_length {bs : List Byte} {ns : List Node} {root : NodeIdx} (hb : bs.length ≤ 256)
    (h : treeShape bs ns root) (p : List Bool) :
    ∀ (i j : NodeIdx), walkPath ns i p = some j → bs.length ≤ i.toNat → i.toNat < ns.length →
      p.length + bs.length ≤ i.toNat + 1 := by
  induction p with
  | nil => intro i j _ hi _; simp only [List.length_nil]; omega
  | cons x p ih =>
    intro i j hw hi hil
    have hnode : ns[i.toNat]? = some ns[i.toNat] := List.getElem?_eq_getElem hil
    cases hcase : ns[i.toNat] with
    | leaf b =>
      rw [hcase] at hnode
      rw [walkPath_leaf hnode] at hw
      exact absurd hw (by simp)
    | internal l r =>
      rw [hcase] at hnode
      obtain ⟨hl, hr⟩ := (treeShape_down hb h).2 _ _ _ hnode
      rw [walkPath, nodeAt_of_getElem? hnode] at hw
      simp only [] at hw
      have hc : (if x = true then r else l) ≠ Config.nil := by
        intro hc; rw [if_pos hc] at hw; exact absurd hw (by simp)
      rw [if_neg hc] at hw
      have hci : (if x = true then r else l).toNat < i.toNat := by
        cases x
        · simpa using hl
        · simp only [if_true] at hc ⊢
          exact hr.resolve_left hc
      generalize (if x = true then r else l) = c at *
      rw [List.length_cons]
      by_cases hcb : bs.length ≤ c.toNat
      · have := ih c j hw hcb (by omega)
        omega
      · have hleaf := treeShape_getElem h (Nat.lt_of_not_le hcb)
        rcases p with _ | ⟨y, p⟩
        · simp only [List.length_nil]; omega
        · rw [walkPath_leaf hleaf] at hw
          exact absurd hw (by simp)

/-- The length of a path from the root to a leaf: 1 for one symbol, 1 to n - 1 for n of them. -/
theorem walkPath_root_length {bs : List Byte} {ns : List Node} {root j : NodeIdx} {b : Byte} {p : List Bool}
    (hb : bs.length ≤ 256) (h : treeShape bs ns root) (hn : bs ≠ []) (hw : walkPath ns root p = some j)
    (hj : ns[j.toNat]? = some (.leaf b)) :
    1 ≤ p.length ∧ p.length ≤ max 1 (bs.length - 1) := by
  obtain ⟨-, l, r, hroot⟩ := treeShape_root hb hn h
  constructor
  · rcases p with _ | ⟨x, p⟩
    · simp only [walkPath, Option.some.injEq] at hw
      subst hw
      rw [hroot] at hj
      simp at hj
    · simp
  · have hrl := (List.getElem?_eq_some_iff.1 hroot).1
    have hbr : bs.length ≤ root.toNat := by
      by_contra hlt
      have := treeShape_getElem h (Nat.lt_of_not_le hlt)
      rw [hroot] at this
      simp at this
    have := walkPath_length hb h p root j hw hbr hrl
    rcases bs with _ | ⟨x, _ | ⟨c, bs⟩⟩
    · exact absurd rfl hn
    · obtain ⟨rfl, rfl⟩ := h
      simp at this ⊢
      omega
    · have := h.2.1
      omega

/-! ### The code table -/

theorem pathEntry_len {p : List Bool} (h : p.length ≤ 255) : (pathEntry p).len.toNat = p.length := by
  simp only [pathEntry, BitVec.toNat_ofNat]; omega

theorem pathEntry_bits {p : List Bool} (h : p.length ≤ 255) : codewordBits (pathEntry p) = p := by
  rw [codewordBits, pathEntry_len h]
  exact bitsDown_bitsValue p (by omega)

theorem codewordBits_length (e : CodeEntry) : (codewordBits e).length = e.len.toNat := bitsDown_length _ _

theorem codewordBits_of_len_zero {e : CodeEntry} (h : e.len = 0#8) : codewordBits e = [] := by
  rw [codewordBits, h]; rfl

/-- The table of a legal tree: an entry holds the path to a leaf of its byte, or is zero and its byte has no leaf below the
root. -/
theorem codeTableOf_spec {bs : List Byte} {ns : List Node} {root : NodeIdx} (hb : bs.length ≤ 256)
    (h : treeShape bs ns root) (b : Byte) :
    (∃ p j, walkPath ns root p = some j ∧ ns[j.toNat]? = some (.leaf b) ∧ bs ≠ [] ∧ 1 ≤ p.length ∧
        p.length ≤ max 1 (bs.length - 1) ∧ codeAt (codeTableOf ns root) b = pathEntry p) ∨
      ((root ≠ Config.nil → ∀ p j, walkPath ns root p = some j → ns[j.toNat]? ≠ some (.leaf b)) ∧
        codeAt (codeTableOf ns root) b = { len := 0#8, cw := 0#256 }) := by
  by_cases hn : bs = []
  · right
    have hr := (treeShape_root_nil hb h).2 hn
    exact ⟨fun hne => absurd hr hne, by rw [codeTableOf, if_neg (by simpa using hr), codeAt_emptyCode]⟩
  · obtain ⟨hr, l, r, hroot⟩ := treeShape_root hb hn h
    have hd := treeShape_down hb h
    have hrl := (List.getElem?_eq_some_iff.1 hroot).1
    have hv := visit_spec hd 512 root [] emptyCode b hrl (by have := hd.1; omega)
    rw [codeTableOf, if_pos hr]
    rcases hv with ⟨p, j, h1, h2, h3⟩ | ⟨h1, h2⟩
    · obtain ⟨h4, h5⟩ := walkPath_root_length hb h hn h1 h2
      exact .inl ⟨p, j, h1, h2, hn, h4, h5, by simpa using h3⟩
    · exact .inr ⟨fun _ => h1, by rw [codeAt_emptyCode] at h2; simpa using h2⟩

/-- CodeGen on a legal tree leaves no bit of a codeword at or above its length (10_state.md R38). -/
theorem codeTableOf_legal {ns : List Node} {root : NodeIdx} (h : treeLegal ns root) : codeLegal (codeTableOf ns root) := by
  obtain ⟨bs, hb, hs⟩ := h
  intro b j hj
  rcases codeTableOf_spec hb hs b with ⟨p, -, -, -, -, h4, h5, h6⟩ | ⟨-, h6⟩
  · rw [h6] at hj ⊢
    rw [pathEntry_len (by omega)] at hj
    simp only [pathEntry, BitVec.getLsbD_ofNat]
    rw [Nat.testBit_lt_two_pow (Nat.lt_of_lt_of_le (bitsValue_lt p) (Nat.pow_le_pow_right (by omega) hj))]
    simp
  · rw [h6]; exact BitVec.getLsbD_zero

/-- The table of the tree of a count table: exactly the counted bytes have a codeword, and it is the path to the byte's
leaf. -/
theorem codeTable_built {f : Vector Word 256} {ns : List Node} {root : NodeIdx}
    (h : treeShape (symbolsOf f) ns root) (hf : TreeFacts f ns root) (b : Byte) :
    (freqAt f b ≠ 0#32 ∧ ∃ p j, walkPath ns root p = some j ∧ ns[j.toNat]? = some (.leaf b) ∧ 1 ≤ p.length ∧
        p.length ≤ max 1 ((symbolsOf f).length - 1) ∧ codeAt (codeTableOf ns root) b = pathEntry p ∧
        codewordBits (codeAt (codeTableOf ns root) b) = p ∧
        (codeAt (codeTableOf ns root) b).len.toNat = p.length) ∨
      (freqAt f b = 0#32 ∧ codeAt (codeTableOf ns root) b = { len := 0#8, cw := 0#256 }) := by
  have hb := symbolsOf_length_le f
  rcases codeTableOf_spec hb h b with ⟨p, j, h1, h2, h3, h4, h5, h6⟩ | ⟨h1, h2⟩
  · left
    obtain ⟨hj, hjb⟩ := treeShape_leaf h h2
    refine ⟨mem_symbolsOf.1 (hjb ▸ List.getElem_mem hj), p, j, h1, h2, h4, h5, h6, ?_, ?_⟩
    · rw [h6, pathEntry_bits (by omega)]
    · rw [h6, pathEntry_len (by omega)]
  · right
    refine ⟨?_, h2⟩
    by_contra hne
    obtain ⟨j, hj, hjb⟩ := List.getElem_of_mem (mem_symbolsOf.2 hne)
    have hleaf := treeShape_getElem h hj
    rw [hjb] at hleaf
    have hroot : root ≠ Config.nil := by
      rw [Ne, treeShape_root_nil hb h]
      intro h0; rw [h0] at hj; simp at hj
    have hjn : j < ns.length := (List.getElem?_eq_some_iff.1 hleaf).1
    obtain ⟨p, hp⟩ := hf.reach j hjn
    refine h1 hroot p _ hp ?_
    rw [ofNat9_toNat (by omega)]
    exact hleaf

/-- Paths to two leaves are never prefixes of each other, unless the leaves are one. -/
theorem walkPath_prefix {ns : List Node} {i j k : NodeIdx} {b : Byte} {p q : List Bool} (hp : walkPath ns i p = some j)
    (hj : ns[j.toNat]? = some (.leaf b)) (hq : walkPath ns i q = some k) (hpq : p.IsPrefix q) : j = k ∧ p = q := by
  obtain ⟨t, rfl⟩ := hpq
  rw [walkPath_append, hp, Option.bind_some] at hq
  rcases t with _ | ⟨x, t⟩
  · simp only [walkPath, Option.some.injEq] at hq
    exact ⟨hq, (List.append_nil p).symm⟩
  · rw [walkPath_leaf hj] at hq
    exact absurd hq (by simp)

/-! ### One path to each node -/

/-- A path that ends with a step: the node before it, and the child it takes. -/
theorem walkPath_concat {ns : List Node} {i j : NodeIdx} {p : List Bool} {x : Bool}
    (h : walkPath ns i (p ++ [x]) = some j) :
    ∃ m l r, walkPath ns i p = some m ∧ nodeAt ns m.toNat = .internal l r ∧ (if x then r else l) = j ∧
      j ≠ Config.nil := by
  rw [walkPath_append] at h
  obtain ⟨m, h1, h2⟩ := Option.bind_eq_some_iff.1 h
  rw [walkPath] at h2
  cases hn : nodeAt ns m.toNat with
  | leaf b => rw [hn] at h2; exact absurd h2 (by simp)
  | internal l r =>
    rw [hn] at h2
    simp only [] at h2
    by_cases hc : (if x = true then r else l) = Config.nil
    · rw [if_pos hc] at h2; exact absurd h2 (by simp)
    · rw [if_neg hc, walkPath, Option.some.injEq] at h2
      exact ⟨m, l, r, h1, hn, h2, by rw [← h2]; exact hc⟩

theorem nodeAt_getElem? {ns : List Node} {i : Nat} {nd : Node} (hi : i < ns.length) (h : nodeAt ns i = nd) :
    ns[i]? = some nd := by
  rw [List.getElem?_eq_getElem hi, ← h]
  simp [nodeAt, hi]

/-- A path leads down: the node it ends in stands before the one it starts from. -/
theorem walkPath_down {ns : List Node} (hd : treeDown ns) (p : List Bool) :
    ∀ (i j : NodeIdx), i.toNat < ns.length → walkPath ns i p = some j →
      j.toNat < ns.length ∧ (p ≠ [] → j.toNat < i.toNat) := by
  induction p using List.reverseRecOn with
  | nil =>
    intro i j hi h
    rw [walkPath, Option.some.injEq] at h
    subst h
    exact ⟨hi, fun hn => absurd rfl hn⟩
  | append_singleton p x ih =>
    intro i j hi h
    obtain ⟨m, l, r, h1, h2, h3, h4⟩ := walkPath_concat h
    obtain ⟨g1, g2⟩ := ih i m hi h1
    obtain ⟨q1, q2⟩ := hd.2 _ _ _ (nodeAt_getElem? g1 h2)
    have hjm : j.toNat < m.toNat := by
      cases x
      · rw [← h3]; exact q1
      · have h3' : r = j := h3
        subst h3'
        exact q2.resolve_left h4
    have hmi : m.toNat ≤ i.toNat := by
      by_cases hp : p = []
      · subst hp
        rw [walkPath, Option.some.injEq] at h1
        rw [h1]
      · exact Nat.le_of_lt (g2 hp)
    exact ⟨by omega, fun _ => by omega⟩

/-- A node of a built tree has one path from the root. -/
theorem walkPath_unique {f : Vector Word 256} {ns : List Node} {root : NodeIdx} (h : treeShape (symbolsOf f) ns root)
    (hf : TreeFacts f ns root) (hn : symbolsOf f ≠ []) (p : List Bool) :
    ∀ (q : List Bool) (j : NodeIdx), walkPath ns root p = some j → walkPath ns root q = some j → p = q := by
  have hb := symbolsOf_length_le f
  have hd := treeShape_down hb h
  obtain ⟨-, l0, r0, hroot⟩ := treeShape_root hb hn h
  have hrl := (List.getElem?_eq_some_iff.1 hroot).1
  have hself : ∀ q : List Bool, walkPath ns root q = some root → q = [] := by
    intro q hq
    by_contra hne
    exact Nat.lt_irrefl _ ((walkPath_down hd q root root hrl hq).2 hne)
  induction p using List.reverseRecOn with
  | nil =>
    intro q j hp hq
    rw [walkPath, Option.some.injEq] at hp
    subst hp
    exact (hself q hq).symm
  | append_singleton p x ih =>
    intro q j hp hq
    rcases List.eq_nil_or_concat q with rfl | ⟨q, y, rfl⟩
    · rw [walkPath, Option.some.injEq] at hq
      subst hq
      exact hself _ hp
    · rw [List.concat_eq_append] at hq ⊢
      obtain ⟨m, l, r, h1, h2, h3, h4⟩ := walkPath_concat hp
      obtain ⟨m', l', r', g1, g2, g3, -⟩ := walkPath_concat hq
      have e1 := nodeAt_getElem? (walkPath_down hd p root m hrl h1).1 h2
      have e2 := nodeAt_getElem? (walkPath_down hd q root m' hrl g1).1 g2
      have hm : m = m' := by
        by_contra hne
        obtain ⟨k1, k2, k3, k4⟩ := hf.parent _ _ _ _ _ _ e1 e2 fun he => hne (BitVec.eq_of_toNat_eq he)
        rw [← g3] at h3
        cases x <;> cases y
        · exact k1 h3
        · exact k2 h3
        · exact k3 h3
        · exact k4 h3
      subst hm
      rw [h2, Node.internal.injEq] at g2
      obtain ⟨rfl, rfl⟩ := g2
      have hxy : x = y := by
        rw [← g3] at h3
        cases x <;> cases y
        · rfl
        · have h3' : l = r := h3
          exact absurd h3' (hf.greedy _ _ _ e1 (by rw [← h3', show l = j from h3.trans g3]; exact h4)).1
        · have h3' : r = l := h3
          exact absurd h3'.symm (hf.greedy _ _ _ e1 (by rw [show r = j from h3.trans g3]; exact h4)).1
        · rfl
      rw [ih q m h1 g1, hxy]

/-- The path to a leaf is the codeword of its byte. -/
theorem codeTable_path {f : Vector Word 256} {ns : List Node} {root j : NodeIdx} {p : List Bool} {b : Byte}
    (h : treeShape (symbolsOf f) ns root) (hf : TreeFacts f ns root) (hp : walkPath ns root p = some j)
    (hj : ns[j.toNat]? = some (.leaf b)) :
    freqAt f b ≠ 0#32 ∧ codewordBits (codeAt (codeTableOf ns root) b) = p := by
  obtain ⟨hjl, hjb⟩ := treeShape_leaf h hj
  have hmem : b ∈ symbolsOf f := hjb ▸ List.getElem_mem hjl
  have hn : symbolsOf f ≠ [] := List.ne_nil_of_mem hmem
  refine ⟨mem_symbolsOf.1 hmem, ?_⟩
  rcases codeTable_built h hf b with ⟨-, q, k, hq, hk, -, -, -, hc, -⟩ | ⟨hz, -⟩
  · obtain ⟨hkl, hkb⟩ := treeShape_leaf h hk
    have hjk : j.toNat = k.toNat := ((symbolsOf_nodup f).getElem_inj_iff).1 (hjb.trans hkb.symm)
    rw [hc, walkPath_unique h hf hn q p j (by rw [hq, BitVec.eq_of_toNat_eq hjk]) hp]
  · exact absurd hz (mem_symbolsOf.1 hmem)

/-- In a tree of two leaves or more, enough bits lead to a leaf from any node. -/
theorem walkPath_reaches {bs : List Byte} {ns : List Node} {root : NodeIdx} (hb : bs.length ≤ 256) (hn : 2 ≤ bs.length)
    (h : treeShape bs ns root) (bits : List Bool) :
    ∀ i : NodeIdx, i.toNat < ns.length → i.toNat + 1 ≤ bits.length + bs.length →
      ∃ p more j b, bits = p ++ more ∧ walkPath ns i p = some j ∧ ns[j.toNat]? = some (.leaf b) ∧
        p.length + bs.length ≤ max bs.length (i.toNat + 1) := by
  induction bits with
  | nil =>
    intro i hi hl
    rw [List.length_nil] at hl
    exact ⟨[], [], i, _, rfl, rfl, treeShape_getElem h (show i.toNat < bs.length by omega), by simp⟩
  | cons x bits ih =>
    intro i hi hl
    by_cases hib : i.toNat < bs.length
    · exact ⟨[], x :: bits, i, _, rfl, rfl, treeShape_getElem h hib, by simp⟩
    · obtain ⟨l, r, hnode, hlt, hrt⟩ : ∃ l r : NodeIdx, ns[i.toNat]? = some (.internal l r) ∧ l.toNat < i.toNat ∧
          r.toNat < i.toNat := by
        rcases bs with _ | ⟨y, _ | ⟨c, bs⟩⟩
        · simp at hn
        · simp at hn
        · exact h.2.2.2 i.toNat (by omega) (by rw [← h.1]; exact hi)
      have hlen : ns.length ≤ 511 := by
        rcases bs with _ | ⟨y, _ | ⟨c, bs⟩⟩
        · simp at hn
        · simp at hn
        · rw [h.1]; omega
      have hc : (if x = true then r else l).toNat < i.toNat := by cases x <;> simpa
      have hcn : (if x = true then r else l) ≠ Config.nil := ne_nil_of_lt (n := 511) (by omega) (by omega)
      rw [List.length_cons] at hl
      obtain ⟨p, more, j, b, h1, h2, h3, h4⟩ := ih (if x = true then r else l) (by omega) (by omega)
      refine ⟨x :: p, more, j, b, by rw [h1, List.cons_append], ?_, h3, by rw [List.length_cons]; omega⟩
      have := walkPath_append ns i [x] p
      rw [walkPath_singleton hnode x hcn, Option.bind_some] at this
      exact this.trans h2

/-- Bits enough for k symbols begin with k codewords. -/
theorem codewords_cover {f : Vector Word 256} {ns : List Node} {root : NodeIdx} (h : treeShape (symbolsOf f) ns root)
    (hf : TreeFacts f ns root) (hn : 2 ≤ (symbolsOf f).length) (k : Nat) :
    ∀ bits : List Bool, k * ((symbolsOf f).length - 1) ≤ bits.length →
      ∃ xs more, xs.length = k ∧ (∀ b ∈ xs, freqAt f b ≠ 0#32) ∧ bits = codewordsOf (codeTableOf ns root) xs ++ more := by
  have hb := symbolsOf_length_le f
  have hne : symbolsOf f ≠ [] := by intro h0; rw [h0] at hn; simp at hn
  obtain ⟨-, l0, r0, hroot⟩ := treeShape_root hb hne h
  have hrl := (List.getElem?_eq_some_iff.1 hroot).1
  have hrt : root.toNat = 2 * (symbolsOf f).length - 2 := by
    revert hn h
    generalize symbolsOf f = bs
    intro h hn
    rcases bs with _ | ⟨y, _ | ⟨c, bs⟩⟩
    · simp at hn
    · simp at hn
    · exact h.2.1
  induction k with
  | zero => intro bits _; exact ⟨[], bits, rfl, by simp, rfl⟩
  | succ k ih =>
    intro bits hl
    rw [Nat.succ_mul] at hl
    obtain ⟨p, more, j, b, h1, h2, h3, h4⟩ := walkPath_reaches hb hn h bits root hrl (by omega)
    obtain ⟨hfb, hcode⟩ := codeTable_path h hf h2 h3
    obtain ⟨xs, rest, g1, g2, g3⟩ := ih more (by
      have := congrArg List.length h1
      rw [List.length_append] at this
      omega)
    refine ⟨b :: xs, rest, by rw [List.length_cons, g1], ?_, ?_⟩
    · intro c hc
      rcases List.mem_cons.1 hc with rfl | hc
      · exact hfb
      · exact g2 c hc
    · rw [h1, g3, ← List.append_assoc]
      congr 1
      rw [codewordsOf, codewordsOf, List.flatMap_cons, hcode]

/-! ### Counting codewords -/

theorem codeCount_eq (c : Vector CodeEntry 256) :
    codeCount c = (allBytes.filter fun b => (codeAt c b).len != 0#8).length := by
  rw [codeCount, ← map_codeAt_allBytes, List.filter_map, List.length_map]; rfl

theorem foldl_max_spec (l : List CodeEntry) :
    ∀ m : Nat, (∀ e ∈ l, e.len.toNat ≤ l.foldl (fun m e => max m e.len.toNat) m) ∧
      m ≤ l.foldl (fun m e => max m e.len.toNat) m ∧
      (l.foldl (fun m e => max m e.len.toNat) m = m ∨
        ∃ e ∈ l, e.len.toNat = l.foldl (fun m e => max m e.len.toNat) m) := by
  induction l with
  | nil => intro m; simp
  | cons x xs ih =>
    intro m
    obtain ⟨h1, h2, h3⟩ := ih (max m x.len.toNat)
    rw [List.foldl_cons]
    refine ⟨?_, by omega, ?_⟩
    · intro e he
      rcases List.mem_cons.1 he with rfl | he
      · omega
      · exact h1 e he
    · rcases h3 with h3 | ⟨e, he, h3⟩
      · rcases Nat.le_total x.len.toNat m with hm | hm
        · left; rw [h3]; omega
        · exact .inr ⟨x, List.mem_cons_self, by rw [h3]; omega⟩
      · exact .inr ⟨e, List.mem_cons_of_mem _ he, h3⟩

theorem codeMaxLen_spec (c : Vector CodeEntry 256) :
    (∀ b : Byte, (codeAt c b).len.toNat ≤ codeMaxLen c) ∧
      (codeMaxLen c = 0 ∨ ∃ b : Byte, (codeAt c b).len.toNat = codeMaxLen c) := by
  obtain ⟨h1, -, h3⟩ := foldl_max_spec c.toList 0
  rw [← codeMaxLen] at h1 h3
  rw [← map_codeAt_allBytes] at h1 h3
  constructor
  · intro b; exact h1 _ (List.mem_map.2 ⟨b, mem_allBytes b, rfl⟩)
  · rcases h3 with h3 | ⟨e, he, h3⟩
    · exact .inl h3
    · obtain ⟨b, -, rfl⟩ := List.mem_map.1 he
      exact .inr ⟨b, h3⟩

end Sys2Proof.Machine
end

