-- ==== Sys2Proof/Laws/Encoder.lean ====
section
/-! SUPPORT. ENCODE phase by phase: what each leaves, as a function of the source and of the state it starts in
(44_encoder_fsm.md R241-R249). -/

namespace Sys2Proof.Machine

/-! ### Counting -/

/-- A count table with one more for each byte of a list. -/
def countAdd (f : Vector Word 256) (bytes : List Byte) : Vector Word 256 :=
  bytes.foldl (fun f x => freqSet f x (freqAt f x + 1#32)) f

@[simp] theorem countAdd_nil (f : Vector Word 256) : countAdd f [] = f := rfl
@[simp] theorem countAdd_cons (f : Vector Word 256) (x : Byte) (xs : List Byte) :
    countAdd f (x :: xs) = countAdd (freqSet f x (freqAt f x + 1#32)) xs := rfl

/-- With room for every byte, each count rises by the number of occurrences, and the sum by the length. -/
theorem countAdd_spec (bytes : List Byte) :
    ∀ f : Vector Word 256, freqSum f + bytes.length < 2 ^ 32 →
      (∀ b, (freqAt (countAdd f bytes) b).toNat = (freqAt f b).toNat + bytes.count b) ∧
        freqSum (countAdd f bytes) = freqSum f + bytes.length := by
  induction bytes with
  | nil => intro f _; simp
  | cons x xs ih =>
    intro f h
    rw [List.length_cons] at h
    have hx := le_freqSum f x
    have hsum := freqSum_freqSet_succ f x (by omega)
    obtain ⟨h1, h2⟩ := ih (freqSet f x (freqAt f x + 1#32)) (by omega)
    rw [countAdd_cons]
    refine ⟨fun b => ?_, by rw [h2, hsum, List.length_cons]; omega⟩
    rw [h1 b, freqAt_freqSet, List.count_cons]
    by_cases hb : b = x
    · subst hb
      rw [if_pos rfl, BitVec.toNat_add, BitVec.toNat_ofNat, Nat.mod_eq_of_lt (by omega)]
      simp; omega
    · rw [if_neg hb, if_neg (by simpa using Ne.symm hb)]; omega

theorem countAdd_countsOf {bytes : List Byte} (h : bytes.length < 2 ^ 32) : countsOf bytes (countAdd zeroFreq bytes) := by
  intro b
  rw [(countAdd_spec bytes zeroFreq (by rw [freqSum_zeroFreq]; omega)).1 b, freqAt_zeroFreq]
  simp

/-- Phase COUNT on a source that fits: every byte is counted, and the end of the source is logged. -/
theorem countLoop_fits (rest : List Byte) :
    ∀ (fuel : Nat) (s : State), rest.length < fuel → s.src.drop s.srcPos = rest →
      s.block.nTotal.toNat + rest.length ≤ Config.maxTotal →
      countLoop fuel s =
        .ok ()
          { s with
            block :=
              { s.block with
                freq := countAdd s.block.freq rest
                nTotal := s.block.nTotal + BitVec.ofNat 32 rest.length
                inCount := s.block.inCount + BitVec.ofNat 64 rest.length }
            srcPos := s.srcPos + rest.length
            portlog := s.portlog ++ rest.map .srcByte ++ [.srcEOF] } := by
  induction rest with
  | nil =>
    intro fuel s hf hd _
    obtain ⟨n, rfl⟩ : ∃ n, fuel = n + 1 := ⟨fuel - 1, by simp at hf; omega⟩
    rw [countLoop, srcFetch_none (List.drop_eq_nil_iff.1 hd)]
    simp
  | cons x xs ih =>
    intro fuel s hf hd ht
    rw [List.length_cons] at hf ht
    obtain ⟨n, rfl⟩ : ∃ n, fuel = n + 1 := ⟨fuel - 1, by omega⟩
    have hx : s.src[s.srcPos]? = some x := by
      have := congrArg List.head? hd
      rwa [List.head?_drop] at this
    have hd' : s.src.drop (s.srcPos + 1) = xs := by
      rw [← List.drop_drop, hd]; rfl
    have hn : (s.block.nTotal + 1#32).toNat = s.block.nTotal.toNat + 1 := by
      rw [BitVec.toNat_add]; exact Nat.mod_eq_of_lt (by simp only [Config.maxTotal] at ht; simp; omega)
    rw [countLoop, srcFetch_some hx]
    simp only []
    rw [if_neg (by simp only [fetched]; omega), ih n _ (by omega) (by simpa using hd') (by simp only [fetched]; omega)]
    have h32 : ∀ w : Word, w + 1#32 + BitVec.ofNat 32 xs.length = w + BitVec.ofNat 32 (xs.length + 1) := fun w => by
      rw [BitVec.ofNat_add, BitVec.add_assoc, BitVec.add_comm (1#32)]
    have h64 : ∀ w : BitVec 64, w + 1#64 + BitVec.ofNat 64 xs.length = w + BitVec.ofNat 64 (xs.length + 1) := fun w => by
      rw [BitVec.ofNat_add, BitVec.add_assoc, BitVec.add_comm (1#64)]
    have htake : (s.src.drop s.srcPos).take 1 = [x] := by rw [hd]; rfl
    simp [fetched, h32, h64, Nat.add_assoc, Nat.add_comm 1, htake]

/-- Phase COUNT on a source that does not fit: the bytes that fit are counted, one more is fetched, and INPUT_TOO_LONG is
raised. -/
theorem countLoop_long (rest : List Byte) :
    ∀ (fuel : Nat) (s : State), rest.length < fuel → s.src.drop s.srcPos = rest →
      s.block.nTotal.toNat ≤ Config.maxTotal → Config.maxTotal < s.block.nTotal.toNat + rest.length →
      countLoop fuel s =
        .err .inputTooLong
          { s with
            block :=
              { s.block with
                freq := countAdd s.block.freq (rest.take (Config.maxTotal - s.block.nTotal.toNat))
                nTotal := BitVec.ofNat 32 Config.maxTotal
                inCount := s.block.inCount + BitVec.ofNat 64 (Config.maxTotal - s.block.nTotal.toNat + 1) }
            srcPos := s.srcPos + (Config.maxTotal - s.block.nTotal.toNat + 1)
            portlog := s.portlog ++ (rest.take (Config.maxTotal - s.block.nTotal.toNat + 1)).map .srcByte } := by
  induction rest with
  | nil => intro fuel s _ _ h1 h2; simp at h2; omega
  | cons x xs ih =>
    intro fuel s hf hd hle ht
    rw [List.length_cons] at hf ht
    obtain ⟨n, rfl⟩ : ∃ n, fuel = n + 1 := ⟨fuel - 1, by omega⟩
    have hx : s.src[s.srcPos]? = some x := by
      have := congrArg List.head? hd
      rwa [List.head?_drop] at this
    have hd' : s.src.drop (s.srcPos + 1) = xs := by
      rw [← List.drop_drop, hd]; rfl
    have htake : (s.src.drop s.srcPos).take 1 = [x] := by rw [hd]; rfl
    rw [countLoop, srcFetch_some hx]
    simp only []
    by_cases hfull : Config.maxTotal ≤ s.block.nTotal.toNat
    · have he : Config.maxTotal - s.block.nTotal.toNat = 0 := by omega
      have hw : s.block.nTotal = BitVec.ofNat 32 Config.maxTotal := by
        apply BitVec.eq_of_toNat_eq
        rw [BitVec.toNat_ofNat, Nat.mod_eq_of_lt (by decide)]; omega
      rw [if_pos (by simpa only [fetched] using hfull), he]
      simp [fetched, htake, hw]
    · have hn : (s.block.nTotal + 1#32).toNat = s.block.nTotal.toNat + 1 := by
        rw [BitVec.toNat_add]
        exact Nat.mod_eq_of_lt (by simp only [Config.maxTotal] at hfull; simp; omega)
      obtain ⟨k, hk⟩ : ∃ k, Config.maxTotal - s.block.nTotal.toNat = k + 1 :=
        ⟨Config.maxTotal - s.block.nTotal.toNat - 1, by omega⟩
      have hk' : Config.maxTotal - (s.block.nTotal + 1#32).toNat = k := by omega
      rw [if_neg (by simpa only [fetched] using hfull),
        ih n _ (by omega) (by simpa using hd') (by simp only [fetched]; omega) (by simp only [fetched]; omega)]
      have h64 : ∀ w : BitVec 64, w + 1#64 + BitVec.ofNat 64 (k + 1) = w + BitVec.ofNat 64 (k + 1 + 1) := fun w => by
        rw [BitVec.ofNat_add (k + 1) 1, BitVec.add_assoc, BitVec.add_comm (1#64)]
      simp only [fetched, hk', hk]
      simp [h64, Nat.add_assoc, Nat.add_comm 1, htake]

/-! ### The header -/

/-- WriteU32 of counts from an aligned writer: their bytes, big-endian, in order. -/
theorem writeCounts_aligned (bs : List Byte) :
    ∀ s : State, s.block.writer = Writer.reset →
      writeCounts bs s = emitted s (bs.flatMap fun b => bigEndian (freqAt s.block.freq b)) Writer.reset := by
  induction bs with
  | nil => intro s hw; rw [List.flatMap_nil, ← hw, emitted_nil]; rfl
  | cons b bs ih =>
    intro s hw
    obtain ⟨bytes, w, h1, -, -, -, h5, -⟩ := writeU32_spec (freqAt s.block.freq b) Writer.reset
    obtain ⟨rfl, rfl⟩ := h5 rfl
    rw [writeCounts, List.foldl_cons, h1 s hw]
    change writeCounts bs _ = _
    rw [ih _ rfl, emitted_emitted, List.flatMap_cons]
    rfl

theorem headerBytes_length (f : Vector Word 256) : (headerBytes f).length = 1024 := by
  have : ∀ l : List Byte, (l.flatMap fun b => bigEndian (freqAt f b)).length = 4 * l.length := by
    intro l
    induction l with
    | nil => rfl
    | cons b l ih => rw [List.flatMap_cons, List.length_append, ih]; simp [bigEndian]; omega
  rw [headerBytes, this, allBytes_length]

/-- Phase HEADER_WRITE (44_encoder_fsm.md R244). -/
theorem encodeHeader_spec {s : State} (hw : s.block.writer = Writer.reset) :
    encodeHeader s = emitted (setPhase .headerWrite s) (headerBytes s.block.freq) Writer.reset :=
  writeCounts_aligned allBytes (setPhase .headerWrite s) hw

/-! ### The payload -/

theorem codewordsOf_length (c : Vector CodeEntry 256) (bytes : List Byte) :
    (codewordsOf c bytes).length = payloadBits c bytes := by
  simp [codewordsOf, payloadBits, List.length_flatMap, codewordBits_length]

theorem sinkBytes_append (xs ys : List PortEvent) : sinkBytes (xs ++ ys) = sinkBytes xs ++ sinkBytes ys := by
  simp [sinkBytes]

theorem sinkBytes_snkBytes (bytes : List Byte) : sinkBytes (bytes.map .snkByte) = bytes := by
  induction bytes with
  | nil => rfl
  | cons b bs ih => rw [List.map_cons, ← List.singleton_append, sinkBytes_append, ih]; rfl

theorem sinkBytes_srcBytes (bytes : List Byte) : sinkBytes (bytes.map .srcByte) = [] := by
  induction bytes with
  | nil => rfl
  | cons b bs ih => rw [List.map_cons, ← List.singleton_append, sinkBytes_append, ih]; rfl

/-- Events that only move bytes, or report the end of the source. -/
def dataEvent (e : PortEvent) : Prop := (∃ b, e = .srcByte b) ∨ (∃ b, e = .snkByte b) ∨ e = .srcEOF

theorem dataEvent_snkBytes (bytes : List Byte) : ∀ e ∈ bytes.map PortEvent.snkByte, dataEvent e := by
  intro e he
  obtain ⟨b, -, rfl⟩ := List.mem_map.1 he
  exact .inr (.inl ⟨b, rfl⟩)

theorem dataEvent_srcBytes (bytes : List Byte) : ∀ e ∈ bytes.map PortEvent.srcByte, dataEvent e := by
  intro e he
  obtain ⟨b, -, rfl⟩ := List.mem_map.1 he
  exact .inl ⟨b, rfl⟩

/-- The loop of phase PAYLOAD over a source that is what pass 1 saw: the codewords go out in order; what happens on the
ports depends on the bytes, the code table and the writer alone. -/
theorem payloadLoop_spec (c : Vector CodeEntry 256) (rest : List Byte) :
    ∀ v : Writer, (∀ b ∈ rest, (codeAt c b).len ≠ 0#8) → ∃ evs bytes w,
      (∀ (fuel m : Nat) (s : State), rest.length < fuel → s.src.drop s.srcPos = rest → s.block.code = c →
        s.block.writer = v → m + rest.length = s.block.nTotal.toNat →
        payloadLoop fuel m s =
          .ok ()
            { s with
              block :=
                { s.block with
                  writer := w
                  inCount := s.block.inCount + BitVec.ofNat 64 rest.length
                  outCount := s.block.outCount + BitVec.ofNat 64 bytes.length }
              srcPos := s.srcPos + rest.length
              portlog := s.portlog ++ evs ++ [.srcEOF] }) ∧
      sinkBytes evs = bytes ∧ (∀ e ∈ evs, dataEvent e) ∧
      bytes.flatMap byteBits ++ pendingBits w = pendingBits v ++ codewordsOf c rest ∧
      (writerLegal v → writerLegal w) := by
  induction rest with
  | nil =>
    intro v _
    refine ⟨[], [], v, ?_, rfl, by simp, by simp [codewordsOf], id⟩
    intro fuel m s hf hd hc hv hm
    obtain ⟨n, rfl⟩ : ∃ n, fuel = n + 1 := ⟨fuel - 1, by simp at hf; omega⟩
    rw [payloadLoop, srcFetch_none (List.drop_eq_nil_iff.1 hd)]
    simp only []
    rw [if_pos (by simpa using hm)]
    simp [← hv]
  | cons x xs ih =>
    intro u hcode
    obtain ⟨y, v, h1, h2, -, -, -, h6⟩ := writeBits_spec (codewordBits (codeAt c x)) u
    obtain ⟨evs, bytes, w, g1, g2, g3, g4, g5⟩ := ih v fun b hb => hcode b (List.mem_cons_of_mem _ hb)
    refine ⟨.srcByte x :: (y.map .snkByte ++ evs), y ++ bytes, w, ?_, ?_, ?_, ?_, fun hl => g5 (h6 hl)⟩
    · intro fuel m s hf hd hc hv hm
      rw [List.length_cons] at hf hm
      obtain ⟨n, rfl⟩ : ∃ n, fuel = n + 1 := ⟨fuel - 1, by omega⟩
      have hx : s.src[s.srcPos]? = some x := by
        have := congrArg List.head? hd
        rwa [List.head?_drop] at this
      have hd' : s.src.drop (s.srcPos + 1) = xs := by
        rw [← List.drop_drop, hd]; rfl
      have htake : (s.src.drop s.srcPos).take 1 = [x] := by rw [hd]; rfl
      have hne : ¬ (m = (fetched s 1 s.block.reader).block.nTotal.toNat ∨
          (codeAt (fetched s 1 s.block.reader).block.code x).len = 0#8) := by
        rintro (h | h)
        · simp only [fetched] at h; omega
        · simp only [fetched, hc] at h
          exact hcode x List.mem_cons_self h
      have hcf : (fetched s 1 s.block.reader).block.code = c := hc
      rw [payloadLoop, srcFetch_some hx]
      simp only []
      rw [if_neg hne, emitCode, hcf, h1 (fetched s 1 s.block.reader) hv]
      rw [g1 n (m + 1) (emitted (fetched s 1 s.block.reader) y v) (by omega) hd' hcf rfl
        (by simp only [emitted, fetched]; omega)]
      have h64 : ∀ q : BitVec 64, q + 1#64 + BitVec.ofNat 64 xs.length = q + BitVec.ofNat 64 (xs.length + 1) := fun q => by
        rw [BitVec.ofNat_add, BitVec.add_assoc, BitVec.add_comm (1#64)]
      simp [emitted, fetched, h64, Nat.add_assoc, Nat.add_comm 1, htake, BitVec.ofNat_add, BitVec.add_assoc]
    · rw [← List.singleton_append, sinkBytes_append, sinkBytes_append, sinkBytes_snkBytes, g2]; rfl
    · intro e he
      rcases List.mem_cons.1 he with rfl | he
      · exact .inl ⟨x, rfl⟩
      · rcases List.mem_append.1 he with he | he
        · exact dataEvent_snkBytes y e he
        · exact g3 e he
    · rw [List.flatMap_append, List.append_assoc, g4, ← List.append_assoc, h2, List.append_assoc]
      rfl

/-! ### ENCODE -/

/-- Events of a command that works on its streams, before it closes them. -/
def bodyEvent (e : PortEvent) : Prop := dataEvent e ∨ e = .srcRewind

theorem not_bodyEvent_close : ¬ bodyEvent .snkClose := by simp [bodyEvent, dataEvent]
theorem not_bodyEvent_release : ¬ bodyEvent .srcRelease := by simp [bodyEvent, dataEvent]

/-- The counts of a source that fits are valid and sum to its length. -/
theorem countAdd_valid {src : List Byte} (h : src.length ≤ Config.maxTotal) :
    countsValid (countAdd zeroFreq src) ∧ freqSum (countAdd zeroFreq src) = src.length := by
  have h' : freqSum zeroFreq + src.length < 2 ^ 32 := by
    rw [freqSum_zeroFreq]; simp only [Config.maxTotal] at h; omega
  have hs : freqSum (countAdd zeroFreq src) = src.length := by
    rw [(countAdd_spec src zeroFreq h').2, freqSum_zeroFreq, Nat.zero_add]
  exact ⟨countsValid_of_sum (by omega), hs⟩

/-- Every byte of a source has a count, so a codeword. -/
theorem countAdd_pos {src : List Byte} (h : src.length ≤ Config.maxTotal) {b : Byte} (hb : b ∈ src) :
    freqAt (countAdd zeroFreq src) b ≠ 0#32 := by
  intro h0
  have := countAdd_countsOf (bytes := src) (by simp only [Config.maxTotal] at h; omega) b
  rw [h0] at this
  have hp := List.count_pos_iff.2 hb
  simp only [BitVec.toNat_ofNat, Nat.zero_mod] at this
  omega

/-- ENCODE of a source that fits, as a function of the source: it raises nothing; what it leaves, and what happened on the
ports. -/
theorem encodeBody_spec {src : List Byte} (h : src.length ≤ Config.maxTotal) :
    ∃ ns root evs payload,
      (ns, root) = treeOf (countAdd zeroFreq src) ∧
      treeShape (symbolsOf (countAdd zeroFreq src)) ns root ∧ TreeFacts (countAdd zeroFreq src) ns root ∧
      (∀ s : State, 256 ≤ s.params.heapCap → s.block.freq = countAdd zeroFreq src →
        treeBuild s =
          .ok (symbolsOf (countAdd zeroFreq src)).length
            { s with
              block :=
                { s.block with
                  nTotal := BitVec.ofNat 32 (freqSum (countAdd zeroFreq src))
                  heap := []
                  nodes := ns
                  root := root } }) ∧
      (∀ s : State, 256 ≤ s.params.heapCap → s.src = src →
        encodeBody s =
          .ok ()
            { s with
              block :=
                { s.block with
                  status := { s.block.status with phase := .finish }
                  freq := countAdd zeroFreq src
                  nTotal := BitVec.ofNat 32 src.length
                  heap := []
                  nodes := ns
                  root := root
                  code := codeTableOf ns root
                  writer := Writer.reset
                  inCount := BitVec.ofNat 64 (2 * src.length)
                  outCount := BitVec.ofNat 64 (1024 + payload.length)
                  result0 := BitVec.ofNat 32 src.length
                  result1 := BitVec.ofNat 32 ((8 - payloadBits (codeTableOf ns root) src % 8) % 8) }
              srcPos := src.length
              portlog := s.portlog ++ evs ++ [.snkClose, .srcRelease] }) ∧
      sinkBytes evs = headerBytes (countAdd zeroFreq src) ++ payload ∧ (∀ e ∈ evs, bodyEvent e) ∧
      payload.flatMap byteBits =
        codewordsOf (codeTableOf ns root) src ++
          List.replicate ((8 - payloadBits (codeTableOf ns root) src % 8) % 8) false := by
  obtain ⟨hv, hsum⟩ := countAdd_valid h
  obtain ⟨hshape, hfacts, htb⟩ := treeBuild_treeOf hv
  obtain ⟨ns, root, ht⟩ : ∃ ns root, treeOf (countAdd zeroFreq src) = (ns, root) := ⟨_, _, rfl⟩
  simp only [ht] at hshape hfacts htb
  have hlen : ∀ b ∈ src, (codeAt (codeTableOf ns root) b).len ≠ 0#8 := by
    intro b hb h0
    rcases codeTable_built hshape hfacts b with ⟨-, p, j, -, -, hp, -, -, -, hl⟩ | ⟨hz, -⟩
    · rw [h0] at hl; simp at hl; omega
    · exact countAdd_pos h hb hz
  obtain ⟨evs, bytes, w, hloop, hsink, hdata, hbits, hlegal⟩ :=
    payloadLoop_spec (codeTableOf ns root) src Writer.reset hlen
  have hwl := hlegal writerLegal_reset
  obtain ⟨last, v, hflush, -, -, hfl⟩ := flushBits_spec w
  obtain ⟨rfl, hlast⟩ := hfl hwl
  rw [pendingBits_reset, List.nil_append] at hbits
  have hwoff : w.off.val = payloadBits (codeTableOf ns root) src % 8 := by
    have h8 := congrArg List.length hbits
    rw [List.length_append, flatMap_byteBits_length, pendingBits_length, codewordsOf_length] at h8
    have := w.off.isLt
    omega
  refine ⟨ns, root, [PortEvent.srcRewind] ++ src.map PortEvent.srcByte ++ [PortEvent.srcEOF] ++
    (headerBytes (countAdd zeroFreq src)).map PortEvent.snkByte ++ [PortEvent.srcRewind] ++ evs ++ [PortEvent.srcEOF] ++
    last.map PortEvent.snkByte,
    bytes ++ last, ht.symm, hshape, hfacts, htb, ?_, ?_, ?_, ?_⟩
  · intro s hc hsrc
    subst hsrc
    rw [encodeBody, encodeCount, countLoop_fits s.src _ _ (by simp [encodeStart]) (by simp [encodeStart])
      (by simpa [encodeStart] using h)]
    rw [Res.andThen_ok, encodeTables, htb _ (by simpa [encodeStart] using hc) (by simp [encodeStart]),
      Res.andThen_ok, Res.andThen_ok, encodeHeader_spec (by simp [encodeStart]), encodePayload,
      hloop _ 0 _ (by simp [emitted, encodeStart]) (by simp [emitted, encodeStart])
        (by simp [emitted, encodeStart]) (by simp [emitted])
        (by simp only [emitted, hsum, srcRewind_block, setPhase_block, codeGen_block, BitVec.toNat_ofNat, Nat.zero_add]
            simp only [Config.maxTotal] at h; omega),
      Res.andThen_ok, encodeFinish, hflush _ (by simp [emitted])]
    have e64 : BitVec.ofNat 64 s.src.length + BitVec.ofNat 64 s.src.length = BitVec.ofNat 64 (2 * s.src.length) := by
      rw [← BitVec.ofNat_add]; congr 1; omega
    simp [encodeStart, emitted, hsum, headerBytes_length, hwoff, e64, BitVec.ofNat_add, BitVec.add_assoc]
  · have hr : sinkBytes [.srcRewind] = [] := rfl
    have he : sinkBytes [.srcEOF] = [] := rfl
    simp only [sinkBytes_append, sinkBytes_srcBytes, sinkBytes_snkBytes, hsink, hr, he, List.nil_append,
      List.append_assoc]
  · intro e he
    simp only [List.mem_append, List.mem_singleton] at he
    rcases he with ((((((rfl | he) | rfl) | he) | rfl) | he) | rfl) | he
    · exact .inr rfl
    · exact .inl (dataEvent_srcBytes _ e he)
    · exact .inl (.inr (.inr rfl))
    · exact .inl (dataEvent_snkBytes _ e he)
    · exact .inr rfl
    · exact .inl (hdata e he)
    · exact .inl (.inr (.inr rfl))
    · exact .inl (dataEvent_snkBytes _ e he)
  · rw [List.flatMap_append, hlast, ← List.append_assoc, hbits, hwoff]

/-- ENCODE of a source that does not fit: INPUT_TOO_LONG in phase COUNT. -/
theorem encodeBody_long {s : State} (h : Config.maxTotal < s.src.length) :
    encodeBody s =
      .err .inputTooLong
        { s with
          block :=
            { s.block with
              status := { s.block.status with phase := .count }
              freq := countAdd zeroFreq (s.src.take Config.maxTotal)
              nTotal := BitVec.ofNat 32 Config.maxTotal
              writer := Writer.reset
              inCount := BitVec.ofNat 64 (Config.maxTotal + 1)
              outCount := 0#64 }
          srcPos := Config.maxTotal + 1
          portlog := s.portlog ++ [.srcRewind] ++ (s.src.take (Config.maxTotal + 1)).map .srcByte } := by
  rw [encodeBody, encodeCount, countLoop_long s.src _ _ (by simp [encodeStart]) (by simp [encodeStart])
    (by simp [encodeStart]) (by simpa [encodeStart] using h)]
  simp [encodeStart]

/-- ENCODE, on any source and in any state, raises nothing but INPUT_TOO_LONG in phase COUNT and FORMAT_ERROR in phase
PAYLOAD; with the source fixed it never raises the second. -/
theorem encodeBody_outcome (s : State) (hc : 256 ≤ s.params.heapCap) :
    (∃ t, encodeBody s = .ok () t) ∨
      ∃ t, encodeBody s = .err .inputTooLong t ∧ t.block.status = { s.block.status with phase := .count } := by
  rcases Nat.lt_or_ge Config.maxTotal s.src.length with h | h
  · exact .inr ⟨_, encodeBody_long h, rfl⟩
  · obtain ⟨ns, root, evs, payload, -, -, -, -, hb, -⟩ := encodeBody_spec h
    exact .inl ⟨_, hb s hc rfl⟩

end Sys2Proof.Machine
end

