-- ==== Sys2Proof/Laws/Decoder.lean ====
section
/-! SUPPORT. DECODE phase by phase: reading the header, and walking the tree (45_decoder_fsm.md R261-R267). -/

namespace Sys2Proof.Machine

/-! ### Words from an aligned reader -/

theorem bigEndian_length (v : Word) : (bigEndian v).length = 4 := rfl

/-- Any four bytes are the big-endian bytes of a word. -/
theorem exists_bigEndian (bytes : List Byte) (h : bytes.length = 4) : ∃ v : Word, bigEndian v = bytes := by
  have hl : (bytes.flatMap byteBits).length = 32 := by rw [flatMap_byteBits_length, h]
  refine ⟨BitVec.ofNat 32 (bitsValue 0 (bytes.flatMap byteBits)), flatMap_byteBits_inj ?_⟩
  rw [bigEndian_bits]
  have := bitsDown_bitsValue (w := 32) (bytes.flatMap byteBits) (by omega)
  rwa [hl] at this

theorem unreadBits_aligned {s : State} (hv : s.block.reader.valid = false) :
    unreadBits s = (s.src.drop s.srcPos).flatMap byteBits := by
  rw [unreadBits, hv]; rfl

/-- ReadU32 from an aligned reader with four bytes left (43_bit_stream_io.md R224). -/
theorem readU32_aligned {s : State} {v : Word} {more : List Byte} (hv : s.block.reader.valid = false)
    (hd : s.src.drop s.srcPos = bigEndian v ++ more) :
    readU32 s = .ok v (fetched s 4 { buf := v.extractLsb' 0 8, off := 0, valid := false }) := by
  have hu := unreadBits_aligned hv
  rw [hd, List.flatMap_append, bigEndian_bits] at hu
  have hlen : s.src.length - s.srcPos = 4 + more.length := by
    have := congrArg List.length hd
    rwa [List.length_drop, List.length_append, bigEndian_length] at this
  obtain ⟨m, r, h1, h2, -, h4, h5, h6⟩ := readBitList_spec 32 s (by rw [hu]; simp)
  have hbet := h4 (by omega)
  rw [hu, List.drop_append_of_le_length (by simp), List.drop_eq_nil_of_le (by simp), List.nil_append] at h2
  have hbits := congrArg List.length h2
  rw [unreadBits_length, flatMap_byteBits_length, bitsLeft, fetched_src, fetched_srcPos, fetched_reader] at hbits
  have hrv : r.valid = false := by
    by_contra hne
    have hne' : r.valid = true := by simpa using hne
    have h0 := hbet.1 hne'
    have hval : r.off.val ≠ 0 := fun h => h0 (Fin.ext h)
    rw [if_pos hne'] at hbits
    have := r.off.isLt
    omega
  have hm : m = 4 := by
    rw [if_neg (by simp [hrv])] at hbits
    omega
  subst hm
  have hr : r = { buf := v.extractLsb' 0 8, off := 0, valid := false } := by
    rw [hd, List.take_append_of_le_length (by simp [bigEndian]), List.take_of_length_le (by simp [bigEndian])] at h5
    have hb : r.buf = v.extractLsb' 0 8 := h5
    have ho := hbet.2 hrv
    cases r
    simp only at hb ho hrv
    rw [hb, ho, hrv]
  rw [readU32_eq, h1, hu, List.take_append_of_le_length (by simp), List.take_of_length_le (by simp), Res.andThen_ok,
    ofNat_bitsValue_bitsDown, hr]

/-- ReadU32 from an aligned reader with fewer than four bytes left: all are fetched, then the source is at its end. -/
theorem readU32_short {s : State} {left : List Byte} (hv : s.block.reader.valid = false) (ho : s.block.reader.off = 0)
    (hd : s.src.drop s.srcPos = left) (hl : left.length < 4) :
    readU32 s =
      .err .streamTruncated
        { fetched s left.length { buf := left.getLastD s.block.reader.buf, off := 0, valid := false } with
          portlog := s.portlog ++ left.map .srcByte ++ [.srcEOF] } := by
  have hu := unreadBits_aligned hv
  rw [hd] at hu
  have hlen : s.src.length - s.srcPos = left.length := by
    have := congrArg List.length hd
    rwa [List.length_drop] at this
  obtain ⟨m, r, h1, h2, h3, h4, h5, h6⟩ := readBitList_short 32 s (by rw [hu, flatMap_byteBits_length]; omega)
  have hbits := congrArg List.length h2
  rw [unreadBits_length, bitsLeft, fetched_src, fetched_srcPos, fetched_reader, List.length_nil] at hbits
  have hrv : r.valid = false := by
    by_contra hne
    rw [if_pos (by simpa using hne)] at hbits
    have := r.off.isLt
    omega
  have hm : m = left.length := by
    rw [if_neg (by simp [hrv])] at hbits
    omega
  subst hm
  have hoff : r.off = 0 := by
    by_cases he : unreadBits s = []
    · rw [(h3 he).2]; exact ho
    · exact (h4 he).2 hrv
  rw [hd, List.take_of_length_le (Nat.le_refl _)] at h5
  have hr : r = { buf := left.getLastD s.block.reader.buf, off := 0, valid := false } := by
    cases r
    simp only at h5 hoff hrv
    rw [h5, hoff, hrv]
  rw [readU32_eq, h1, Res.andThen_err, hr]
  simp [fetched, hd]

/-! ### The header -/

/-- The counts of some bytes copied from one table into another. -/
def copyCounts (f : Vector Word 256) (bs : List Byte) (g : Vector Word 256) : Vector Word 256 :=
  bs.foldl (fun g b => freqSet g b (freqAt f b)) g

theorem freqAt_copyCounts (f : Vector Word 256) (bs : List Byte) :
    ∀ (g : Vector Word 256) (b : Byte),
      freqAt (copyCounts f bs g) b = if b ∈ bs then freqAt f b else freqAt g b := by
  induction bs with
  | nil => intro g b; simp [copyCounts]
  | cons x xs ih =>
    intro g b
    rw [copyCounts, List.foldl_cons]
    change freqAt (copyCounts f xs _) b = _
    rw [ih, freqAt_freqSet]
    by_cases hb : b ∈ xs
    · rw [if_pos hb, if_pos (List.mem_cons_of_mem _ hb)]
    · rw [if_neg hb]
      by_cases hx : b = x
      · subst hx; simp
      · simp [hx, hb]

theorem copyCounts_all (f g : Vector Word 256) : copyCounts f allBytes g = f := by
  refine freq_ext fun b => ?_
  rw [freqAt_copyCounts, if_pos (mem_allBytes b)]

/-- Reading whole counts from an aligned reader. -/
theorem readCounts_ok (f : Vector Word 256) (more : List Byte) (bs : List Byte) :
    ∀ s : State, s.block.reader.valid = false → s.block.reader.off = 0 →
      s.src.drop s.srcPos = (bs.flatMap fun b => bigEndian (freqAt f b)) ++ more →
      ∃ buf, readCounts bs s =
        .ok ()
          { s with
            block :=
              { s.block with
                freq := copyCounts f bs s.block.freq
                reader := { buf := buf, off := 0, valid := false }
                inCount := s.block.inCount + BitVec.ofNat 64 (4 * bs.length) }
            srcPos := s.srcPos + 4 * bs.length
            portlog := s.portlog ++ (bs.flatMap fun b => bigEndian (freqAt f b)).map .srcByte } := by
  induction bs with
  | nil =>
    intro s hv ho _
    refine ⟨s.block.reader.buf, ?_⟩
    have hr : s.block.reader = { buf := s.block.reader.buf, off := 0, valid := false } := by rw [← ho, ← hv]
    simp [readCounts, copyCounts, ← hr]
  | cons b bs ih =>
    intro s hv ho hd
    rw [List.flatMap_cons, List.append_assoc] at hd
    have hlen : s.src.length - s.srcPos = 4 + ((bs.flatMap fun b => bigEndian (freqAt f b)) ++ more).length := by
      have := congrArg List.length hd
      rwa [List.length_drop, List.length_append, bigEndian_length] at this
    have hd' : s.src.drop (s.srcPos + 4) = (bs.flatMap fun b => bigEndian (freqAt f b)) ++ more := by
      rw [← List.drop_drop, hd, List.drop_append_of_le_length (by simp [bigEndian]), List.drop_eq_nil_of_le (by simp [bigEndian]),
        List.nil_append]
    have htake : (s.src.drop s.srcPos).take 4 = bigEndian (freqAt f b) := by
      rw [hd, List.take_append_of_le_length (by simp [bigEndian]), List.take_of_length_le (by simp [bigEndian])]
    rw [readCounts, readU32_aligned hv hd]
    simp only []
    obtain ⟨buf, h⟩ := ih
      { fetched s 4 { buf := (freqAt f b).extractLsb' 0 8, off := 0, valid := false } with
        block :=
          { (fetched s 4 { buf := (freqAt f b).extractLsb' 0 8, off := 0, valid := false }).block with
            freq := freqSet s.block.freq b (freqAt f b) } }
      rfl rfl hd'
    refine ⟨buf, ?_⟩
    change readCounts bs _ = _ at h
    refine h.trans ?_
    have e64 : ∀ q : BitVec 64, q + BitVec.ofNat 64 4 + BitVec.ofNat 64 (4 * bs.length) =
        q + BitVec.ofNat 64 (4 * (bs.length + 1)) := fun q => by
      rw [BitVec.add_assoc, ← BitVec.ofNat_add]; congr 2; omega
    simp only [fetched, htake, e64, List.length_cons, List.flatMap_cons, List.map_append, List.append_assoc]
    have e : s.srcPos + 4 + 4 * bs.length = s.srcPos + 4 * (bs.length + 1) := by omega
    rw [e]
    rfl

/-- Reading counts from a source that ends too soon: FORMAT_ERROR, with every byte fetched. -/
theorem readCounts_short (bs : List Byte) :
    ∀ (left : List Byte) (s : State), s.block.reader.valid = false → s.block.reader.off = 0 →
      s.src.drop s.srcPos = left → left.length < 4 * bs.length →
      ∃ g buf, readCounts bs s =
        .err .formatError
          { s with
            block :=
              { s.block with
                freq := g
                reader := { buf := buf, off := 0, valid := false }
                inCount := s.block.inCount + BitVec.ofNat 64 left.length }
            srcPos := s.srcPos + left.length
            portlog := s.portlog ++ left.map .srcByte ++ [.srcEOF] } := by
  induction bs with
  | nil => intro left s _ _ _ h; simp at h
  | cons b bs ih =>
    intro left s hv ho hd hl
    rw [List.length_cons] at hl
    by_cases h4 : left.length < 4
    · refine ⟨s.block.freq, left.getLastD s.block.reader.buf, ?_⟩
      rw [readCounts, readU32_short hv ho hd h4]
      simp [fetched]
    · obtain ⟨v, hvb⟩ := exists_bigEndian (left.take 4) (by rw [List.length_take]; omega)
      have hsplit : s.src.drop s.srcPos = bigEndian v ++ left.drop 4 := by
        rw [hd, hvb, List.take_append_drop]
      have hd' : s.src.drop (s.srcPos + 4) = left.drop 4 := by rw [← List.drop_drop, hd]
      rw [readCounts, readU32_aligned hv hsplit]
      simp only []
      obtain ⟨g, buf, h⟩ := ih (left.drop 4)
        { fetched s 4 { buf := v.extractLsb' 0 8, off := 0, valid := false } with
          block :=
            { (fetched s 4 { buf := v.extractLsb' 0 8, off := 0, valid := false }).block with
              freq := freqSet s.block.freq b v } }
        rfl rfl hd' (by rw [List.length_drop]; omega)
      refine ⟨g, buf, h.trans ?_⟩
      have hlen : (left.drop 4).length + 4 = left.length := by rw [List.length_drop]; omega
      have e64 : ∀ q : BitVec 64, q + BitVec.ofNat 64 4 + BitVec.ofNat 64 (left.drop 4).length =
          q + BitVec.ofNat 64 left.length := fun q => by
        rw [BitVec.add_assoc, ← BitVec.ofNat_add]; congr 2; omega
      have emap : (left.take 4).map PortEvent.srcByte ++ ((left.drop 4).map PortEvent.srcByte ++ [PortEvent.srcEOF]) =
          left.map PortEvent.srcByte ++ [PortEvent.srcEOF] := by
        rw [← List.append_assoc, ← List.map_append, List.take_append_drop]
      have epos : s.srcPos + 4 + (left.drop 4).length = s.srcPos + left.length := by omega
      simp only [fetched, hd, e64, List.append_assoc, emap, epos]

/-- Phase HEADER_READ, from the start of DECODE, on a source that begins with a header. -/
theorem decodeHeader_ok {s : State} {f : Vector Word 256} {more : List Byte} (h : s.src = headerBytes f ++ more) :
    ∃ buf, readCounts allBytes (decodeStart s) =
      .ok ()
        { s with
          block :=
            { s.block with
              status := { s.block.status with phase := .headerRead }
              freq := f
              nTotal := 0#32
              reader := { buf := buf, off := 0, valid := false }
              inCount := 1024#64
              outCount := 0#64
              running := { s.block.running with emitted := 0#32 } }
          srcPos := 1024
          portlog := s.portlog ++ [.srcRewind] ++ (headerBytes f).map .srcByte } := by
  obtain ⟨buf, hb⟩ := readCounts_ok f more allBytes (decodeStart s) rfl rfl (by
    change s.src.drop 0 = _; rw [List.drop_zero, h]; rfl)
  refine ⟨buf, hb.trans ?_⟩
  rw [copyCounts_all]
  simp [decodeStart, headerBytes]

/-! ### Walking -/

/-- What a run of fetches leaves: a reader that was between bits is so again, its byte is the last one fetched, and no
byte beyond the source was. -/
structure FetchedWell (s : State) (m : Nat) (r : Reader) : Prop where
  between : s.block.reader.between → r.between
  buf : r.buf = ((s.src.drop s.srcPos).take m).getLastD s.block.reader.buf
  bound : s.srcPos + m ≤ max s.srcPos s.src.length

theorem fetchedWell_zero (s : State) : FetchedWell s 0 s.block.reader := ⟨id, by simp, by omega⟩

theorem FetchedWell.trans {s : State} {m n : Nat} {q r : Reader} (h1 : FetchedWell s m q)
    (h2 : FetchedWell (fetched s m q) n r) : FetchedWell s (m + n) r := by
  refine ⟨fun h => h2.between (h1.between h), ?_, ?_⟩
  · rw [h2.buf, fetched_src, fetched_srcPos, fetched_reader, h1.buf, List.take_add, List.drop_drop]
    rcases (List.drop (s.srcPos + m) s.src).take n with _ | ⟨y, ys⟩
    · simp
    · simp [List.getLastD_eq_getLast?]
  · have := h1.bound
    have := h2.bound
    rw [fetched_src, fetched_srcPos] at this
    omega

/-- How many bytes an aligned reader has fetched after some bits, and where it stands. -/
theorem fetched_count {s : State} {m n : Nat} {r : Reader} {bits more : List Bool} (hv : s.block.reader.valid = false)
    (ho : s.block.reader.off = 0) (hw : FetchedWell s m r) (hu : unreadBits s = bits ++ more)
    (hm : unreadBits (fetched s m r) = more) (hn : bits.length = n) :
    m = (n + 7) / 8 ∧ r.off.val = n % 8 ∧ (r.valid = true ↔ n % 8 ≠ 0) := by
  have hb := hw.between ⟨fun h => by rw [hv] at h; exact absurd h (by simp), fun _ => ho⟩
  have h1 := congrArg List.length hu
  have h2 := congrArg List.length hm
  rw [unreadBits_length, List.length_append, hn, bitsLeft, if_neg (by simp [hv])] at h1
  rw [unreadBits_length, bitsLeft, fetched_src, fetched_srcPos, fetched_reader] at h2
  have hbound := hw.bound
  have hlt := r.off.isLt
  cases hrv : r.valid with
  | true =>
    have hne : r.off.val ≠ 0 := fun h => hb.1 hrv (Fin.ext h)
    rw [hrv, if_pos rfl] at h2
    exact ⟨by omega, by omega, fun _ => by omega, fun _ => rfl⟩
  | false =>
    have h0 : r.off.val = 0 := by rw [hb.2 hrv]; rfl
    rw [hrv, if_neg (by simp)] at h2
    refine ⟨by omega, by omega, fun h => absurd h (by simp), fun h => absurd ?_ h⟩
    omega

/-- A walk along a path: it takes the path's bits and goes on at the node they lead to. -/
theorem walkSymbol_path {ns : List Node} (p : List Bool) :
    ∀ (i j : NodeIdx) (more : List Bool) (s : State), s.block.nodes = ns → walkPath ns i p = some j →
      unreadBits s = p ++ more →
      ∃ m r, (∀ fuel, walkSymbol (p.length + fuel) i s = walkSymbol fuel j (fetched s m r)) ∧
        unreadBits (fetched s m r) = more ∧ FetchedWell s m r := by
  induction p with
  | nil =>
    intro i j more s hns hw hu
    rw [walkPath, Option.some.injEq] at hw
    subst hw
    exact ⟨0, s.block.reader, fun fuel => by rw [fetched_zero, List.length_nil, Nat.zero_add],
      by rw [fetched_zero, hu]; rfl, fetchedWell_zero s⟩
  | cons x p ih =>
    intro i j more s hns hw hu
    rcases readBit_spec s with ⟨h0, -⟩ | ⟨y, m, r, h1, h2, h3, h4, h5⟩
    · rw [hu] at h0; exact absurd h0 (by simp)
    · rw [hu, List.cons_append, List.cons.injEq] at h2
      obtain ⟨rfl, h2⟩ := h2
      rw [walkPath] at hw
      cases hnode : nodeAt ns i.toNat with
      | leaf _ => rw [hnode] at hw; exact absurd hw (by simp)
      | internal l q =>
        rw [hnode] at hw
        simp only [] at hw
        by_cases hc : (if x = true then q else l) = Config.nil
        · rw [if_pos hc] at hw; exact absurd hw (by simp)
        · rw [if_neg hc] at hw
          obtain ⟨m', r', g1, g2, g3⟩ := ih (if x = true then q else l) j more (fetched s m r) hns hw h2.symm
          refine ⟨m + m', r', fun fuel => ?_, by rw [← fetched_fetched s m m' r r', g2],
            FetchedWell.trans ⟨fun _ => h3, h4, h5⟩ g3⟩
          rw [List.length_cons, show p.length + 1 + fuel = (p.length + fuel) + 1 by omega, walkSymbol, hns, hnode]
          simp only []
          rw [h1, Res.andThen_ok]
          rw [if_neg hc, g1, fetched_fetched]

/-- One symbol: a walk along the path to a leaf. -/
theorem walkSymbol_leaf {ns : List Node} {i j : NodeIdx} {b : Byte} {p more : List Bool} {s : State}
    (hns : s.block.nodes = ns) (hw : walkPath ns i p = some j) (hj : ns[j.toNat]? = some (.leaf b))
    (hu : unreadBits s = p ++ more) :
    ∃ m r, walkSymbol (bitsLeft s + 1) i s = .ok b (fetched s m r) ∧ unreadBits (fetched s m r) = more ∧
      FetchedWell s m r := by
  obtain ⟨m, r, h1, h2, h3⟩ := walkSymbol_path p i j more s hns hw hu
  refine ⟨m, r, ?_, h2, h3⟩
  rw [show bitsLeft s + 1 = p.length + (more.length + 1) by
      rw [← unreadBits_length, hu, List.length_append]; omega, h1, walkSymbol]
  change (match nodeAt s.block.nodes j.toNat with
    | .leaf b => _
    | .internal l r => _) = _
  rw [hns, nodeAt_of_getElem? hj]

/-- The source runs out inside a symbol: STREAM_TRUNCATED, with every bit taken. -/
theorem walkSymbol_short {ns : List Node} {i j l q : NodeIdx} {p : List Bool} {s : State} (hns : s.block.nodes = ns)
    (hw : walkPath ns i p = some j) (hj : ns[j.toNat]? = some (.internal l q)) (hu : unreadBits s = p) :
    ∃ m r, walkSymbol (bitsLeft s + 1) i s =
        .err .streamTruncated { fetched s m r with portlog := (fetched s m r).portlog ++ [.srcEOF] } ∧
      unreadBits (fetched s m r) = [] ∧ FetchedWell s m r := by
  obtain ⟨m, r, h1, h2, h3⟩ := walkSymbol_path p i j [] s hns hw (by rw [hu, List.append_nil])
  refine ⟨m, r, ?_, h2, h3⟩
  rw [show bitsLeft s + 1 = p.length + 1 by rw [← unreadBits_length, hu], h1, walkSymbol]
  change (match nodeAt s.block.nodes j.toNat with
    | .leaf b => _
    | .internal l q => _) = _
  rw [hns, nodeAt_of_getElem? hj]
  rcases readBit_spec (fetched s m r) with ⟨-, h4⟩ | ⟨y, m', r', -, h5, -⟩
  · simp only []
    rw [h4, Res.andThen_err]
  · rw [h2] at h5; exact absurd h5 (by simp)

/-- A bit that leads to an absent child: FORMAT_ERROR, with that bit taken. -/
theorem walkSymbol_absent {ns : List Node} {i j l q : NodeIdx} {p more : List Bool} {x : Bool} {s : State}
    (hns : s.block.nodes = ns) (hw : walkPath ns i p = some j) (hj : ns[j.toNat]? = some (.internal l q))
    (hx : (if x then q else l) = Config.nil) (hu : unreadBits s = p ++ x :: more) :
    ∃ m r, walkSymbol (bitsLeft s + 1) i s = .err .formatError (fetched s m r) ∧
      unreadBits (fetched s m r) = more ∧ FetchedWell s m r := by
  obtain ⟨m, r, h1, h2, h3⟩ := walkSymbol_path p i j (x :: more) s hns hw hu
  rcases readBit_spec (fetched s m r) with ⟨h0, -⟩ | ⟨y, m', r', g1, g2, g3, g4, g5⟩
  · rw [h2] at h0; exact absurd h0 (by simp)
  · rw [h2, List.cons.injEq] at g2
    obtain ⟨rfl, g2⟩ := g2
    refine ⟨m + m', r', ?_, by rw [← fetched_fetched s m m' r r', g2], h3.trans ⟨fun _ => g3, g4, g5⟩⟩
    rw [show bitsLeft s + 1 = p.length + (more.length + 2) by
      rw [← unreadBits_length, hu, List.length_append, List.length_cons]; omega, h1, walkSymbol]
    change (match nodeAt s.block.nodes j.toNat with
      | .leaf b => _
      | .internal l q => _) = _
    rw [hns, nodeAt_of_getElem? hj]
    simp only []
    rw [g1, Res.andThen_ok]
    rw [if_pos hx, fetched_fetched]

/-- `s` after some symbols: the reader and the fetches as in `fetched`, and the symbols emitted. -/
def walked (s : State) (m : Nat) (r : Reader) (count : Nat) (evs : List PortEvent) : State :=
  { s with
    block :=
      { s.block with
        reader := r
        inCount := s.block.inCount + BitVec.ofNat 64 m
        outCount := s.block.outCount + BitVec.ofNat 64 count
        running := { s.block.running with emitted := s.block.running.emitted + BitVec.ofNat 32 count } }
    srcPos := s.srcPos + m
    portlog := s.portlog ++ evs }

/-- A state's unread bits depend on its reader and source alone. -/
theorem unreadBits_walked (s : State) (m : Nat) (r : Reader) (count : Nat) (evs : List PortEvent) :
    unreadBits (walked s m r count evs) = unreadBits (fetched s m r) := rfl

theorem sourceBytes_append (xs ys : List PortEvent) : sourceBytes (xs ++ ys) = sourceBytes xs ++ sourceBytes ys := by
  simp [sourceBytes]

theorem sourceBytes_srcBytes (bytes : List Byte) : sourceBytes (bytes.map .srcByte) = bytes := by
  induction bytes with
  | nil => rfl
  | cons b bs ih => rw [List.map_cons, ← List.singleton_append, sourceBytes_append, ih]; rfl

theorem byteEvent.data {e : PortEvent} (h : byteEvent e) : dataEvent e := by
  rcases h with h | h
  · exact .inl h
  · exact .inr (.inl h)

/-- Codewords in order: their symbols are emitted, and the walk goes on with the symbols that are left. -/
theorem walkSymbols_path {ns : List Node} {root : NodeIdx} (path : Byte → List Bool) (more : List Bool)
    (xs : List Byte) :
    (∀ b ∈ xs, ∃ j, walkPath ns root (path b) = some j ∧ ns[j.toNat]? = some (.leaf b)) →
    ∀ s : State, s.block.nodes = ns → s.block.root = root → unreadBits s = xs.flatMap path ++ more →
      ∃ evs m r,
        (∀ k, walkSymbols (xs.length + k) s = walkSymbols k (walked s m r xs.length evs)) ∧
        sinkBytes evs = xs ∧ (∀ e ∈ evs, byteEvent e) ∧ sourceBytes evs = (s.src.drop s.srcPos).take m ∧
        unreadBits (fetched s m r) = more ∧ FetchedWell s m r := by
  induction xs with
  | nil =>
    intro _ s _ _ hu
    exact ⟨[], 0, s.block.reader, fun k => by simp [walked], rfl, by simp, by simp [sourceBytes],
      by rw [fetched_zero, hu]; rfl, fetchedWell_zero s⟩
  | cons x xs ih =>
    intro hp s hns hroot hu
    obtain ⟨j, hw, hj⟩ := hp x List.mem_cons_self
    rw [List.flatMap_cons, List.append_assoc] at hu
    obtain ⟨m, r, h1, h2, h3⟩ := walkSymbol_leaf (i := root) hns hw hj hu
    obtain ⟨evs, m', r', g1, g2, g3, g4, g5, g6⟩ := ih (fun b hb => hp b (List.mem_cons_of_mem _ hb))
      (emitSymbol x (fetched s m r)) hns hroot (by
        have : unreadBits (emitSymbol x (fetched s m r)) = unreadBits (fetched s m r) := rfl
        rw [this, h2])
    have hg6 : FetchedWell (fetched s m r) m' r' := ⟨g6.1, g6.2, g6.3⟩
    refine ⟨((s.src.drop s.srcPos).take m).map .srcByte ++ [.snkByte x] ++ evs, m + m', r', fun k => ?_, ?_, ?_, ?_, ?_,
      h3.trans hg6⟩
    · rw [List.length_cons, show xs.length + 1 + k = (xs.length + k) + 1 by omega, walkSymbols, hroot, h1, Res.andThen_ok,
        g1]
      have e64 : ∀ q : BitVec 64, q + 1#64 + BitVec.ofNat 64 xs.length = q + BitVec.ofNat 64 (xs.length + 1) := fun q => by
        rw [BitVec.ofNat_add, BitVec.add_assoc, BitVec.add_comm (1#64)]
      have e32 : ∀ q : BitVec 32, q + 1#32 + BitVec.ofNat 32 xs.length = q + BitVec.ofNat 32 (xs.length + 1) := fun q => by
        rw [BitVec.ofNat_add, BitVec.add_assoc, BitVec.add_comm (1#32)]
      congr 1
      simp [walked, fetched, e64, e32, BitVec.ofNat_add, BitVec.add_assoc, Nat.add_assoc]
    · rw [sinkBytes_append, sinkBytes_append, sinkBytes_srcBytes, g2]; rfl
    · intro e he
      rcases List.mem_append.1 he with he | he
      · rcases List.mem_append.1 he with he | he
        · obtain ⟨b, -, rfl⟩ := List.mem_map.1 he
          exact .inl ⟨b, rfl⟩
        · rw [List.mem_singleton] at he; exact .inr ⟨x, he⟩
      · exact g3 e he
    · rw [sourceBytes_append, sourceBytes_append, sourceBytes_srcBytes, g4, List.take_add, List.drop_drop]
      change _ ++ [] ++ _ = _
      rw [List.append_nil]
      rfl
    · rw [← fetched_fetched s m m' r r']
      exact g5

/-! ### DECODE -/

/-- The state in which phase WALK begins, after a header of valid counts. -/
def walkStart (s : State) (f : Vector Word 256) (buf : Byte) : State :=
  { s with
    block :=
      { s.block with
        status := { s.block.status with phase := .walk }
        heap := []
        freq := f
        nTotal := BitVec.ofNat 32 (freqSum f)
        nodes := (treeOf f).1
        root := (treeOf f).2
        reader := { buf := buf, off := 0, valid := false }
        inCount := 1024#64
        outCount := 0#64
        running := { s.block.running with emitted := 0#32 } }
    srcPos := 1024
    portlog := s.portlog ++ [.srcRewind] ++ (headerBytes f).map .srcByte }

/-- DECODE of a header of valid counts is its phases WALK and FINISH. -/
theorem decodeBody_valid {s : State} {f : Vector Word 256} {payload : List Byte} (hcap : 256 ≤ s.params.heapCap)
    (hv : countsValid f) (hsrc : s.src = headerBytes f ++ payload) :
    ∃ buf, decodeBody s =
      (walkSymbols (freqSum f) (walkStart s f buf)).andThen fun _ t => .ok () (decodeFinish t) := by
  obtain ⟨buf, hh⟩ := decodeHeader_ok hsrc
  obtain ⟨-, -, htb⟩ := treeBuild_treeOf hv
  have hmax : freqSum f ≤ Config.maxTotal := by rw [freqSum_eq]; exact hv.2
  have hnt : (BitVec.ofNat 32 (freqSum f)).toNat = freqSum f := by
    rw [BitVec.toNat_ofNat]; exact Nat.mod_eq_of_lt (by simp only [Config.maxTotal] at hmax; omega)
  refine ⟨buf, ?_⟩
  rw [decodeBody, hh, Res.andThen_ok, decodeBuild, htb _ (by simpa using hcap) rfl, Res.andThen_ok, Res.andThen_ok]
  have hdw : ∀ u : State, u.block.nTotal = BitVec.ofNat 32 (freqSum f) →
      decodeWalk u = walkSymbols (freqSum f) (setPhase .walk u) := fun u hu => by
    rw [← hnt, ← hu]; rfl
  rw [hdw _ rfl]
  rfl

theorem unreadBits_walkStart {s : State} {f : Vector Word 256} {payload : List Byte} (buf : Byte)
    (hsrc : s.src = headerBytes f ++ payload) : unreadBits (walkStart s f buf) = payload.flatMap byteBits := by
  rw [unreadBits_aligned rfl]
  change (s.src.drop 1024).flatMap byteBits = _
  rw [hsrc, List.drop_append_of_le_length (by rw [headerBytes_length]),
    List.drop_eq_nil_of_le (by rw [headerBytes_length]), List.nil_append]

theorem src_walkStart {s : State} {f : Vector Word 256} {payload : List Byte} (buf : Byte)
    (hsrc : s.src = headerBytes f ++ payload) : (walkStart s f buf).src.drop (walkStart s f buf).srcPos = payload := by
  change s.src.drop 1024 = _
  rw [hsrc, List.drop_append_of_le_length (by rw [headerBytes_length]),
    List.drop_eq_nil_of_le (by rw [headerBytes_length]), List.nil_append]

/-- The codewords of counted bytes lead from the root to their leaves. -/
theorem codeOf_path {f : Vector Word 256} (hv : countsValid f) {b : Byte} (hb : freqAt f b ≠ 0#32) :
    ∃ j, walkPath (treeOf f).1 (treeOf f).2 (codewordBits (codeAt (codeOf f) b)) = some j ∧
      (treeOf f).1[j.toNat]? = some (.leaf b) := by
  obtain ⟨h1, h2, -⟩ := treeBuild_treeOf hv
  rcases codeTable_built h1 h2 b with ⟨-, p, j, hp, hj, -, -, -, hc, -⟩ | ⟨hz, -⟩
  · exact ⟨j, by rw [codeOf, hc]; exact hp, hj⟩
  · exact absurd hz hb

/-- DECODE of a header of valid counts and of the codewords of some bytes: the bytes go out, and the walk goes on with
the symbols and the bits that are left. -/
theorem decodeBody_walk {s : State} {f : Vector Word 256} {payload xs : List Byte} {more : List Bool} {k : Nat}
    (hcap : 256 ≤ s.params.heapCap) (hv : countsValid f) (hsrc : s.src = headerBytes f ++ payload)
    (hx : ∀ b ∈ xs, freqAt f b ≠ 0#32) (hk : xs.length + k = freqSum f)
    (hbits : payload.flatMap byteBits = codewordsOf (codeOf f) xs ++ more) :
    ∃ buf evs m r,
      decodeBody s =
        ((walkSymbols k (walked (walkStart s f buf) m r xs.length evs)).andThen fun _ t => .ok () (decodeFinish t)) ∧
      sinkBytes evs = xs ∧ (∀ e ∈ evs, byteEvent e) ∧ sourceBytes evs = payload.take m ∧
      unreadBits (fetched (walkStart s f buf) m r) = more ∧ FetchedWell (walkStart s f buf) m r := by
  obtain ⟨buf, h⟩ := decodeBody_valid hcap hv hsrc
  obtain ⟨evs, m, r, h1, h2, h3, h4, h5, h6⟩ :=
    walkSymbols_path (fun b => codewordBits (codeAt (codeOf f) b)) more xs (fun b hb => codeOf_path hv (hx b hb))
      (walkStart s f buf) rfl rfl (by rw [unreadBits_walkStart buf hsrc, hbits]; rfl)
  rw [src_walkStart buf hsrc] at h4
  exact ⟨buf, evs, m, r, by rw [h, ← hk, h1], h2, h3, h4, h5, h6⟩

/-- How many payload bytes have been fetched after the codewords of some bytes, and p more bits. -/
theorem walkStart_count {s : State} {f : Vector Word 256} {payload : List Byte} {buf : Byte} {m : Nat} {r : Reader}
    {bits more : List Bool} (hsrc : s.src = headerBytes f ++ payload) (hw : FetchedWell (walkStart s f buf) m r)
    (hbits : payload.flatMap byteBits = bits ++ more) (hm : unreadBits (fetched (walkStart s f buf) m r) = more) :
    m = (bits.length + 7) / 8 ∧ r.off.val = bits.length % 8 ∧ (r.valid = true ↔ bits.length % 8 ≠ 0) :=
  fetched_count (s := walkStart s f buf) rfl rfl hw (by rw [unreadBits_walkStart buf hsrc, hbits]) hm rfl

end Sys2Proof.Machine
end

