-- ==== Sys2Proof/Laws/Frames.lean ====
section
/-! SUPPORT. What each piece of a command can do in any state: the fields it may change, the port events it may append,
where they leave src_pos, and the errors it may raise (70_reset_and_hazards.md R342, 20_memory.md R77, R81-R86). -/

namespace Sys2Proof.Machine

/-! ### Port events -/

theorem posAfter_append (p : Nat) (xs ys : List PortEvent) :
    (xs ++ ys).foldl posAfter p = ys.foldl posAfter (xs.foldl posAfter p) := List.foldl_append

theorem posAfter_srcBytes (bytes : List Byte) : ∀ p, (bytes.map PortEvent.srcByte).foldl posAfter p = p + bytes.length := by
  induction bytes with
  | nil => intro p; rfl
  | cons b bs ih => intro p; rw [List.map_cons, List.foldl_cons, ih, List.length_cons]; simp only [posAfter]; omega

theorem posAfter_snkBytes (bytes : List Byte) : ∀ p, (bytes.map PortEvent.snkByte).foldl posAfter p = p := by
  induction bytes with
  | nil => intro p; rfl
  | cons b bs ih => intro p; rw [List.map_cons, List.foldl_cons, ih]; rfl

/-- Events of the source port alone. -/
def fetchEvent (e : PortEvent) : Prop := (∃ b, e = .srcByte b) ∨ e = .srcEOF

theorem fetchEvent.data {e : PortEvent} (h : fetchEvent e) : dataEvent e := by
  rcases h with h | h
  · exact .inl h
  · exact .inr (.inr h)

/-- One SrcFetch: its events, and the bytes it counts. -/
theorem srcFetch_cases (s : State) :
    (∃ x, srcFetch s =
      (some x,
        { s with
          block := { s.block with inCount := s.block.inCount + 1#64 }
          srcPos := s.srcPos + 1
          portlog := s.portlog ++ [.srcByte x] })) ∨
      srcFetch s = (none, { s with portlog := s.portlog ++ [.srcEOF] }) := by
  unfold srcFetch
  split
  · exact .inl ⟨_, rfl⟩
  · exact .inr rfl

/-! ### The bit reader -/

/-- ReadBit: the reader, in_count and the source port; a reader in its form stays in it. -/
theorem readBit_frame (s : State) :
    ∃ r c evs,
      (readBit s).state =
        { s with
          block := { s.block with reader := r, inCount := c }
          srcPos := evs.foldl posAfter s.srcPos
          portlog := s.portlog ++ evs } ∧
      (∀ e ∈ evs, fetchEvent e) ∧ (readerLegal s.block.reader → readerLegal r) ∧
      ∀ e t, readBit s = .err e t → e = .streamTruncated := by
  rcases readBit_spec s with ⟨-, h⟩ | ⟨b, m, r, h, -, hb, -, hm⟩
  · refine ⟨s.block.reader, s.block.inCount, [.srcEOF], by rw [h]; rfl, ?_, id, ?_⟩
    · intro e he; rw [List.mem_singleton] at he; exact .inr he
    · intro e t he; rw [h] at he; cases he; rfl
  · refine ⟨r, s.block.inCount + BitVec.ofNat 64 m, ((s.src.drop s.srcPos).take m).map .srcByte, ?_, ?_, ?_, ?_⟩
    · rw [h, posAfter_srcBytes]
      by_cases h0 : m = 0
      · subst h0; simp [fetched, Res.state]
      · have hl : ((s.src.drop s.srcPos).take m).length = m := by
          rw [List.length_take, List.length_drop]; omega
        rw [hl]; rfl
    · intro e he
      obtain ⟨x, -, rfl⟩ := List.mem_map.1 he
      exact .inl ⟨x, rfl⟩
    · exact fun _ hv => hb.2 hv
    · intro e t he; rw [h] at he; cases he

/-- ReadU32, like ReadBit. -/
theorem readBitsInto_frame (k : Nat) :
    ∀ (v : Word) (s : State), ∃ r c evs,
      (readBitsInto k v s).state =
        { s with
          block := { s.block with reader := r, inCount := c }
          srcPos := evs.foldl posAfter s.srcPos
          portlog := s.portlog ++ evs } ∧
      (∀ e ∈ evs, fetchEvent e) ∧ (readerLegal s.block.reader → readerLegal r) ∧
      ∀ e t, readBitsInto k v s = .err e t → e = .streamTruncated := by
  induction k with
  | zero =>
    intro v s
    exact ⟨s.block.reader, s.block.inCount, [], by simp [readBitsInto, Res.state], by simp, id,
      fun e t h => by simp [readBitsInto] at h⟩
  | succ k ih =>
    intro v s
    obtain ⟨r, c, evs, h1, h2, h3, h4⟩ := readBit_frame s
    rw [readBitsInto]
    cases hb : readBit s with
    | err e t =>
      rw [hb] at h1
      exact ⟨r, c, evs, h1, h2, h3, fun e' t' h => by cases h; exact h4 _ _ hb⟩
    | ok b t =>
      rw [hb] at h1
      change t = _ at h1
      obtain ⟨r', c', evs', g1, g2, g3, g4⟩ := ih (2#32 * v + (if b then 1#32 else 0#32)) t
      refine ⟨r', c', evs ++ evs', ?_, ?_, fun h => g3 (by rw [h1]; exact h3 h), fun e t' h => g4 e t' h⟩
      · rw [Res.andThen_ok, g1, h1, posAfter_append]; simp
      · intro e he
        rcases List.mem_append.1 he with he | he
        · exact h2 e he
        · exact g2 e he

theorem readU32_frame (s : State) :
    ∃ r c evs,
      (readU32 s).state =
        { s with
          block := { s.block with reader := r, inCount := c }
          srcPos := evs.foldl posAfter s.srcPos
          portlog := s.portlog ++ evs } ∧
      (∀ e ∈ evs, fetchEvent e) ∧ (readerLegal s.block.reader → readerLegal r) ∧
      ∀ e t, readU32 s = .err e t → e = .streamTruncated :=
  readBitsInto_frame 32 0#32 s

/-! ### The bit writer -/

/-- Writing any bits: the writer, out_count and the sink port. -/
theorem writeBits_frame (bits : List Bool) (s : State) :
    ∃ bytes w, writeBits bits s = emitted s bytes w ∧ (writerLegal s.block.writer → writerLegal w) := by
  obtain ⟨bytes, w, h1, -, -, -, -, h6⟩ := writeBits_spec bits s.block.writer
  exact ⟨bytes, w, h1 s rfl, h6⟩

theorem flushBits_frame (s : State) :
    ∃ bytes w, flushBits s = emitted s bytes w ∧ (writerLegal s.block.writer → w = Writer.reset) ∧
      (s.block.writer.off = 0 → w = s.block.writer) ∧ (s.block.writer.off ≠ 0 → w = Writer.reset) := by
  obtain ⟨bytes, w, h1, h2, h3, h4⟩ := flushBits_spec s.block.writer
  exact ⟨bytes, w, h1 s rfl, fun h => (h4 h).1, fun h => (h2 h).2, fun h => (h3 h).2⟩

/-! ### The tree builder -/

/-- The queue, n_total and the tree of a legal machine. -/
structure BuildLegal (cap : Nat) (h : List Elem) (n : Word) (ns : List Node) (root : NodeIdx) : Prop where
  size : h.length ≤ cap
  order : heapOrdered h
  total : n.toNat ≤ Config.maxTotal
  tree : treeLegal ns root

/-- TreeBuild: n_total, the queue and the tree; with room for every leaf it leaves them legal. -/
theorem treeBuild_frame (s : State) :
    ∃ n h ns root,
      (treeBuild s).state = { s with block := { s.block with nTotal := n, heap := h, nodes := ns, root := root } } ∧
      (256 ≤ s.params.heapCap →
        BuildLegal s.params.heapCap s.block.heap s.block.nTotal s.block.nodes s.block.root →
        BuildLegal s.params.heapCap h n ns root) := by
  by_cases hc : 256 ≤ s.params.heapCap
  · by_cases hv : countsValid s.block.freq
    · obtain ⟨ns, root, h1, -, h3⟩ := treeBuild_valid hv
      refine ⟨_, _, _, _, by rw [h3 s hc rfl]; rfl, fun _ _ => ⟨by simp, ?_, ?_, symbolsOf s.block.freq, ?_, h1⟩⟩
      · intro i hi; simp at hi
      · have hm : freqSum s.block.freq ≤ Config.maxTotal := by rw [freqSum_eq]; exact hv.2
        rw [BitVec.toNat_ofNat]
        exact Nat.le_trans (Nat.mod_le _ _) hm
      · exact symbolsOf_length_le _
    · rw [treeBuild_invalid hv]
      exact ⟨_, _, _, _, rfl, fun _ h => h⟩
  · unfold treeBuild
    split
    · exact ⟨s.block.nTotal, s.block.heap, s.block.nodes, s.block.root, rfl, fun h => absurd h hc⟩
    · cases buildTree s.params.heapCap s.block.freq with
      | ok n t => exact ⟨_, _, _, _, rfl, fun h => absurd h hc⟩
      | err e t => exact ⟨_, _, _, _, rfl, fun h => absurd h hc⟩

/-! ### The loops of ENCODE and DECODE -/

/-- The loop of phase COUNT: the counts, n_total, in_count and the source port; the one error is INPUT_TOO_LONG. -/
theorem countLoop_frame (fuel : Nat) :
    ∀ s : State, ∃ f n c evs,
      (countLoop fuel s).state =
        { s with
          block := { s.block with freq := f, nTotal := n, inCount := c }
          srcPos := evs.foldl posAfter s.srcPos
          portlog := s.portlog ++ evs } ∧
      (∀ e ∈ evs, fetchEvent e) ∧
      (s.block.nTotal.toNat ≤ Config.maxTotal → n.toNat ≤ Config.maxTotal) ∧
      ∀ e t, countLoop fuel s = .err e t → e = .inputTooLong := by
  induction fuel with
  | zero =>
    intro s
    exact ⟨s.block.freq, s.block.nTotal, s.block.inCount, [], by simp [countLoop, Res.state], by simp, id,
      fun e t h => by simp [countLoop] at h⟩
  | succ fuel ih =>
    intro s
    rw [countLoop]
    rcases srcFetch_cases s with ⟨x, h⟩ | h
    · rw [h]
      simp only []
      split
      · refine ⟨s.block.freq, s.block.nTotal, s.block.inCount + 1#64, [.srcByte x], rfl, ?_, id, ?_⟩
        · intro e he; rw [List.mem_singleton] at he; exact .inl ⟨x, he⟩
        · intro e t he; cases he; rfl
      · rename_i hlt
        obtain ⟨f, n, c, evs, g1, g2, g3, g4⟩ := ih
          { s with
            block :=
              { s.block with
                freq := freqSet s.block.freq x (freqAt s.block.freq x + 1#32)
                nTotal := s.block.nTotal + 1#32
                inCount := s.block.inCount + 1#64 }
            srcPos := s.srcPos + 1
            portlog := s.portlog ++ [.srcByte x] }
        refine ⟨f, n, c, .srcByte x :: evs, ?_, ?_, fun _ => g3 ?_, fun e t he => g4 e t he⟩
        · rw [g1]; simp [posAfter]
        · intro e he
          rcases List.mem_cons.1 he with he | he
          · exact .inl ⟨x, he⟩
          · exact g2 e he
        · have hlt' : s.block.nTotal.toNat < Config.maxTotal := by simpa using hlt
          have hm : Config.maxTotal < 2 ^ 32 := by decide
          change (s.block.nTotal + 1#32).toNat ≤ _
          rw [BitVec.toNat_add]
          change (s.block.nTotal.toNat + 1) % 2 ^ 32 ≤ _
          omega
    · rw [h]
      refine ⟨s.block.freq, s.block.nTotal, s.block.inCount, [.srcEOF], rfl, ?_, id, ?_⟩
      · intro e he; rw [List.mem_singleton] at he; exact .inr he
      · intro e t he; cases he

/-- The loop of phase PAYLOAD: the writer, both counters and the ports; the one error is FORMAT_ERROR. -/
theorem payloadLoop_frame (fuel : Nat) :
    ∀ (m : Nat) (s : State), ∃ w ci co evs,
      (payloadLoop fuel m s).state =
        { s with
          block := { s.block with writer := w, inCount := ci, outCount := co }
          srcPos := evs.foldl posAfter s.srcPos
          portlog := s.portlog ++ evs } ∧
      (∀ e ∈ evs, dataEvent e) ∧ (writerLegal s.block.writer → writerLegal w) ∧
      (∀ e t, payloadLoop fuel m s = .err e t → e = .formatError) := by
  induction fuel with
  | zero =>
    intro m s
    exact ⟨s.block.writer, s.block.inCount, s.block.outCount, [], by simp [payloadLoop, Res.state], by simp, id,
      fun e t h => by simp [payloadLoop] at h⟩
  | succ fuel ih =>
    intro m s
    rw [payloadLoop]
    rcases srcFetch_cases s with ⟨x, h⟩ | h
    · rw [h]
      simp only []
      split
      · refine ⟨s.block.writer, s.block.inCount + 1#64, s.block.outCount, [.srcByte x], rfl, ?_, id, ?_⟩
        · intro e he; rw [List.mem_singleton] at he; exact .inl ⟨x, he⟩
        · intro e t he; cases he; rfl
      · let u : State :=
          { s with
            block := { s.block with inCount := s.block.inCount + 1#64 }
            srcPos := s.srcPos + 1
            portlog := s.portlog ++ [.srcByte x] }
        obtain ⟨bytes, w, k1, k2⟩ := writeBits_frame (codewordBits (codeAt s.block.code x)) u
        have hu : emitCode x u = emitted u bytes w := k1
        obtain ⟨w', ci, co, evs, g1, g2, g3, g4⟩ := ih (m + 1) (emitted u bytes w)
        change ∃ w ci co evs, (payloadLoop fuel (m + 1) (emitCode x u)).state = _ ∧ _ ∧ _ ∧
          ∀ e t, payloadLoop fuel (m + 1) (emitCode x u) = .err e t → _
        rw [hu]
        refine ⟨w', ci, co, [.srcByte x] ++ bytes.map .snkByte ++ evs, ?_, ?_, fun hw => g3 (k2 hw), g4⟩
        · rw [g1, posAfter_append, posAfter_append, posAfter_snkBytes]
          simp [u, emitted, posAfter]
        · intro e he
          rcases List.mem_append.1 he with he | he
          · rcases List.mem_append.1 he with he | he
            · rw [List.mem_singleton] at he; exact .inl ⟨x, he⟩
            · exact dataEvent_snkBytes _ e he
          · exact g2 e he
    · rw [h]
      simp only []
      split
      · refine ⟨s.block.writer, s.block.inCount, s.block.outCount, [.srcEOF], rfl, ?_, id, ?_⟩
        · intro e he; rw [List.mem_singleton] at he; exact .inr (.inr he)
        · intro e t he; cases he
      · refine ⟨s.block.writer, s.block.inCount, s.block.outCount, [.srcEOF], rfl, ?_, id, ?_⟩
        · intro e he; rw [List.mem_singleton] at he; exact .inr (.inr he)
        · intro e t he; cases he; rfl

/-- Phase HEADER_WRITE: the writer, out_count and the sink port. -/
theorem writeCounts_frame (bs : List Byte) :
    ∀ s : State, ∃ bytes w, writeCounts bs s = emitted s bytes w ∧ (writerLegal s.block.writer → writerLegal w) := by
  induction bs with
  | nil => intro s; exact ⟨[], s.block.writer, (emitted_nil s).symm, id⟩
  | cons b bs ih =>
    intro s
    obtain ⟨x, v, h1, -, -, -, -, h6⟩ := writeU32_spec (freqAt s.block.freq b) s.block.writer
    obtain ⟨y, w, g1, g2⟩ := ih (emitted s x v)
    refine ⟨x ++ y, w, ?_, fun h => g2 (h6 h)⟩
    rw [writeCounts, List.foldl_cons, h1 s rfl, ← emitted_emitted s x y v w]; exact g1

/-- Phase HEADER_READ: the counts, the reader, in_count and the source port; the one error is FORMAT_ERROR. -/
theorem readCounts_frame (bs : List Byte) :
    ∀ s : State, ∃ f r c evs,
      (readCounts bs s).state =
        { s with
          block := { s.block with freq := f, reader := r, inCount := c }
          srcPos := evs.foldl posAfter s.srcPos
          portlog := s.portlog ++ evs } ∧
      (∀ e ∈ evs, fetchEvent e) ∧ (readerLegal s.block.reader → readerLegal r) ∧
      ∀ e t, readCounts bs s = .err e t → e = .formatError := by
  induction bs with
  | nil =>
    intro s
    exact ⟨s.block.freq, s.block.reader, s.block.inCount, [], by simp [readCounts, Res.state], by simp, id,
      fun e t h => by simp [readCounts] at h⟩
  | cons b bs ih =>
    intro s
    obtain ⟨r, c, evs, h1, h2, h3, -⟩ := readU32_frame s
    rw [readCounts]
    cases hb : readU32 s with
    | err e t =>
      rw [hb] at h1
      exact ⟨s.block.freq, r, c, evs, h1, h2, h3, fun e' t' h => by cases h; rfl⟩
    | ok v t =>
      rw [hb] at h1
      change t = _ at h1
      obtain ⟨f, r', c', evs', g1, g2, g3, g4⟩ := ih { t with block := { t.block with freq := freqSet t.block.freq b v } }
      refine ⟨f, r', c', evs ++ evs', ?_, ?_, fun h => g3 (by rw [h1]; exact h3 h), g4⟩
      · simp only []
        rw [g1, h1, posAfter_append]; simp
      · intro e he
        rcases List.mem_append.1 he with he | he
        · exact h2 e he
        · exact g2 e he

/-- One walk: the reader, in_count and the source port; it raises FORMAT_ERROR or STREAM_TRUNCATED. -/
theorem walkSymbol_frame (fuel : Nat) :
    ∀ (i : NodeIdx) (s : State), ∃ r c evs,
      (walkSymbol fuel i s).state =
        { s with
          block := { s.block with reader := r, inCount := c }
          srcPos := evs.foldl posAfter s.srcPos
          portlog := s.portlog ++ evs } ∧
      (∀ e ∈ evs, fetchEvent e) ∧ (readerLegal s.block.reader → readerLegal r) ∧
      ∀ e t, walkSymbol fuel i s = .err e t → e = .formatError ∨ e = .streamTruncated := by
  induction fuel with
  | zero =>
    intro i s
    exact ⟨s.block.reader, s.block.inCount, [], by simp [walkSymbol, Res.state], by simp, id,
      fun e t h => by cases h; exact .inr rfl⟩
  | succ fuel ih =>
    intro i s
    rw [walkSymbol]
    split
    · exact ⟨s.block.reader, s.block.inCount, [], by simp [Res.state], by simp, id, fun e t h => by cases h⟩
    · rename_i l q _
      obtain ⟨r, c, evs, h1, h2, h3, h4⟩ := readBit_frame s
      cases hb : readBit s with
      | err e t =>
        rw [hb] at h1
        exact ⟨r, c, evs, h1, h2, h3, fun e' t' h => by cases h; exact .inr (h4 _ _ hb)⟩
      | ok b t =>
        rw [hb] at h1
        change t = _ at h1
        rw [Res.andThen_ok]
        simp only []
        by_cases hn : (if b = true then q else l) = Config.nil
        · rw [if_pos hn]
          exact ⟨r, c, evs, h1, h2, h3, fun e t h => by cases h; exact .inl rfl⟩
        · rw [if_neg hn]
          obtain ⟨r', c', evs', g1, g2, g3, g4⟩ := ih (if b = true then q else l) t
          refine ⟨r', c', evs ++ evs', ?_, ?_, fun h => g3 (by rw [h1]; exact h3 h), g4⟩
          · rw [g1, h1, posAfter_append]; simp
          · intro e he
            rcases List.mem_append.1 he with he | he
            · exact h2 e he
            · exact g2 e he

/-- Phase WALK: the reader, both counters, the symbol count and the ports; it raises FORMAT_ERROR or
STREAM_TRUNCATED. -/
theorem walkSymbols_frame (k : Nat) :
    ∀ s : State, ∃ r ci co n evs,
      (walkSymbols k s).state =
        { s with
          block :=
            { s.block with
              reader := r, inCount := ci, outCount := co, running := { s.block.running with emitted := n } }
          srcPos := evs.foldl posAfter s.srcPos
          portlog := s.portlog ++ evs } ∧
      (∀ e ∈ evs, dataEvent e) ∧ (readerLegal s.block.reader → readerLegal r) ∧
      ∀ e t, walkSymbols k s = .err e t → e = .formatError ∨ e = .streamTruncated := by
  induction k with
  | zero =>
    intro s
    exact ⟨s.block.reader, s.block.inCount, s.block.outCount, s.block.running.emitted, [],
      by simp [walkSymbols, Res.state], by simp, id, fun e t h => by simp [walkSymbols] at h⟩
  | succ k ih =>
    intro s
    obtain ⟨r, c, evs, h1, h2, h3, h4⟩ := walkSymbol_frame (bitsLeft s + 1) s.block.root s
    rw [walkSymbols]
    cases hb : walkSymbol (bitsLeft s + 1) s.block.root s with
    | err e t =>
      rw [hb] at h1
      exact ⟨r, c, s.block.outCount, s.block.running.emitted, evs, h1, fun e he => (h2 e he).data, h3,
        fun e' t' h => by cases h; exact h4 _ _ hb⟩
    | ok b t =>
      rw [hb] at h1
      change t = _ at h1
      rw [Res.andThen_ok]
      obtain ⟨r', ci, co, n, evs', g1, g2, g3, g4⟩ := ih (emitSymbol b t)
      refine ⟨r', ci, co, n, evs ++ [.snkByte b] ++ evs', ?_, ?_, fun h => g3 (by rw [h1]; exact h3 h), g4⟩
      · rw [g1, h1, posAfter_append, posAfter_append]; simp [posAfter]
      · intro e he
        rcases List.mem_append.1 he with he | he
        · rcases List.mem_append.1 he with he | he
          · exact (h2 e he).data
          · rw [List.mem_singleton] at he; exact .inr (.inl ⟨b, he⟩)
        · exact g2 e he

/-! ### The bodies of ENCODE and DECODE -/

theorem fetchEvent.body {e : PortEvent} (h : fetchEvent e) : bodyEvent e := .inl h.data

theorem bodyEvent_rewind_append {evs : List PortEvent} (h : ∀ e ∈ evs, dataEvent e) :
    ∀ e ∈ [PortEvent.srcRewind] ++ evs, bodyEvent e := by
  intro e he
  rcases List.mem_append.1 he with he | he
  · rw [List.mem_singleton] at he; exact .inr he
  · exact .inl (h e he)

/-- ENCODE up to its phase FINISH, in any state: what it may change; the writer stays legal; no stream is closed. -/
theorem encodeBody_frame (s : State) :
    ∃ ph f n h ns root code w ci co r0 r1 evs tail,
      (encodeBody s).state =
        { s with
          block :=
            { s.block with
              status := { s.block.status with phase := ph }
              result0 := r0, result1 := r1, heap := h, freq := f, nTotal := n, nodes := ns, root := root
              code := code, writer := w, inCount := ci, outCount := co }
          srcPos := evs.foldl posAfter s.srcPos
          portlog := s.portlog ++ evs ++ tail } ∧
      (∀ e ∈ evs, bodyEvent e) ∧ writerLegal w ∧
      (256 ≤ s.params.heapCap →
        BuildLegal s.params.heapCap s.block.heap s.block.nTotal s.block.nodes s.block.root → codeLegal s.block.code →
        BuildLegal s.params.heapCap h n ns root ∧ codeLegal code) ∧
      (∀ t, encodeBody s = .ok () t → tail = [.snkClose, .srcRelease] ∧ w = Writer.reset) ∧
      (∀ e t, encodeBody s = .err e t →
        tail = [] ∧ r0 = s.block.result0 ∧ r1 = s.block.result1) := by
  obtain ⟨f, n, c, evs1, h1, k1, n1, -⟩ := countLoop_frame ((encodeStart s).src.length + 1) (encodeStart s)
  rw [encodeBody, encodeCount]
  cases hc : countLoop ((encodeStart s).src.length + 1) (encodeStart s) with
  | err e t =>
    rw [hc] at h1
    change t = _ at h1
    subst h1
    refine ⟨.count, f, n, s.block.heap, s.block.nodes, s.block.root, s.block.code, Writer.reset, c, 0#64, s.block.result0,
      s.block.result1, [.srcRewind] ++ evs1, [], ?_, bodyEvent_rewind_append fun e he => (k1 e he).data,
      writerLegal_reset, fun _ b l => ⟨⟨b.size, b.order, n1 (Nat.zero_le _), b.tree⟩, l⟩, fun t h => (by cases h),
      fun e t h => ⟨rfl, rfl, rfl⟩⟩
    simp [encodeStart, posAfter]
  | ok u t1 =>
    rw [hc] at h1
    change t1 = _ at h1
    rw [Res.andThen_ok, encodeTables]
    obtain ⟨n', h, ns, root, h2, b2⟩ := treeBuild_frame (setPhase .build t1)
    rw [h1] at b2
    have hb : 256 ≤ s.params.heapCap →
        BuildLegal s.params.heapCap s.block.heap s.block.nTotal s.block.nodes s.block.root →
        BuildLegal s.params.heapCap h n' ns root := fun hq b => b2 hq ⟨b.size, b.order, n1 (Nat.zero_le _), b.tree⟩
    cases ht : treeBuild (setPhase .build t1) with
    | err e t =>
      rw [ht] at h2
      change t = _ at h2
      rw [Res.andThen_err, Res.andThen_err]
      subst h2 h1
      refine ⟨.build, f, n', h, ns, root, s.block.code, Writer.reset, c, 0#64, s.block.result0,
        s.block.result1, [.srcRewind] ++ evs1, [], ?_, bodyEvent_rewind_append fun e he => (k1 e he).data,
        writerLegal_reset, fun hq b l => ⟨hb hq b, l⟩, fun t h => (by cases h), fun e t h => ⟨rfl, rfl, rfl⟩⟩
      simp [encodeStart, posAfter]
    | ok m t2 =>
      rw [ht] at h2
      change t2 = _ at h2
      rw [Res.andThen_ok, Res.andThen_ok, encodePayload]
      have hcode : 256 ≤ s.params.heapCap →
          BuildLegal s.params.heapCap s.block.heap s.block.nTotal s.block.nodes s.block.root →
          codeLegal (codeTableOf ns root) := fun hq b => codeTableOf_legal (hb hq b).tree
      obtain ⟨bytes, w, h3, l3⟩ := writeCounts_frame allBytes (setPhase .headerWrite (codeGen (setPhase .codegen t2)))
      rw [encodeHeader, h3]
      generalize hv : srcRewind (setPhase .payload (emitted (setPhase .headerWrite (codeGen (setPhase .codegen t2))) bytes w)) = v
      simp only []
      obtain ⟨w', ci, co, evs2, h4, k4, l4, -⟩ := payloadLoop_frame (v.src.length + 1) 0 v
      have hw : writerLegal v.block.writer := by
        rw [← hv]
        refine l3 ?_
        rw [h2, h1]
        exact writerLegal_reset
      have hevs : ∀ e ∈ [PortEvent.srcRewind] ++ evs1 ++ bytes.map .snkByte ++ ([PortEvent.srcRewind] ++ evs2), bodyEvent e := by
        intro e he
        rcases List.mem_append.1 he with he | he
        · rcases List.mem_append.1 he with he | he
          · exact bodyEvent_rewind_append (fun e he => (k1 e he).data) e he
          · exact .inl (dataEvent_snkBytes _ e he)
        · exact bodyEvent_rewind_append k4 e he
      cases hp : payloadLoop (v.src.length + 1) 0 v with
      | err e t =>
        rw [hp] at h4
        change t = _ at h4
        subst h4
        rw [Res.andThen_err]
        refine ⟨.payload, f, n', h, ns, root, codeTableOf ns root, w', ci, co, s.block.result0, s.block.result1,
          [.srcRewind] ++ evs1 ++ bytes.map .snkByte ++ ([.srcRewind] ++ evs2), [], ?_, hevs, l4 hw,
          fun hq b _ => ⟨hb hq b, hcode hq b⟩, fun t h => (by cases h), fun e t h => ⟨rfl, rfl, rfl⟩⟩
        subst hv h2 h1
        simp [encodeStart, posAfter, emitted]
      | ok u' t3 =>
        rw [hp] at h4
        change t3 = _ at h4
        rw [Res.andThen_ok]
        obtain ⟨last, w'', h5, l5, -⟩ := flushBits_frame (setPhase .finish t3)
        have hw'' : w'' = Writer.reset := l5 (by rw [h4]; exact l4 hw)
        subst hw''
        refine ⟨.finish, f, n', h, ns, root, codeTableOf ns root, Writer.reset, ci, co + BitVec.ofNat 64 last.length, n',
          BitVec.ofNat 32 ((8 - w'.off.val) % 8),
          [.srcRewind] ++ evs1 ++ bytes.map .snkByte ++ ([.srcRewind] ++ evs2) ++ last.map .snkByte,
          [.snkClose, .srcRelease], ?_, ?_, writerLegal_reset,
          fun hq b _ => ⟨hb hq b, hcode hq b⟩, fun t h => ⟨rfl, rfl⟩, fun e t h => (by cases h)⟩
        · rw [encodeFinish]
          simp only []
          rw [h5]
          subst h4 hv h2 h1
          simp [encodeStart, posAfter_snkBytes, posAfter, emitted]
        · intro e he
          rcases List.mem_append.1 he with he | he
          · exact hevs e he
          · exact .inl (dataEvent_snkBytes _ e he)

/-- DECODE up to its phase FINISH, in any state. -/
theorem decodeBody_frame (s : State) :
    ∃ ph f n h ns root r ci co r0 em evs tail,
      (decodeBody s).state =
        { s with
          block :=
            { s.block with
              status := { s.block.status with phase := ph }
              result0 := r0, heap := h, freq := f, nTotal := n, nodes := ns, root := root
              reader := r, inCount := ci, outCount := co, running := { s.block.running with emitted := em } }
          srcPos := evs.foldl posAfter s.srcPos
          portlog := s.portlog ++ evs ++ tail } ∧
      (∀ e ∈ evs, bodyEvent e) ∧ readerLegal r ∧
      (256 ≤ s.params.heapCap →
        BuildLegal s.params.heapCap s.block.heap s.block.nTotal s.block.nodes s.block.root →
        BuildLegal s.params.heapCap h n ns root) ∧
      (∀ t, decodeBody s = .ok () t → tail = [.snkClose, .srcRelease]) ∧
      (∀ e t, decodeBody s = .err e t → tail = [] ∧ r0 = s.block.result0) := by
  obtain ⟨f, r, c, evs1, h1, k1, l1, -⟩ := readCounts_frame allBytes (decodeStart s)
  have hr := l1 (fun _ => rfl)
  rw [decodeBody]
  cases hc : readCounts allBytes (decodeStart s) with
  | err e t =>
    rw [hc] at h1
    change t = _ at h1
    subst h1
    refine ⟨.headerRead, f, 0#32, s.block.heap, s.block.nodes, s.block.root, r, c, 0#64, s.block.result0, 0#32,
      [.srcRewind] ++ evs1, [], ?_, bodyEvent_rewind_append fun e he => (k1 e he).data, hr,
      fun _ b => ⟨b.size, b.order, Nat.zero_le _, b.tree⟩, fun t h => (by cases h), fun e t h => ⟨rfl, rfl⟩⟩
    simp [decodeStart, posAfter]
  | ok u t1 =>
    rw [hc] at h1
    change t1 = _ at h1
    rw [Res.andThen_ok, decodeBuild]
    obtain ⟨n', h, ns, root, h2, b2⟩ := treeBuild_frame (setPhase .build t1)
    rw [h1] at b2
    have hb : 256 ≤ s.params.heapCap →
        BuildLegal s.params.heapCap s.block.heap s.block.nTotal s.block.nodes s.block.root →
        BuildLegal s.params.heapCap h n' ns root := fun hq b => b2 hq ⟨b.size, b.order, Nat.zero_le _, b.tree⟩
    cases ht : treeBuild (setPhase .build t1) with
    | err e t =>
      rw [ht] at h2
      change t = _ at h2
      rw [Res.andThen_err, Res.andThen_err]
      subst h2 h1
      refine ⟨.build, f, n', h, ns, root, r, c, 0#64, s.block.result0, 0#32,
        [.srcRewind] ++ evs1, [], ?_, bodyEvent_rewind_append fun e he => (k1 e he).data, hr,
        hb, fun t h => (by cases h), fun e t h => ⟨rfl, rfl⟩⟩
      simp [decodeStart, posAfter]
    | ok m t2 =>
      rw [ht] at h2
      change t2 = _ at h2
      rw [Res.andThen_ok, Res.andThen_ok, decodeWalk]
      simp only []
      obtain ⟨r', ci, co, em, evs2, h4, k4, l4, -⟩ :=
        walkSymbols_frame (setPhase .walk t2).block.nTotal.toNat (setPhase .walk t2)
      have hr' : readerLegal r' := l4 (by rw [h2, h1]; exact hr)
      have hevs : ∀ e ∈ [PortEvent.srcRewind] ++ evs1 ++ evs2, bodyEvent e := by
        intro e he
        rcases List.mem_append.1 he with he | he
        · exact bodyEvent_rewind_append (fun e he => (k1 e he).data) e he
        · exact .inl (k4 e he)
      cases hp : walkSymbols (setPhase .walk t2).block.nTotal.toNat (setPhase .walk t2) with
      | err e t =>
        rw [hp] at h4
        change t = _ at h4
        subst h4
        rw [Res.andThen_err]
        refine ⟨.walk, f, n', h, ns, root, r', ci, co, s.block.result0, em, [.srcRewind] ++ evs1 ++ evs2, [], ?_, hevs,
          hr', hb, fun t h => (by cases h), fun e t h => ⟨rfl, rfl⟩⟩
        subst h2 h1
        simp [decodeStart, posAfter]
      | ok u' t3 =>
        rw [hp] at h4
        change t3 = _ at h4
        subst h4
        rw [Res.andThen_ok]
        refine ⟨.finish, f, n', h, ns, root, r', ci, co, em, em, [.srcRewind] ++ evs1 ++ evs2, [.snkClose, .srcRelease], ?_,
          hevs, hr', hb, fun t h => rfl, fun e t h => (by cases h)⟩
        subst h2 h1
        simp [decodeStart, decodeFinish, posAfter]

/-- What DECODE raises, each in its phase of detection (60_exceptions.md R302). -/
theorem decodeBody_raises {s t : State} {e : ErrCode} (hc : 256 ≤ s.params.heapCap) (h : decodeBody s = .err e t) :
    (e, t.block.status.phase) ∈ mayRaise .decode := by
  rw [decodeBody] at h
  obtain ⟨f, r, c, evs1, h1, -, -, e1⟩ := readCounts_frame allBytes (decodeStart s)
  cases hr : readCounts allBytes (decodeStart s) with
  | err e' t' =>
    rw [hr] at h h1
    change t' = _ at h1
    cases h
    rw [e1 _ _ hr, h1]
    exact (by decide : (ErrCode.formatError, Phase.headerRead) ∈ mayRaise .decode)
  | ok u t1 =>
    rw [hr] at h h1
    change t1 = _ at h1
    rw [Res.andThen_ok, decodeBuild] at h
    by_cases hv : countsValid t1.block.freq
    · obtain ⟨ns, root, -, -, hb⟩ := treeBuild_valid hv
      rw [hb (setPhase .build t1) (by rw [h1]; exact hc) rfl, Res.andThen_ok, Res.andThen_ok, decodeWalk] at h
      simp only [] at h
      generalize hk : walkSymbols _ _ = q at h
      obtain ⟨r', ci, co, em, evs2, h4, -, -, e4⟩ := walkSymbols_frame
        (setPhase .walk
          { setPhase .build t1 with
            block :=
              { (setPhase .build t1).block with
                nTotal := BitVec.ofNat 32 (freqSum t1.block.freq), heap := [], nodes := ns
                root := root } }).block.nTotal.toNat
        (setPhase .walk
          { setPhase .build t1 with
            block :=
              { (setPhase .build t1).block with
                nTotal := BitVec.ofNat 32 (freqSum t1.block.freq), heap := [], nodes := ns
                root := root } })
      rw [hk] at h4 e4
      cases q with
      | ok u3 t3 => cases h
      | err e3 t3 =>
        change t3 = _ at h4
        cases h
        rcases e4 _ _ rfl with rfl | rfl <;> rw [h4]
        · exact (by decide : (ErrCode.formatError, Phase.walk) ∈ mayRaise .decode)
        · exact (by decide : (ErrCode.streamTruncated, Phase.walk) ∈ mayRaise .decode)
    · rw [treeBuild_invalid (s := setPhase .build t1) hv] at h
      cases h
      exact (by decide : (ErrCode.formatError, Phase.build) ∈ mayRaise .decode)

end Sys2Proof.Machine
end

