-- ==== Sys2Proof/Laws/Machine.lean ====
section
/-! SUPPORT. What a step can do: the inversion of `step` into the moves of the host and the block (20_memory.md R91, R92,
10_state.md R46, R47, 70_reset_and_hazards.md R330-R332). -/

namespace Sys2Proof.Machine

/-! ### Bus addresses -/

/-- An access is served exactly when it is 4 bytes wide, aligned, and inside the aperture (20_memory.md R71, R74). -/
theorem accessOffset_eq_ok {p : Params} {n addr off : Nat} :
    accessOffset p n addr = .ok off ↔
      n = 4 ∧ addr % 4 = 0 ∧ p.base ≤ addr ∧ addr < p.base + 0x800 ∧ off = addr - p.base := by
  by_cases h1 : n = 4
  · by_cases h2 : addr % 4 = 0
    · by_cases h3 : addr < p.base ∨ p.base + 0x800 ≤ addr
      · rw [accessOffset, if_neg (not_not.2 h1), if_neg (not_not.2 h2), Config.apertureBytes, if_pos h3]
        exact ⟨fun e => (by cases e), fun e => by omega⟩
      · rw [accessOffset, if_neg (not_not.2 h1), if_neg (not_not.2 h2), Config.apertureBytes, if_neg h3, Except.ok.injEq]
        exact ⟨fun e => ⟨h1, h2, by omega, by omega, e.symm⟩, fun e => e.2.2.2.2.symm⟩
    · rw [accessOffset, if_neg (not_not.2 h1), if_pos h2]
      exact ⟨fun e => (by cases e), fun e => absurd e.2.1 h2⟩
  · rw [accessOffset, if_pos h1]
    exact ⟨fun e => (by cases e), fun e => absurd e.1 h1⟩

/-- CMD is the register at offset 0, and at no other. -/
theorem regAt_cmd {off : Nat} (ha : off % 4 = 0) : regAt off = some .cmd ↔ off = 0 := by
  constructor
  · intro h
    unfold regAt at h
    split at h
    · rename_i hlt
      have hd : off / 4 < 16 := by omega
      have hoff : off = 4 * (off / 4) := by omega
      rw [hoff]
      generalize off / 4 = k at *
      interval_cases k <;> simp_all [lowRegs]
    · split at h
      · cases h
      · split at h
        · cases h
        · split at h <;> cases h
  · rintro rfl; rfl

/-- Bit 0 of STATUS is BUSY (10_state.md R21). -/
theorem statusWord_busy (st : Status) : (statusWord st).getLsbD 0 = st.busy := by
  rw [statusWord, BitVec.getLsbD_append]
  cases st.busy <;> rfl

/-! ### The moves -/

/-- A step that goes on: the parameters are HUFF1's, and the block has its turn or the next action of the script is
taken. -/
theorem step_eq_next {s t : State} (h : step s = .next t) :
    s.params.wf = true ∧
      ((s.script = [] ∧ blockTurn s = .next t) ∨
        ∃ a rest, s.script = a :: rest ∧ act a { s with script := rest } = .next t) := by
  unfold step at h
  split at h
  · rename_i hw
    refine ⟨hw, ?_⟩
    unfold move at h
    split at h
    · exact .inl ⟨‹_›, h⟩
    · exact .inr ⟨_, _, ‹_›, h⟩
  · cases h

/-- The block's turn: nothing, or the accepted command or the effect of an illegal word. -/
theorem blockTurn_eq_next {s t : State} (h : blockTurn s = .next t) :
    (s.block.status.busy = false ∧ t = s) ∨
      s.block.status.busy = true ∧
        ((∃ i, decode s.block.running.word = .ok i ∧ exec i s = .next t) ∨
          ((∃ r, decode s.block.running.word = .error r) ∧ t = raisedAtOnce s .illegalCommand)) := by
  unfold blockTurn at h
  split at h
  · rename_i hb
    refine .inr ⟨hb, ?_⟩
    unfold blockStep at h
    split at h
    · exact .inl ⟨_, ‹_›, h⟩
    · refine .inr ⟨⟨_, ‹_›⟩, ?_⟩
      rw [illegalCommand, standalone_raisedAtOnce rfl] at h
      cases h; rfl
  · rename_i hb
    cases h
    exact .inl ⟨by simpa using hb, rfl⟩

/-- A read goes to an offset of the aperture and moves only the host's record and the draw counter. -/
theorem busRead_eq_ok {s t : State} {n addr : Nat} {v : Word} (h : busRead n addr s = .ok (v, t)) :
    ∃ off d, accessOffset s.params n addr = .ok off ∧
      t = { s with reads := s.reads ++ [{ offset := off, value := v }], draws := d } := by
  unfold busRead at h
  split at h
  · cases h
  · rename_i off ho
    have hr : ∃ v d, readOffset off s = (v, { s with draws := d }) := by
      unfold readOffset drawnRead busyStatusRead
      split
      · exact ⟨_, _, rfl⟩
      · split
        · split <;> exact ⟨_, _, rfl⟩
        · exact ⟨_, s.draws, rfl⟩
    obtain ⟨v, d, hr⟩ := hr
    rw [hr] at h
    cases h
    exact ⟨off, d, ho, rfl⟩

theorem memRead_eq_next {s t : State} {n addr : Nat} (h : memRead n addr s = .next t) :
    ∃ off v d, accessOffset s.params n addr = .ok off ∧
      t = { s with reads := s.reads ++ [{ offset := off, value := v }], draws := d } := by
  unfold memRead at h
  split at h
  · cases h
  · rename_i r hr
    cases h
    obtain ⟨off, d, h1, h2⟩ := busRead_eq_ok hr
    exact ⟨off, _, d, h1, h2⟩

/-- A turn of `wait`: the block's own turn, or a STATUS read that goes on or waits on by bit 0 of its value. -/
theorem waitTurn_eq_next {s t : State} {addr polls : Nat} (h : waitTurn addr polls s = .next t) :
    (s.block.status.busy = true ∧ polls = 0 ∧ blockTurn { s with script := .wait addr 0 :: s.script } = .next t) ∨
      ∃ off v d, accessOffset s.params 4 addr = .ok off ∧
        t = { s with
          script := if v.getLsbD 0 then .wait addr (polls - 1) :: s.script else s.script
          reads := s.reads ++ [{ offset := off, value := v }], draws := d } := by
  unfold waitTurn at h
  split at h
  · rename_i hb
    rw [Bool.and_eq_true, beq_iff_eq] at hb
    exact .inl ⟨hb.1, hb.2, h⟩
  · right
    split at h
    · cases h
    · rename_i r hr
      obtain ⟨off, d, h1, h2⟩ := busRead_eq_ok hr
      refine ⟨off, r.1, d, h1, ?_⟩
      rw [h2] at h
      split at h <;> cases h
      · rw [if_pos ‹_›]
      · rw [if_neg ‹_›]

/-- A write goes to an offset of the aperture; it is ignored in reset, at a reserved offset, and at a read-only
register. -/
theorem memWrite_eq_next {s t : State} {n addr : Nat} {v : Word} (h : memWrite n addr v s = .next t) :
    ∃ off, accessOffset s.params n addr = .ok off ∧
      ((t = s ∧ (s.resetLine = true ∨ regAt off = none)) ∨
        s.resetLine = false ∧ ∃ r, regAt off = some r ∧ t = writeReg r v s) := by
  unfold memWrite at h
  split at h
  · cases h
  · rename_i off ho
    refine ⟨off, ho, ?_⟩
    split at h
    · cases h; exact .inl ⟨rfl, .inl ‹_›⟩
    · rename_i hl
      split at h
      · cases h; exact .inr ⟨by simpa using hl, _, ‹_›, rfl⟩
      · cases h; exact .inl ⟨rfl, .inr ‹_›⟩

/-- What a register write can do. -/
theorem writeReg_cases (r : Reg) (v : Word) (s : State) :
    writeReg r v s = s ∨
      (s.block.status.busy = true ∧ r = .cmd ∧
        writeReg r v s = { s with block := { s.block with status := { s.block.status with rejected := true } } }) ∨
      s.block.status.busy = false ∧
        ((r = .cmd ∧ writeReg r v s = accept v s) ∨
          (r = .arg0 ∧ writeReg r v s = { s with block := { s.block with arg0 := v } }) ∨
          (r = .arg1 ∧ writeReg r v s = { s with block := { s.block with arg1 := v } }) ∨
          ∃ b, r = .freq b ∧ writeReg r v s = { s with block := { s.block with freq := freqSet s.block.freq b v } }) := by
  cases hb : s.block.status.busy <;> cases r <;> simp [writeReg, hb]

end Sys2Proof.Machine
end

