-- ==== Sys2Proof/Laws/PerInstr.lean ====
section
/-! SUPPORT. Statements about every command as syntax, one lemma per constructor: its word is well formed
(30_encoding.md R107, R108) and decodes to it alone. -/

namespace Sys2Proof.Laws.EncodingRoundTrip

/-- The command's word is zext_32 of its opcode, is well formed, and decodes to the command. -/
def Statement (i : Instr) : Prop :=
  i.wf = true ∧ commandWordWf (encode i) = true ∧ rsvdField (encode i) = 0#24 ∧ opcodeField (encode i) = opcode i ∧
    decode (encode i) = .ok i

theorem nop : Statement .nop := by unfold Statement; decide
theorem reset : Statement .reset := by unfold Statement; decide
theorem pqInsert : Statement .pqInsert := by unfold Statement; decide
theorem pqExtractMin : Statement .pqExtractMin := by unfold Statement; decide
theorem pqSize : Statement .pqSize := by unfold Statement; decide
theorem pqClear : Statement .pqClear := by unfold Statement; decide
theorem pqPeek : Statement .pqPeek := by unfold Statement; decide
theorem freqClear : Statement .freqClear := by unfold Statement; decide
theorem freqCount : Statement .freqCount := by unfold Statement; decide
theorem treeBuild : Statement .treeBuild := by unfold Statement; decide
theorem treeRead : Statement .treeRead := by unfold Statement; decide
theorem codeGen : Statement .codeGen := by unfold Statement; decide
theorem codeLookup : Statement .codeLookup := by unfold Statement; decide
theorem bwWriteBit : Statement .bwWriteBit := by unfold Statement; decide
theorem bwWriteU32 : Statement .bwWriteU32 := by unfold Statement; decide
theorem bwFlush : Statement .bwFlush := by unfold Statement; decide
theorem brReadBit : Statement .brReadBit := by unfold Statement; decide
theorem brReadU32 : Statement .brReadU32 := by unfold Statement; decide
theorem brAlign : Statement .brAlign := by unfold Statement; decide
theorem encode : Statement .encode := by unfold Statement; decide
theorem decode : Statement .decode := by unfold Statement; decide

end Sys2Proof.Laws.EncodingRoundTrip
end

