-- ==== Sys2Proof/Tests/Slice0.lean ====
section
/-! SUPPORT. Tests: what WellFormed refuses, the words of the opcode map, one step of each command against the values of
spec/95_test_vectors.md, and a witness for the hypotheses of each obligation. -/

namespace Sys2Proof.Tests

open Sys2Proof Sys2Proof.Machine

/-- A view of the state an outcome leads to, if it leads to one. -/
def after {α : Type} (o : Host.Outcome State Fault Refusal) (f : State → α) : Option α :=
  match o with
  | .next t => some (f t)
  | .fault _ => none
  | .refused _ => none

/-- A state in which the command has been accepted with the two arguments. -/
def busyWith (i : Instr) (a0 a1 : Word) (s : State) : State :=
  accept (encode i) { s with block.arg0 := a0, block.arg1 := a1 }

/-- The STATUS word a state shows. -/
def status (s : State) : Word := statusWord s.block.status

/-- The reset state with a queue. -/
def withHeap (h : List Elem) : State := { State.reset with block.heap := h }

/-- The reset state with a source. -/
def withSrc (bytes : List Byte) : State := { State.reset with src := bytes }

/-- The reset state with one count written. -/
def withCount (b : Byte) (v : Word) : State := { State.reset with block.freq := freqSet zeroFreq b v }

/-- The reset state with a script. -/
def onScript (l : List HostAction) : State := { State.reset with script := l }

/-- A busy block whose host does one thing next. -/
def busyOn (i : Instr) (l : List HostAction) : State := { busyWith i 0#32 0#32 State.reset with script := l }

/-! ### Well-formedness: each check refuses an ill-formed term -/

theorem test_wf_reserved_bit_refused : commandWordWf 0x00000110#32 = false := by decide
theorem test_wf_top_reserved_bit_refused : commandWordWf 0x80000050#32 = false := by decide
theorem test_wf_illegal_opcodes_refused :
    [0x02, 0x0F, 0x15, 0x1F, 0x24, 0x2F, 0x32, 0x3F, 0x43, 0x47, 0x4B, 0x4F, 0x52, 0xFF].all
      (fun w => !commandWordWf (BitVec.ofNat 32 w)) = true := by decide
theorem test_wf_neighbours_accepted :
    [0x01, 0x10, 0x14, 0x20, 0x23, 0x30, 0x31, 0x40, 0x42, 0x48, 0x4A, 0x50, 0x51].all
      (fun w => commandWordWf (BitVec.ofNat 32 w)) = true := by decide
theorem test_wf_width_refused : accessWf Params.huff1 2 0 = false := by decide
theorem test_wf_misaligned_refused : accessWf Params.huff1 4 2 = false := by decide
theorem test_wf_above_aperture_refused : accessWf Params.huff1 4 0x800 = false := by decide
theorem test_wf_below_aperture_refused : accessWf { base := 0x1000, heapCap := 256 } 4 0xFFC = false := by decide
theorem test_wf_last_word_accepted : accessWf Params.huff1 4 0x7FC = true := by decide
theorem test_wf_small_heap_refused : Params.wf { base := 0, heapCap := 255 } = false := by decide
theorem test_wf_large_heap_refused : Params.wf { base := 0, heapCap := 65536 } = false := by decide
theorem test_wf_misaligned_base_refused : Params.wf { base := 2, heapCap := 256 } = false := by decide
theorem test_wf_instr_accepted : (opcodeMap.map (·.2)).all Instr.wf = true := by decide

/-! ### Decoding: the words of 30_encoding.md R107, written out -/

theorem test_decode_control : decode 0x00000000#32 = .ok .nop ∧ decode 0x00000001#32 = .ok .reset := by decide
theorem test_decode_queue :
    decode 0x00000010#32 = .ok .pqInsert ∧ decode 0x00000011#32 = .ok .pqExtractMin ∧
      decode 0x00000012#32 = .ok .pqSize ∧ decode 0x00000013#32 = .ok .pqClear ∧
      decode 0x00000014#32 = .ok .pqPeek := by decide
theorem test_decode_tree_builder :
    decode 0x00000020#32 = .ok .freqClear ∧ decode 0x00000021#32 = .ok .freqCount ∧
      decode 0x00000022#32 = .ok .treeBuild ∧ decode 0x00000023#32 = .ok .treeRead := by decide
theorem test_decode_code_table :
    decode 0x00000030#32 = .ok .codeGen ∧ decode 0x00000031#32 = .ok .codeLookup := by decide
theorem test_decode_bit_writer :
    decode 0x00000040#32 = .ok .bwWriteBit ∧ decode 0x00000041#32 = .ok .bwWriteU32 ∧
      decode 0x00000042#32 = .ok .bwFlush := by decide
theorem test_decode_bit_reader :
    decode 0x00000048#32 = .ok .brReadBit ∧ decode 0x00000049#32 = .ok .brReadU32 ∧
      decode 0x0000004A#32 = .ok .brAlign := by decide
theorem test_decode_codec : decode 0x00000050#32 = .ok .encode ∧ decode 0x00000051#32 = .ok .decode := by decide
theorem test_decode_rejects :
    decode 0x00000110#32 = .error .reservedBitsSet ∧ decode 0x00000002#32 = .error .unassignedOpcode := by decide
theorem test_opcode_rows_distinct : (opcodeMap.map (·.1)).Pairwise (· ≠ ·) := by decide
theorem test_decode_table_word :
    decodeTableWord 32 0x10 = some .pqInsert ∧ decodeTableWord 32 0x110 = none ∧
      decodeTableWord 64 0x100000010 = none := by decide
theorem test_rows_run_first :
    (opcodeMap.map (·.1)).all
      (fun op => (after (step (State.reset.withFetchWord 32 op.toNat)) fun _ => true) == some true) = true := by decide

/-! ### Commands: values of spec/95_test_vectors.md -/

/-- V-CTL-1 -/
theorem test_nop_clears_status :
    after (exec .nop (busyWith .nop 0#32 0#32
      { State.reset with
        block.status := { busy := false, err := true, rejected := true, errCode := .queueUnderflow, phase := .exec,
                          lastOp := 0x11#8 } }))
      status = some 0x00000000#32 := by decide

/-- V-CTL-6 -/
theorem test_reset_restores_block :
    after (exec .reset (busyWith .reset 3#32 3#32
      { withCount 9#8 4#32 with
        block.heap := [⟨3#32, 3#9⟩], block.writer := ⟨0x80#8, 1⟩, portlog := [.snkByte 1#8] }))
      (fun t => (t.block, t.portlog)) = some (Block.reset, [.snkByte 1#8]) := rfl

/-- V-CTL-3, V-CTL-5 -/
theorem test_illegal_word :
    after (blockStep (accept 0x00000110#32 State.reset)) (fun t => (status t, t.block.heap)) =
        some (0x10091102#32, []) ∧
      after (blockStep (accept 0x80000050#32 State.reset)) (fun t => (status t, t.portlog)) =
        some (0x50091102#32, []) := by decide

/-- V-PQ-7 -/
theorem test_pq_insert_sifts_up :
    after (exec .pqInsert (busyWith .pqInsert 1#32 1#32 (withHeap [⟨3#32, 3#9⟩, ⟨5#32, 5#9⟩, ⟨8#32, 8#9⟩])))
      (fun t => (t.block.heap, status t)) =
      some ([⟨1#32, 1#9⟩, ⟨3#32, 3#9⟩, ⟨8#32, 8#9⟩, ⟨5#32, 5#9⟩], 0x10000000#32) := by decide

/-- V-PQ-6 -/
theorem test_pq_insert_bad_payload :
    after (exec .pqInsert (busyWith .pqInsert 3#32 0x200#32 State.reset)) (fun t => (t.block.heap, status t)) =
      some ([], 0x10091302#32) := by decide

/-- V-PQ-3 -/
theorem test_pq_extract_left_child_wins :
    after (exec .pqExtractMin (busyWith .pqExtractMin 0#32 0#32
        (withHeap [⟨1#32, 0xA#9⟩, ⟨5#32, 0xB#9⟩, ⟨5#32, 0xC#9⟩, ⟨9#32, 0xD#9⟩])))
      (fun t => (t.block.heap, t.block.result0, t.block.result1)) =
      some ([⟨5#32, 0xB#9⟩, ⟨9#32, 0xD#9⟩, ⟨5#32, 0xC#9⟩], 1#32, 0xA#32) := by decide

/-- V-PQ-6 -/
theorem test_pq_extract_underflow :
    after (exec .pqExtractMin (busyWith .pqExtractMin 0#32 0#32
        { State.reset with block.result0 := 0x11#32, block.result1 := 0x22#32 }))
      (fun t => (status t, t.block.result0, t.block.result1)) = some (0x11090102#32, 0x11#32, 0x22#32) := by decide

/-- V-PQ-1, step 14 -/
theorem test_pq_size_writes_result0_only :
    after (exec .pqSize (busyWith .pqSize 0#32 0#32
        { withHeap [⟨7#32, 7#9⟩] with block.result0 := 9#32, block.result1 := 9#32 }))
      (fun t => (t.block.result0, t.block.result1, status t)) = some (1#32, 9#32, 0x12000000#32) := by decide

/-- V-PQ-6 -/
theorem test_pq_clear :
    after (exec .pqClear (busyWith .pqClear 0#32 0#32 (withHeap [⟨7#32, 7#9⟩])))
      (fun t => (t.block.heap, status t)) = some ([], 0x13000000#32) := by decide

/-- V-PQ-6: the index equal to heap_size is illegal -/
theorem test_pq_peek_range :
    after (exec .pqPeek (busyWith .pqPeek 1#32 0#32 (withHeap [⟨7#32, 7#9⟩, ⟨8#32, 0x1FF#9⟩])))
        (fun t => (t.block.result0, t.block.result1)) = some (8#32, 0x1FF#32) ∧
      after (exec .pqPeek (busyWith .pqPeek 2#32 0#32 (withHeap [⟨7#32, 7#9⟩, ⟨8#32, 0x1FF#9⟩]))) status =
        some 0x14091302#32 := by decide

/-- V-TB-9 -/
theorem test_freq_clear :
    after (exec .freqClear (busyWith .freqClear 0#32 0#32
        { withCount 0x61#8 3#32 with block.nTotal := 3#32 }))
      (fun t => (freqAt t.block.freq 0x61#8, t.block.nTotal, status t)) = some (0#32, 0#32, 0x20000000#32) := by decide

/-- V-TB-9 -/
theorem test_freq_count :
    after (exec .freqCount (busyWith .freqCount 0x61#32 0#32
        { withCount 0x61#8 2#32 with block.nTotal := 2#32 }))
        (fun t => (freqAt t.block.freq 0x61#8, freqAt t.block.freq 0x60#8, t.block.nTotal)) =
        some (3#32, 0#32, 3#32) ∧
      after (exec .freqCount (busyWith .freqCount 0x100#32 0#32 State.reset)) status = some 0x21091302#32 := by decide

/-- V-TB-9 -/
theorem test_freq_count_too_long :
    after (exec .freqCount (busyWith .freqCount 1#32 0#32 { State.reset with block.nTotal := 0x7FFFFFFF#32 }))
      (fun t => (status t, freqAt t.block.freq 1#8, t.block.nTotal)) =
      some (0x21091202#32, 0#32, 0x7FFFFFFF#32) := by decide

/-- V-TB-4: four equal counts -/
theorem test_tree_build_ties :
    after (exec .treeBuild (busyWith .treeBuild 0#32 0#32
        { State.reset with
          block.freq := freqSet (freqSet (freqSet (freqSet zeroFreq 0#8 1#32) 1#8 1#32) 2#8 1#32) 3#8 1#32 }))
      (fun t => (t.block.nodes.map nodeWord, t.block.result0, t.block.result1, treeInfoWord t.block)) =
      some ([0x00000000#32, 0x00000001#32, 0x00000002#32, 0x00000003#32, 0x80030000#32, 0x80010002#32, 0x80050004#32],
        4#32, 6#32, 0x00070006#32) := by decide +kernel

/-- V-TB-5, V-TB-8 -/
theorem test_tree_build_single_and_negative :
    after (exec .treeBuild (busyWith .treeBuild 0#32 0#32 (withCount 0x41#8 5#32)))
        (fun t => (t.block.nodes.map nodeWord, t.block.nTotal, treeInfoWord t.block)) =
        some ([0x00000041#32, 0x81FF0000#32], 5#32, 0x00020001#32) ∧
      after (exec .treeBuild (busyWith .treeBuild 0#32 0#32 (withCount 0#8 0x80000000#32))) status =
        some 0x22090302#32 := by decide +kernel

/-- V-TB-10 -/
theorem test_tree_read_range :
    after (exec .treeRead (busyWith .treeRead 1#32 0#32
        { State.reset with block.nodes := [.leaf 0x41#8, .internal 0#9 0x1FF#9] }))
        (fun t => t.block.result0) = some 0x81FF0000#32 ∧
      after (exec .treeRead (busyWith .treeRead 2#32 0#32
        { State.reset with block.nodes := [.leaf 0x41#8, .internal 0#9 0x1FF#9] })) status = some 0x23091302#32 := by
  decide

/-- V-L1-1: codes 0, 11 and 10 -/
theorem test_code_gen :
    after (exec .codeGen (busyWith .codeGen 0#32 0#32
        { State.reset with
          block.nodes := [.leaf 0x61#8, .leaf 0x62#8, .leaf 0x63#8, .internal 2#9 1#9, .internal 0#9 3#9]
          block.root := 4#9 }))
      (fun t => (codeAt t.block.code 0x61#8, codeAt t.block.code 0x62#8, codeAt t.block.code 0x63#8,
        codeAt t.block.code 0x64#8, t.block.result0, t.block.result1)) =
      some (⟨1#8, 0#256⟩, ⟨2#8, 3#256⟩, ⟨2#8, 2#256⟩, ⟨0#8, 0#256⟩, 3#32, 2#32) := by decide +kernel

/-- V-CT-4 -/
theorem test_code_gen_after_reset :
    after (exec .codeGen (busyWith .codeGen 0#32 0#32 State.reset))
      (fun t => (status t, t.block.result0, t.block.result1)) = some (0x30000000#32, 0#32, 0#32) := by decide +kernel

/-- V-CT-1 -/
theorem test_code_lookup :
    after (exec .codeLookup (busyWith .codeLookup 0x62#32 0#32
        { State.reset with block.code := codeSet emptyCode 0x62#8 ⟨2#8, 3#256⟩ }))
        (fun t => (t.block.result0, regValue t.params t.block (.cw 0), status t)) =
        some (2#32, 3#32, 0x31000000#32) ∧
      after (exec .codeLookup (busyWith .codeLookup 0x100#32 0#32 State.reset)) status = some 0x31091302#32 := by decide

/-- V-BW-1: the eighth and the ninth bit -/
theorem test_bw_write_bit :
    after (exec .bwWriteBit (busyWith .bwWriteBit 0#32 0#32 { State.reset with block.writer := ⟨0xB2#8, 7⟩ }))
        (fun t => (t.portlog, bitCursorWord t.block, t.block.outCount)) =
        some ([.snkByte 0xB2#8], 0x00000000#32, 1#64) ∧
      after (exec .bwWriteBit (busyWith .bwWriteBit 1#32 0#32 State.reset)) (fun t => bitCursorWord t.block) =
        some 0x01800000#32 := by decide

/-- V-BW-5 -/
theorem test_bw_write_bit_bad_argument :
    after (exec .bwWriteBit (busyWith .bwWriteBit 2#32 0#32 State.reset)) (fun t => (status t, bitCursorWord t.block)) =
      some (0x40091302#32, 0x00000000#32) := by decide

/-- V-BW-2, V-BW-3 -/
theorem test_bw_write_u32 :
    after (exec .bwWriteU32 (busyWith .bwWriteU32 0x12345678#32 0#32 State.reset)) (fun t => t.portlog) =
        some [.snkByte 0x12#8, .snkByte 0x34#8, .snkByte 0x56#8, .snkByte 0x78#8] ∧
      after (exec .bwWriteU32 (busyWith .bwWriteU32 0x80000001#32 0#32
          { State.reset with block.writer := ⟨0x80#8, 1⟩ }))
        (fun t => (t.portlog, bitCursorWord t.block)) =
        some ([.snkByte 0xC0#8, .snkByte 0#8, .snkByte 0#8, .snkByte 0#8], 0x01800000#32) := by decide +kernel

/-- V-BW-4, V-BW-1 -/
theorem test_bw_flush :
    after (exec .bwFlush (busyWith .bwFlush 0#32 0#32 { State.reset with block.writer := ⟨0xFE#8, 7⟩ }))
        (fun t => (t.portlog, bitCursorWord t.block)) = some ([.snkByte 0xFE#8], 0x00000000#32) ∧
      after (exec .bwFlush (busyWith .bwFlush 0#32 0#32 State.reset)) (fun t => t.portlog) = some [] := by decide

/-- V-BR-1: the eighth and the ninth bit -/
theorem test_br_read_bit :
    after (exec .brReadBit (busyWith .brReadBit 0#32 0#32
        { withSrc [0xA5#8] with srcPos := 1, block.reader := ⟨0xA5#8, 7, true⟩ }))
        (fun t => (t.block.result0, bitCursorWord t.block)) = some (1#32, 0x000000A5#32) ∧
      after (exec .brReadBit (busyWith .brReadBit 0#32 0#32
        { withSrc [0xA5#8] with srcPos := 1, block.reader := ⟨0xA5#8, 0, false⟩, block.result0 := 1#32 }))
        (fun t => (status t, t.block.result0, bitCursorWord t.block, t.portlog)) =
        some (0x48090202#32, 1#32, 0x000000A5#32, [.srcEOF]) := by decide

/-- V-BR-4, V-BR-2 -/
theorem test_br_read_u32 :
    after (exec .brReadU32 (busyWith .brReadU32 0#32 0#32
        { withSrc [0x81#8, 0x23#8, 0x45#8, 0x67#8, 0x89#8] with
          srcPos := 1, block.reader := ⟨0x81#8, 1, true⟩, block.inCount := 1#64 }))
        (fun t => (t.block.result0, bitCursorWord t.block, t.block.inCount)) =
        some (0x02468ACF#32, 0x00000989#32, 5#64) ∧
      after (exec .brReadU32 (busyWith .brReadU32 0#32 0#32
        { withSrc [0#8, 0#8] with block.result0 := 0x77#32 }))
        (fun t => (status t, t.block.result0, bitCursorWord t.block, t.block.inCount)) =
        some (0x49090202#32, 0x77#32, 0#32, 2#64) := by decide +kernel

/-- V-BR-3 -/
theorem test_br_align :
    after (exec .brAlign (busyWith .brAlign 0#32 0#32
        { State.reset with block.reader := ⟨0xA5#8, 3, true⟩ }))
      (fun t => (bitCursorWord t.block, t.portlog, status t)) = some (0x000000A5#32, [], 0x4A000000#32) := by decide

/-- V-L1-1, pass 1 -/
theorem test_encode_count :
    (match encodeCount (encodeStart (withSrc [0x61#8, 0x61#8, 0x61#8, 0x62#8, 0x62#8, 0x63#8])) with
      | .ok _ t => some (freqAt t.block.freq 0x61#8, freqAt t.block.freq 0x62#8, t.block.nTotal, t.block.inCount)
      | .err _ _ => none) = some (3#32, 2#32, 6#32, 6#64) := by decide +kernel

/-- V-L1-1 and V-EN-6, pass 2 and the end: the payload 1F 00, and a source shorter than pass 1's -/
theorem test_encode_payload :
    (match encodePayload
        { withSrc [0x61#8, 0x61#8, 0x61#8, 0x62#8, 0x62#8, 0x63#8] with
          block.nTotal := 6#32
          block.code := codeSet (codeSet (codeSet emptyCode 0x61#8 ⟨1#8, 0#256⟩) 0x62#8 ⟨2#8, 3#256⟩) 0x63#8
            ⟨2#8, 2#256⟩ } with
      | .ok _ t => some (sinkBytes (encodeFinish t).portlog, (encodeFinish t).block.result0,
          (encodeFinish t).block.result1)
      | .err _ _ => none) = some ([0x1F#8, 0x00#8], 6#32, 7#32) ∧
    (match encodePayload
        { withSrc [0x61#8, 0x61#8] with
          block.nTotal := 3#32
          block.code := codeSet (codeSet emptyCode 0x61#8 ⟨1#8, 1#256⟩) 0x62#8 ⟨1#8, 0#256⟩ } with
      | .ok _ _ => none
      | .err e t => some (e, sinkBytes (errorExit .encoder e t).portlog)) = some (.formatError, [0xC0#8]) := by
  decide +kernel

/-- V-DE-2 -/
theorem test_decode_empty_source :
    after (exec .decode (busyWith .decode 0#32 0#32
        { State.reset with block.result0 := 0xDEAD#32, block.result1 := 0xBEEF#32 }))
      (fun t => (status t, t.block.result0, t.block.result1, t.portlog)) =
      some (0x51060302#32, 0#32, 0xBEEF#32, [.srcRewind, .srcEOF, .snkClose, .srcRelease]) := by decide +kernel

/-- V-L1-1 and V-DE-6, phase WALK: the payload 1F 00, and the payload 1F alone -/
theorem test_decode_walk :
    (match decodeWalk
        { withSrc [0x1F#8, 0x00#8] with
          block.nTotal := 6#32
          block.nodes := [.leaf 0x61#8, .leaf 0x62#8, .leaf 0x63#8, .internal 2#9 1#9, .internal 0#9 3#9]
          block.root := 4#9 } with
      | .ok _ t => some (sinkBytes t.portlog, t.block.running.emitted, bitCursorWord t.block)
      | .err _ _ => none) = some ([0x61#8, 0x61#8, 0x61#8, 0x62#8, 0x62#8, 0x63#8], 6#32, 0x00000900#32) ∧
    (match decodeWalk
        { withSrc [0x1F#8] with
          block.nTotal := 6#32
          block.nodes := [.leaf 0x61#8, .leaf 0x62#8, .leaf 0x63#8, .internal 2#9 1#9, .internal 0#9 3#9]
          block.root := 4#9 } with
      | .ok _ _ => none
      | .err e t => some (e, sinkBytes t.portlog, bitCursorWord t.block)) =
      some (.streamTruncated, [0x61#8, 0x61#8, 0x61#8, 0x62#8, 0x62#8], 0x0000001F#32) := by decide +kernel

/-! ### The host's side -/

/-- V-CTL-9 -/
theorem test_id_and_params :
    after (step (onScript [.memRead 4 0x038])) (fun t => t.reads) = some [⟨0x038, 0x48554631#32⟩] ∧
      after (step (onScript [.memRead 4 0x03C])) (fun t => t.reads) = some [⟨0x03C, 0x00010100#32⟩] := by decide

/-- V-CTL-7: a CMD write while BUSY; the finished command shows REJECTED -/
theorem test_rejected_command :
    after (step { busyWith .bwFlush 0#32 0#32 State.reset with script := [.memWrite 4 0 0#32] })
        (fun t => t.block.status.rejected) = some true ∧
      after (exec .bwFlush { busyWith .bwFlush 0#32 0#32 State.reset with
          block.status := { busy := true, err := false, rejected := true, errCode := .none, phase := .idle,
                            lastOp := 0x42#8 } })
        status = some 0x42000004#32 := by decide

/-- 30_encoding.md R110, R111: lines of a script and what they stand for -/
theorem test_script_lines :
    parseLine 0 "  wr FREQ[0x61], 3 ; a comment".toList = some [.wr (.freq 0x61#8) 3#32] ∧
      parseLine 0 "rd CW7".toList = some [.rd (.cw 7)] ∧
      parseLine 2 "pq.insert 30, 0x003".toList =
        some [.wr .arg0 30#32, .wr .arg1 3#32, .cmd .pqInsert, .wait 2] ∧
      parseLine 0 "src \"aab\"".toList = some [.src [0x61#8, 0x61#8, 0x62#8]] ∧
      parseLine 0 "src [0xA5, 60]".toList = some [.src [0xA5#8, 60#8]] ∧
      parseLine 0 "bogus".toList = none := by decide +kernel

/-- 95_test_vectors.md P1, its first line of transactions -/
theorem test_script_transactions :
    scriptTransactions (Pseudo.expand 0 (.pqInsert 30#32 3#32)) =
      [.write 0x008 0x1E#32, .write 0x00C 3#32, .write 0x000 0x10#32, .readUntilIdle 0x004] := by decide

/-- 30_encoding.md R110: what is no line of a script; an operand list has its comma, a quoted text its end, and a register
one of R20's names -/
theorem test_script_rejects :
    ["wr ARG0 1", "pq.insert 1 2", "\"nop", "src \"aab", "rd CW0x7", "rd CW07", "rd CW8", "rd FREQ0x61", "rd FREQ256",
      "rd cmd", "wr ARG0, 0x100000000", "src [1 2]", "src [256]", "src 1", "nop nop", "cmd 0x10"].all
      (fun l => (parseLine 0 l.toList).isNone) = true := by decide +kernel

/-- 95_test_vectors.md V-CTL-2 writes the value 2 to CMD on a line; R112 lets no program's encoding hold it -/
theorem test_script_cmd_values :
    parseLine 0 "wr CMD, 2".toList = some [.wr .cmd 2#32] ∧ scriptEncoding [.wr .cmd 2#32] = none ∧
      parseScript 0 "nop\nwr CMD, 2".toList = none ∧
      (parseScript 0 "src \"a;b\" ; text\n\nwr CMD, 0x51\nwait".toList).bind scriptEncoding =
        some [.write 0x000 0x51#32, .readUntilIdle 0x004] := by decide +kernel

/-- 30_encoding.md R110, 70_reset_and_hazards.md R345: an idle block ends a `wait` at its first read; a busy one draws -/
theorem test_wait_tests_busy :
    after (step (onScript [.wait 0x004 5])) (fun t => (t.script, t.reads)) = some ([], [⟨0x004, 0#32⟩]) ∧
      after (step (busyOn .bwFlush [.wait 0x004 5])) (fun t => (t.script, t.reads.map (·.value.getLsbD 0), t.draws)) =
        some ([.wait 0x004 4], [true], 1) ∧
      after (step (busyOn .bwFlush [.wait 0x004 0])) (fun t => (t.script, t.reads, status t)) =
        some ([.wait 0x004 0], [], 0x42000000#32) := by decide

/-! ### Witnesses: states and operands that meet the hypotheses of each obligation -/

/-- Two symbols with counts 1 and MAX_TOTAL - 1, the largest legal sum. -/
def twoSymbols : Vector Word 256 := freqSet (freqSet zeroFreq 0#8 1#32) 0xFF#8 0x7FFFFFFE#32

/-- One symbol with the largest legal count. -/
def oneSymbol : Vector Word 256 := freqSet zeroFreq 0x41#8 0x7FFFFFFF#32

/-- The counts of "aaabbc" (95_test_vectors.md V-L1-1). -/
def threeSymbols : Vector Word 256 := freqSet (freqSet (freqSet zeroFreq 0x61#8 3#32) 0x62#8 2#32) 0x63#8 1#32

/-- Counts that sum to MAX_TOTAL + 1. -/
def longSum : Vector Word 256 := freqSet (freqSet zeroFreq 0#8 0x7FFFFFFF#32) 1#8 1#32

/-- A queue at capacity 256. -/
def fullHeap : List Elem := List.replicate 256 ⟨0#32, 0#9⟩

theorem twoSymbols_valid : countsValid twoSymbols := (validate_eq_some (n := 0x7FFFFFFF)).1 (by decide +kernel) |>.1
theorem oneSymbol_valid : countsValid oneSymbol := (validate_eq_some (n := 0x7FFFFFFF)).1 (by decide +kernel) |>.1
theorem threeSymbols_valid : countsValid threeSymbols := (validate_eq_some (n := 6)).1 (by decide +kernel) |>.1
theorem threeSymbols_tree :
    treeOf threeSymbols =
      ([.leaf 0x61#8, .leaf 0x62#8, .leaf 0x63#8, .internal 2#9 1#9, .internal 0#9 3#9], 4#9) := by decide +kernel
theorem oneSymbol_symbols : symbolsOf oneSymbol = [0x41#8] := by decide +kernel
theorem oneSymbol_tree : treeOf oneSymbol = ([.leaf 0x41#8, .internal 0#9 Config.nil], 1#9) := by decide +kernel
theorem longSum_invalid : ¬ countsValid longSum := validate_eq_none.1 (by decide +kernel)
theorem negative_invalid : ¬ countsValid (freqSet zeroFreq 0#8 0x80000000#32) := validate_eq_none.1 (by decide +kernel)

/-- The machine a PQ_INSERT has just been issued to is legal. -/
theorem legal_busy : Legal (State.reset.withFetchWord 32 0x10) where
  status := by decide
  idle := by decide
  heapSize := by decide
  heapOrder := by decide
  total := by decide
  tree := ⟨[], by decide, rfl, rfl⟩
  code := codeLegal_emptyCode
  reader := by decide
  writer := by decide
  held := by decide

/-- The machine with the reset input asserted is legal. -/
theorem legal_held : Legal { State.reset with resetLine := true, script := [.releaseReset] } where
  status := by decide
  idle := fun _ => rfl
  heapSize := by decide
  heapOrder := by decide
  total := by decide
  tree := ⟨[], by decide, rfl, rfl⟩
  code := codeLegal_emptyCode
  reader := by decide
  writer := by decide
  held := fun _ => rfl

theorem witness_DecodeAndEncodeAgree : decode 0x00000051#32 = .ok .decode := by decide

theorem witness_IllegalWordsAndTheirEffect :
    decode (accept 0x00000110#32 State.reset).block.running.word = .error .reservedBitsSet ∧
      decode (accept 0x000000FF#32 State.reset).block.running.word = .error .unassignedOpcode := by decide

theorem witness_StepRunsTheDecodedCommand :
    (let s := busyOn .decode [.run]
     s.params.wf = true ∧ s.block.status.busy = true ∧ s.script = .run :: [] ∧
       decode s.block.running.word = .ok .decode) ∧
    (let s := busyOn .nop []
     s.params.wf = true ∧ s.block.status.busy = true ∧ s.script = [] ∧ decode s.block.running.word = .ok .nop) ∧
    (let s := { accept 0x52#32 State.reset with script := [.run] }
     s.params.wf = true ∧ s.block.status.busy = true ∧ s.script = .run :: [] ∧
       decode s.block.running.word = .error .unassignedOpcode) := by decide

theorem witness_CommandWriteIsAcceptedWhileIdle :
    let s := onScript [.memWrite 4 0 0xFFFFFFFF#32]
    s.params.wf = true ∧ s.resetLine = false ∧ s.block.status.busy = false ∧
      s.script = .memWrite 4 s.params.base 0xFFFFFFFF#32 :: [] := by decide

theorem witness_CommandWriteIsRejectedWhileBusy :
    let s := busyOn .encode [.memWrite 4 0 0x00#32]
    s.params.wf = true ∧ s.resetLine = false ∧ s.block.status.busy = true ∧
      s.script = .memWrite 4 s.params.base 0x00#32 :: [] := by decide

theorem witness_RejectedIsCleared :
    ∀ s ∈ [{ onScript [.memWrite 4 0 0#32] with block.status.rejected := true },
        { onScript [.assertReset 0] with block.status.rejected := true },
        { busyOn .reset [.run] with block.status.rejected := true }],
      s.block.status.rejected = true ∧ after (step s) (fun t => t.block.status.rejected) = some false := by decide

theorem witness_RegisterAccessesStoreOnlyArgumentsAndCounts :
    ∀ off ∈ [0x004, 0x008, 0x00C, 0x010, 0x3FC, 0x400, 0x7FC],
      (let s := onScript [.memWrite 4 (0 + off) 7#32]
       s.params.wf = true ∧ s.resetLine = false ∧ s.block.status.busy = false ∧ off % 4 = 0 ∧ 0 < off ∧ off < 0x800 ∧
         s.script = .memWrite 4 (s.params.base + off) 7#32 :: []) ∧
      (let s := busyOn .encode [.memWrite 4 (0 + off) 7#32]
       s.params.wf = true ∧ s.resetLine = false ∧ s.block.status.busy = true ∧
         s.script = .memWrite 4 (s.params.base + off) 7#32 :: []) ∧
      (let s := onScript [.memRead 4 (0 + off)]
       s.params.wf = true ∧ s.script = .memRead 4 (s.params.base + off) :: []) := by decide

theorem witness_IdleReadsShowTheRegisters :
    ∀ off ∈ [0x000, 0x004, 0x008, 0x00C, 0x010, 0x014, 0x018, 0x01C, 0x020, 0x024, 0x028, 0x02C, 0x030, 0x034, 0x038,
        0x03C, 0x040, 0x05C, 0x060, 0x3FC, 0x400, 0x7FC],
      let s := onScript [.memRead 4 (0 + off)]
      s.params.wf = true ∧ s.resetLine = false ∧ s.block.status.busy = false ∧ off % 4 = 0 ∧ off < 0x800 ∧
        s.script = .memRead 4 (s.params.base + off) :: [] := by decide

theorem witness_BusyReadsShowOnlyStatus :
    ∀ off ∈ [0x000, 0x004, 0x7FC], ∀ i ∈ [Instr.encode, .decode, .bwFlush],
      let s := busyOn i [.memRead 4 (0 + off)]
      s.params.wf = true ∧ s.resetLine = false ∧ s.block.status.busy = true ∧ off % 4 = 0 ∧ off < 0x800 ∧
        s.script = .memRead 4 (s.params.base + off) :: [] ∧ decode s.block.running.word = .ok i := by decide

theorem witness_WhatTheModelRefuses :
    (∀ a ∈ [HostAction.memRead 2 0, .memRead 4 2, .memRead 4 0x800, .memWrite 5 0 0#32, .memWrite 4 0x7FF 0#32],
      (onScript [a]).params.wf = true ∧ (onScript [a]).script = a :: []) ∧
    (∀ i ∈ [Instr.brReadBit, .brReadU32, .encode, .decode],
      let s := busyOn i [.setSource [1#8] 0]
      s.params.wf = true ∧ s.script = .setSource [1#8] 0 :: [] ∧ s.block.status.busy = true ∧
        decode s.block.running.word = .ok i) ∧
    ({ State.reset with params := { base := 0, heapCap := 255 } } : State).params.heapCap < 256 ∧
    65535 < ({ State.reset with params := { base := 0, heapCap := 65536 } } : State).params.heapCap := by decide

theorem witness_ResetInputAbortsTheRunningCommand :
    (let s := onScript [.assertReset 2]
     s.params.wf = true ∧ s.block.status.busy = false ∧ s.script = .assertReset 2 :: []) ∧
    let s := { busyWith .bwWriteU32 1#32 0#32 State.reset with script := [.assertReset 2] }
    s.params.wf = true ∧ s.block.status.busy = true ∧ s.script = .assertReset 2 :: [] := by decide

theorem witness_NothingMovesWhileResetIsHeld :
    (∀ a ∈ [HostAction.memWrite 4 (0 + 0) 1#32, .memWrite 4 (0 + 0x7FC) 1#32, .memRead 4 (0 + 4)],
      let s : State := { State.reset with resetLine := true, script := [a] }
      s.params.wf = true ∧ s.resetLine = true ∧ s.script = a :: []) ∧
    ∃ s : State, s.params.wf = true ∧ Legal s ∧ s.resetLine = true ∧ s.script = .releaseReset :: [] :=
  ⟨by decide, _, by decide, legal_held, rfl, rfl⟩

theorem witness_ParametersNeverChange : ∃ t, step (busyOn .nop [.run]) = .next t := ⟨_, rfl⟩

theorem witness_CommandsRaiseOnlyTheirErrors :
    (∃ s t, 256 ≤ s.params.heapCap ∧ s.block.status.err = false ∧ exec .pqExtractMin s = .next t ∧
      t.block.status.err = true) ∧
    ∃ s t, 256 ≤ s.params.heapCap ∧ s.block.status.err = false ∧ exec .nop s = .next t ∧
      t.block.status.err = false :=
  ⟨⟨busyOn .pqExtractMin [], _, by decide, rfl, rfl, rfl⟩, ⟨busyOn .nop [], _, by decide, rfl, rfl, rfl⟩⟩

theorem witness_CommandsWriteOnlyTheirColumns :
    ∃ s t, exec .pqExtractMin s = .next t ∧ Column.result0 ∉ mayWrite .nop ∧ s.block.status.err = false ∧
      t.block.status.err = true :=
  ⟨busyOn .pqExtractMin [], _, rfl, by decide, rfl, rfl⟩

theorem witness_OnlyCodecCommandsScopeThePorts :
    ∃ t u v, exec .bwFlush State.reset = .next t ∧ exec .brReadBit State.reset = .next u ∧
      exec .encode State.reset = .next v := ⟨_, _, _, rfl, rfl, rfl⟩

theorem witness_CodecCommandsAlwaysCloseTheirStreams :
    ∃ t u, exec .encode State.reset = .next t ∧ exec .decode State.reset = .next u := ⟨_, _, rfl, rfl⟩

theorem witness_ScriptActionsAreItsTransactions :
    scriptEncoding [.wr .cmd 0x51#32, .wait 3] = some [.write 0x000 0x51#32, .readUntilIdle 0x004] ∧
      scriptEncoding [.rd .cmd, .wr .cmd 0x02#32] = none ∧
      parseScript 1 "decode".toList = some [.cmd .decode, .wait 1] := by decide +kernel

theorem witness_WaitReadsStatusUntilIdle :
    (let s := onScript [.wait (0 + 0x004) 3]
     s.params.wf = true ∧ s.resetLine = false ∧ s.block.status.busy = false ∧
       s.script = .wait (s.params.base + 0x004) 3 :: []) ∧
    (let s := busyOn .encode [.wait (0 + 0x004) (0 + 1)]
     s.params.wf = true ∧ s.resetLine = false ∧ s.block.status.busy = true ∧
       s.script = .wait (s.params.base + 0x004) (0 + 1) :: []) ∧
    (let s := busyOn .encode [.wait (0 + 0x004) 0]
     s.params.wf = true ∧ s.block.status.busy = true ∧ s.script = .wait (0 + 0x004) 0 :: []) := by decide

theorem witness_HostChoosesTheSource :
    (let s := onScript [.setSource [1#8] 0]
     s.params.wf = true ∧ s.script = .setSource [1#8] 0 :: [] ∧ s.block.status.busy = false) ∧
    let s := busyOn .bwFlush [.setSource [1#8] 1]
    s.params.wf = true ∧ s.script = .setSource [1#8] 1 :: [] ∧ s.block.status.busy = true ∧
      ∀ i ∈ [Instr.brReadBit, .brReadU32, .encode, .decode], decode s.block.running.word ≠ .ok i := by decide

theorem witness_NopOnlyClearsStatus :
    let s := onScript [.memWrite 4 0 0x00000000#32, .run]
    s.params.wf = true ∧ s.resetLine = false ∧ s.block.status.busy = false ∧
      s.script = .memWrite 4 s.params.base 0x00000000#32 :: .run :: [] := by decide

theorem witness_PqInsertAddsOneElement :
    (let s := busyWith .pqInsert 1#32 0x1FF#32 (withHeap [⟨2#32, 2#9⟩, ⟨3#32, 3#9⟩])
     heapOrdered s.block.heap ∧ s.block.heap.length < s.params.heapCap ∧ s.block.running.a1.toNat ≤ 0x1FF) ∧
    (let s := busyWith .pqInsert 1#32 0x200#32 State.reset
     0x1FF < s.block.running.a1.toNat) ∧
    (let s := busyWith .pqInsert 1#32 0x1FF#32 (withHeap fullHeap)
     s.block.running.a1.toNat ≤ 0x1FF ∧ s.params.heapCap ≤ s.block.heap.length) := by
  refine ⟨by decide, by decide, by decide, ?_⟩
  exact Nat.le_of_eq List.length_replicate.symm

theorem witness_PqExtractReturnsTheMinimum :
    heapOrdered (withHeap [⟨2#32, 2#9⟩, ⟨3#32, 3#9⟩]).block.heap ∧
      (withHeap [⟨2#32, 2#9⟩, ⟨3#32, 3#9⟩]).block.heap ≠ [] ∧ State.reset.block.heap = [] := by decide

theorem witness_EqualKeysAreNeverSwapped :
    (let s := busyWith .pqInsert 4#32 2#32 (withHeap [⟨4#32, 1#9⟩])
     s.block.heap.length < s.params.heapCap ∧ s.block.running.a1.toNat ≤ 0x1FF ∧
       s.block.heap[(s.block.heap.length - 1) / 2]? = some ⟨4#32, 1#9⟩ ∧
       (⟨4#32, 1#9⟩ : Elem).key ≤ s.block.running.a0) ∧
    (let s := withHeap [⟨4#32, 1#9⟩, ⟨4#32, 2#9⟩, ⟨4#32, 3#9⟩]
     s.block.heap = ⟨4#32, 1#9⟩ :: ([⟨4#32, 2#9⟩] ++ [⟨4#32, 3#9⟩]) ∧
       ∀ x ∈ [(⟨4#32, 2#9⟩ : Elem)].take 2, (⟨4#32, 3#9⟩ : Elem).key ≤ x.key) ∧
    (let s := withHeap [⟨1#32, 0xA#9⟩, ⟨5#32, 0xB#9⟩, ⟨5#32, 0xC#9⟩, ⟨9#32, 0xD#9⟩]
     s.block.heap = ⟨1#32, 0xA#9⟩ :: ⟨5#32, 0xB#9⟩ :: ⟨5#32, 0xC#9⟩ :: ([] ++ [⟨9#32, 0xD#9⟩]) ∧
       (⟨5#32, 0xB#9⟩ : Elem).key = (⟨5#32, 0xC#9⟩ : Elem).key ∧
       (⟨5#32, 0xB#9⟩ : Elem).key < (⟨9#32, 0xD#9⟩ : Elem).key) := by decide

theorem witness_PqPeekReadsALiveSlot :
    (let s := busyWith .pqPeek 0#32 0#32 (withHeap [⟨4#32, 1#9⟩])
     s.block.heap[s.block.running.a0.toNat]? = some ⟨4#32, 1#9⟩) ∧
    (let s := busyWith .pqPeek 1#32 0#32 (withHeap [⟨4#32, 1#9⟩])
     s.block.heap.length ≤ s.block.running.a0.toNat) := by decide

theorem witness_FreqCountCountsOneByte :
    (let s := busyWith .freqCount 0xFF#32 0#32 { State.reset with block.nTotal := 0x7FFFFFFE#32 }
     s.block.running.a0.toNat = (0xFF#8).toNat ∧ s.block.nTotal.toNat < 0x7FFFFFFF) ∧
    (let s := busyWith .freqCount 0x100#32 0#32 State.reset
     0xFF < s.block.running.a0.toNat) ∧
    (let s := busyWith .freqCount 0xFF#32 0#32 { State.reset with block.nTotal := 0x7FFFFFFF#32 }
     s.block.running.a0.toNat ≤ 0xFF ∧ 0x7FFFFFFF ≤ s.block.nTotal.toNat) := by decide

theorem witness_TreeBuildRejectsBadCounts :
    0x80000000 ≤ (freqAt (withCount 0#8 0x80000000#32).block.freq 0#8).toNat ∧
      0x7FFFFFFF <
        (allBytes.map fun b => (freqAt ({ State.reset with block.freq := longSum } : State).block.freq b).toNat).sum := by
  decide +kernel

theorem witness_TreeBuildMakesAFullTree :
    ∀ f ∈ [twoSymbols, oneSymbol],
      let s := { State.reset with block.freq := f }
      256 ≤ s.params.heapCap ∧ countsValid s.block.freq := by
  intro f hf
  rcases List.mem_cons.1 hf with rfl | hf
  · exact ⟨by decide, twoSymbols_valid⟩
  · obtain rfl := List.mem_singleton.1 hf
    exact ⟨by decide, oneSymbol_valid⟩

theorem witness_TreeDependsOnTheCountsAlone :
    ∃ s1 s2 t1 t2 : State,
      256 ≤ s1.params.heapCap ∧ 256 ≤ s2.params.heapCap ∧ s1.block.freq = s2.block.freq ∧ countsValid s1.block.freq ∧
        exec .treeBuild s1 = .next t1 ∧ exec .treeBuild s2 = .next t2 :=
  ⟨{ State.reset with block.freq := twoSymbols },
    { State.reset with block.freq := twoSymbols, params := { base := 0x1000, heapCap := 65535 } },
    _, _, by decide, by decide, rfl, twoSymbols_valid, rfl, rfl⟩

theorem witness_TreeMergesTheTwoSmallestWeights :
    2 ≤ (symbolsOf twoSymbols).length ∧ countsValid twoSymbols ∧
      256 ≤ ({ State.reset with block.freq := twoSymbols } : State).params.heapCap :=
  ⟨by decide +kernel, twoSymbols_valid, by decide⟩

/-- 95_test_vectors.md V-TB-4: the weights of its tree -/
theorem test_node_weights :
    nodeWeights (freqSet (freqSet (freqSet (freqSet zeroFreq 0#8 1#32) 1#8 1#32) 2#8 1#32) 3#8 1#32)
      [.leaf 0#8, .leaf 1#8, .leaf 2#8, .leaf 3#8, .internal 0#9 3#9, .internal 2#9 1#9, .internal 4#9 5#9] =
      [1, 1, 1, 1, 2, 2, 4] := by decide +kernel

theorem witness_TreeReadReturnsTheNodeWord :
    (let s := busyWith .treeRead 1#32 0#32 { State.reset with block.nodes := [.leaf 0x41#8, .internal 0#9 0x1FF#9] }
     s.block.nodes[s.block.running.a0.toNat]? = some (.internal 0#9 0x1FF#9)) ∧
    (let s := busyWith .treeRead 0#32 0#32 { State.reset with block.nodes := [.leaf 0x41#8, .internal 0#9 0x1FF#9] }
     s.block.nodes[s.block.running.a0.toNat]? = some (.leaf 0x41#8)) ∧
    (let s := busyWith .treeRead 2#32 0#32 { State.reset with block.nodes := [.leaf 0x41#8, .internal 0#9 0x1FF#9] }
     s.block.nodes.length ≤ s.block.running.a0.toNat) := by decide

theorem witness_CodeGenRecordsThePathToEachLeaf :
    treeLegal State.reset.block.nodes State.reset.block.root ∧
      treeLegal [.leaf 0x41#8, .internal 0#9 Config.nil] 1#9 ∧
      treeLegal [.leaf 0x10#8, .leaf 0x20#8, .internal 0#9 1#9] 2#9 := by
  refine ⟨⟨[], by decide, rfl, rfl⟩, ⟨[0x41#8], by decide, rfl, rfl⟩,
    ⟨[0x10#8, 0x20#8], by decide, rfl, rfl, by decide, fun i h1 h2 => ?_⟩⟩
  obtain rfl : i = 2 := by simp only [List.length_cons, List.length_nil] at h1 h2; omega
  exact ⟨0#9, 1#9, rfl, by decide, by decide⟩

theorem witness_CodeLengthsAreBounded :
    ∀ f ∈ [twoSymbols, oneSymbol],
      let s := { State.reset with block.freq := f }
      256 ≤ s.params.heapCap ∧ countsValid s.block.freq := witness_TreeBuildMakesAFullTree

theorem witness_CodeLengthsAreBounded_symbols :
    (symbolsOf twoSymbols).length = 2 ∧ (symbolsOf oneSymbol).length = 1 :=
  ⟨by decide +kernel, congrArg List.length oneSymbol_symbols⟩

theorem witness_CodewordsArePrefixFree :
    ∃ s t u : State,
      256 ≤ s.params.heapCap ∧ countsValid s.block.freq ∧ exec .treeBuild s = .next t ∧ exec .codeGen t = .next u ∧
        (0#8 : Byte) ≠ 0xFF#8 ∧ freqAt s.block.freq 0#8 ≠ 0#32 ∧ freqAt s.block.freq 0xFF#8 ≠ 0#32 :=
  ⟨{ State.reset with block.freq := twoSymbols }, _, _, by decide, twoSymbols_valid, rfl, rfl, by decide,
    by decide +kernel, by decide +kernel⟩

theorem witness_CodeLookupReturnsTheEntry :
    (busyWith .codeLookup 0xFF#32 0#32 State.reset).block.running.a0.toNat = (0xFF#8).toNat ∧
      codeLegal (busyWith .codeLookup 0xFF#32 0#32 State.reset).block.code ∧
      (codeAt (busyWith .codeLookup 0xFF#32 0#32 State.reset).block.code 0xFF#8).len = 0#8 ∧
      0xFF < (busyWith .codeLookup 0x100#32 0#32 State.reset).block.running.a0.toNat :=
  ⟨by decide, codeLegal_emptyCode, by decide, by decide⟩

theorem witness_BwWriteBitBuffersOrEmits :
    (let s := busyWith .bwWriteBit 1#32 0#32 { State.reset with block.writer := ⟨0xFC#8, 6⟩ }
     s.block.running.a0.toNat ≤ 1 ∧ s.block.writer.off.val < 7) ∧
    (let s := busyWith .bwWriteBit 0#32 0#32 { State.reset with block.writer := ⟨0xFE#8, 7⟩ }
     s.block.running.a0.toNat ≤ 1 ∧ s.block.writer.off.val = 7) ∧
    1 < (busyWith .bwWriteBit 2#32 0#32 State.reset).block.running.a0.toNat := by decide

theorem witness_BwWriteU32WritesThirtyTwoBits : State.reset.block.writer.off = 0 := rfl

theorem witness_BwFlushPadsToAByte :
    State.reset.block.writer.off = 0 ∧
      ∀ w ∈ [(⟨0x80#8, 1⟩ : Writer), ⟨0xFE#8, 7⟩], w.off ≠ 0 ∧ writerLegal w := by decide

theorem witness_BrReadBitTakesTheNextBit :
    (∀ o : Fin 8, ({ State.reset with block.reader := ⟨0xA5#8, o, true⟩ } : State).block.reader.valid = true) ∧
    ((withSrc [0xA5#8]).block.reader.valid = false ∧ (withSrc [0xA5#8]).src[(withSrc [0xA5#8]).srcPos]? = some 0xA5#8) ∧
    (State.reset.block.reader.valid = false ∧ State.reset.src.length ≤ State.reset.srcPos) := by decide

theorem witness_BrReadU32ReadsABigEndianWord_bits :
    (∃ bits u,
      readBitList 32 { withSrc [0x23#8, 0x45#8, 0x67#8, 0x89#8] with block.reader := ⟨0x81#8, 1, true⟩ } =
        .ok bits u) ∧
    ∃ e u, readBitList 32 { withSrc [0x23#8] with block.reader := ⟨0x81#8, 7, true⟩ } = .err e u :=
  ⟨⟨_, _, rfl⟩, ⟨_, _, rfl⟩⟩

theorem witness_BrReadU32ReadsABigEndianWord :
    (let s := withSrc [0x12#8, 0x34#8, 0x56#8, 0x78#8]
     s.block.reader.valid = false ∧ s.src.drop s.srcPos = 0x12#8 :: 0x34#8 :: 0x56#8 :: 0x78#8 :: []) ∧
    ∀ left ∈ [([] : List Byte), [0x12#8, 0x34#8, 0x56#8]],
      let s := withSrc left
      s.block.reader.valid = false ∧ s.block.reader.off = 0 ∧ s.src.drop s.srcPos = left ∧ left.length < 4 := by decide

theorem witness_BitStreamRoundTrip :
    State.reset.block.writer = Writer.reset ∧ (withSrc [0xA0#8]).block.reader.valid = false ∧
      (withSrc [0xA0#8]).srcPos = 0 ∧
      (flushBits (writeBits [true, false, true] State.reset)).portlog = State.reset.portlog ++ [0xA0#8].map .snkByte := by
  decide

theorem witness_EncodeCompletesOnEveryLegalSource :
    ∀ src ∈ [([] : List Byte), [0x41#8], [0#8, 0xFF#8, 0#8]],
      256 ≤ (withSrc src).params.heapCap ∧ (withSrc src).src.length ≤ 0x7FFFFFFF := by decide

theorem witness_EncodeRejectsATooLongSource : 0x7FFFFFFF < (withSrc (List.replicate 0x80000000 0#8)).src.length :=
  Nat.lt_of_lt_of_eq (Nat.lt_succ_self 0x7FFFFFFF) List.length_replicate.symm

theorem witness_EncodeOutputHasTheStatedSize :
    ∃ s t, 256 ≤ s.params.heapCap ∧ s.src.length ≤ 0x7FFFFFFF ∧ s.src ≠ [] ∧ exec .encode s = .next t :=
  ⟨withSrc [0#8, 0xFF#8, 0#8], _, by decide, by decide, by decide, rfl⟩

theorem witness_EncodePayloadIsTheCodewordsInOrder :
    ∃ s t, 256 ≤ s.params.heapCap ∧ s.src.length ≤ 0x7FFFFFFF ∧ s.src ≠ [] ∧ exec .encode s = .next t :=
  witness_EncodeOutputHasTheStatedSize

theorem witness_EncodeDependsOnTheSourceAlone :
    ∃ s1 s2 t1 t2 : State,
      256 ≤ s1.params.heapCap ∧ 256 ≤ s2.params.heapCap ∧ s1.src = s2.src ∧ s1.src.length ≤ 0x7FFFFFFF ∧
        exec .encode s1 = .next t1 ∧ exec .encode s2 = .next t2 :=
  ⟨withSrc [7#8], { withSrc [7#8] with block.writer := ⟨0x80#8, 1⟩, params := { base := 0, heapCap := 300 } }, _, _,
    by decide, by decide, rfl, by decide, rfl, rfl⟩

theorem witness_DecodeRejectsAShortHeader :
    State.reset.src.length < 1024 ∧ (withSrc (List.replicate 1023 0#8)).src.length < 1024 := by
  refine ⟨by decide, ?_⟩
  rw [withSrc, List.length_replicate]; omega

theorem witness_DecodeRejectsBadCounts :
    ∃ (s : State) (f : Vector Word 256) (rest : List Byte), s.src = headerBytes f ++ rest ∧ ¬ countsValid f :=
  ⟨withSrc (headerBytes longSum ++ [1#8]), longSum, [1#8], rfl, longSum_invalid⟩

/-- 95_test_vectors.md V-DE-6: the payload 1F, five symbols and the bit 1; and an empty payload -/
theorem witness_DecodeWithoutPayloadIsTruncated :
    (∃ (s : State) (l r : NodeIdx),
      256 ≤ s.params.heapCap ∧ s.src = headerBytes threeSymbols ++ [0x1F#8] ∧ countsValid threeSymbols ∧
        (∀ b ∈ [0x61#8, 0x61#8, 0x61#8, 0x62#8, 0x62#8], freqAt threeSymbols b ≠ 0#32) ∧ 5 < freqSum threeSymbols ∧
        [0x1F#8].flatMap byteBits = codewordsOf (codeOf threeSymbols) [0x61#8, 0x61#8, 0x61#8, 0x62#8, 0x62#8] ++ [true] ∧
        walkPath (treeOf threeSymbols).1 (treeOf threeSymbols).2 [true] = some 3#9 ∧
        (treeOf threeSymbols).1[(3#9 : NodeIdx).toNat]? = some (.internal l r)) ∧
    ∃ (s : State) (j l r : NodeIdx),
      256 ≤ s.params.heapCap ∧ s.src = headerBytes oneSymbol ++ [] ∧ countsValid oneSymbol ∧ 0 < freqSum oneSymbol ∧
        [].flatMap byteBits = codewordsOf (codeOf oneSymbol) [] ++ [] ∧
        walkPath (treeOf oneSymbol).1 (treeOf oneSymbol).2 [] = some j ∧
        (treeOf oneSymbol).1[j.toNat]? = some (.internal l r) :=
  ⟨⟨withSrc (headerBytes threeSymbols ++ [0x1F#8]), 2#9, 1#9, by decide, rfl, threeSymbols_valid, by decide +kernel,
      by decide +kernel, by rw [codeOf, threeSymbols_tree]; decide +kernel, by rw [threeSymbols_tree]; decide,
      by rw [threeSymbols_tree]; decide⟩,
    ⟨withSrc (headerBytes oneSymbol ++ []), 1#9, 0#9, Config.nil, by decide, rfl, oneSymbol_valid, by decide +kernel, rfl,
      by rw [oneSymbol_tree, walkPath], by rw [oneSymbol_tree]; decide⟩⟩

theorem witness_DecodeRejectsAOneBitAtTheWrapper :
    ∀ row ∈ [(0, [0x80#8], 0x80#8), (3, [0x10#8], 0x10#8), (7, [0x01#8], 0x01#8), (8, [0x00#8, 0x80#8], 0x80#8)],
      ∃ (s : State) (more : List Bool),
        256 ≤ s.params.heapCap ∧ s.src = headerBytes oneSymbol ++ row.2.1 ∧ countsValid oneSymbol ∧
          symbolsOf oneSymbol = [0x41#8] ∧ row.1 < freqSum oneSymbol ∧
          row.2.1.flatMap byteBits = List.replicate row.1 false ++ true :: more ∧
          row.2.1[row.1 / 8]? = some row.2.2 := by
  have hk : 8 < freqSum oneSymbol := by decide +kernel
  intro row h
  simp only [List.mem_cons, List.not_mem_nil, or_false] at h
  refine ⟨withSrc (headerBytes oneSymbol ++ row.2.1), (row.2.1.flatMap byteBits).drop (row.1 + 1), Nat.le_refl 256, rfl,
    oneSymbol_valid, oneSymbol_symbols, ?_, ?_, ?_⟩
  · rcases h with rfl | rfl | rfl | rfl <;> exact Nat.lt_of_le_of_lt (by decide) hk
  · rcases h with rfl | rfl | rfl | rfl <;> decide
  · rcases h with rfl | rfl | rfl | rfl <;> rfl

/-- 95_test_vectors.md V-L1-1: the payload 1F 00 -/
theorem witness_DecodeCompletesOnAValidStream :
    (∃ (s : State) (pad : List Bool),
      256 ≤ s.params.heapCap ∧ s.src = headerBytes threeSymbols ++ [0x1F#8, 0x00#8] ∧ countsValid threeSymbols ∧
        (∀ b ∈ [0x61#8, 0x61#8, 0x61#8, 0x62#8, 0x62#8, 0x63#8], freqAt threeSymbols b ≠ 0#32) ∧
        6 = freqSum threeSymbols ∧
        [0x1F#8, 0x00#8].flatMap byteBits =
          codewordsOf (codeOf threeSymbols) [0x61#8, 0x61#8, 0x61#8, 0x62#8, 0x62#8, 0x63#8] ++ pad) ∧
    ∃ s : State,
      256 ≤ s.params.heapCap ∧ s.src = headerBytes threeSymbols ++ [0xFF#8, 0xFF#8] ∧ countsValid threeSymbols ∧
        2 ≤ (symbolsOf threeSymbols).length ∧
        freqSum threeSymbols * ((symbolsOf threeSymbols).length - 1) ≤ 8 * [0xFF#8, 0xFF#8].length :=
  ⟨⟨withSrc (headerBytes threeSymbols ++ [0x1F#8, 0x00#8]), List.replicate 7 false, by decide, rfl, threeSymbols_valid,
      by decide +kernel, by decide +kernel, by rw [codeOf, threeSymbols_tree]; decide +kernel⟩,
    ⟨withSrc (headerBytes threeSymbols ++ [0xFF#8, 0xFF#8]), by decide, rfl, threeSymbols_valid, by decide +kernel,
      by decide +kernel⟩⟩

theorem witness_DecodeOfAnEmptyHeader :
    ∃ (s : State) (rest : List Byte), s.src = List.replicate 1024 0#8 ++ rest :=
  ⟨withSrc (List.replicate 1024 0#8 ++ [1#8, 2#8]), [1#8, 2#8], rfl⟩

theorem witness_DecodeInvertsEncode :
    ∃ s t d : State,
      256 ≤ s.params.heapCap ∧ 256 ≤ d.params.heapCap ∧ s.src.length ≤ 0x7FFFFFFF ∧ s.src ≠ [] ∧
        exec .encode s = .next t ∧ d.src = sinkBytes (newEvents s t) := by
  obtain ⟨s, t, hc, hl, hn, h⟩ := witness_EncodeOutputHasTheStatedSize
  exact ⟨s, t, withSrc (sinkBytes (newEvents s t)), hc, Nat.le_refl 256, hl, hn, h, rfl⟩

theorem witness_EveryStepKeepsTheMachineLegal : ∃ s t, Legal s ∧ step s = .next t := ⟨_, _, legal_busy, rfl⟩

end Sys2Proof.Tests
end

section
/-! PROOFS. The statements of 00_scope.md: the parameters no step changes, the acceptance of a command, and what the
model refuses. Before them, the rules they share: the move a step takes, bus accesses inside and outside the aperture,
and that no command changes anything outside the block and the ports. -/

namespace Sys2Proof.Machine

/-! ### The move a step takes -/

theorem params_wf_iff {p : Params} : p.wf = true ↔ 256 ≤ p.heapCap ∧ p.heapCap ≤ 65535 ∧ p.base % 4 = 0 := by
  simp [Params.wf, and_assoc]

/-- A step of a HUFF1 configuration takes the action at the head of the script. -/
theorem step_cons {s : State} {a : HostAction} {rest : List HostAction} (hw : s.params.wf = true)
    (hs : s.script = a :: rest) : step s = act a { s with script := rest } := by
  rw [step, if_pos hw, move, hs]

/-! ### Bus accesses -/

theorem accessOffset_width {p : Params} {n addr : Nat} (hn : n ≠ 4) :
    accessOffset p n addr = .error .unsupportedWidth := if_pos hn

theorem accessOffset_misaligned {p : Params} {addr : Nat} (ha : addr % 4 ≠ 0) :
    accessOffset p 4 addr = .error .misalignedAccess := if_pos ha

theorem accessOffset_outside {p : Params} {addr : Nat} (ha : addr % 4 = 0)
    (ho : addr < p.base ∨ p.base + 0x800 ≤ addr) : accessOffset p 4 addr = .error .outsideAperture := by
  rw [accessOffset, if_neg (not_not.2 rfl), if_neg (not_not.2 ha), Config.apertureBytes, if_pos ho]

/-- An aligned offset of the aperture is reached at BASE plus the offset (20_memory.md R70). -/
theorem accessOffset_base_add {p : Params} {off : Nat} (hw : p.wf = true) (ha : off % 4 = 0) (ho : off < 0x800) :
    accessOffset p 4 (p.base + off) = .ok off := by
  obtain ⟨-, -, hb⟩ := params_wf_iff.1 hw
  exact accessOffset_eq_ok.2 ⟨rfl, by omega, by omega, by omega, by omega⟩

/-- A read or a write at an address that is no access of HUFF1 is refused, for the reason accessOffset gives. -/
theorem step_access_refused {s : State} {n addr : Nat} {v : Word} {rest : List HostAction} {r : Refusal}
    (hw : s.params.wf = true) (hs : s.script = .memRead n addr :: rest ∨ s.script = .memWrite n addr v :: rest)
    (ha : accessOffset s.params n addr = .error r) : step s = .refused r := by
  rcases hs with hs | hs
  · simp [step_cons hw hs, act, memRead, busRead, ha]
  · simp [step_cons hw hs, act, memWrite, ha]

/-- A write to a register of a block that is not held in reset. -/
theorem memWrite_reg {s : State} {n addr off : Nat} {v : Word} {r : Reg} (hl : s.resetLine = false)
    (ha : accessOffset s.params n addr = .ok off) (hr : regAt off = some r) :
    memWrite n addr v s = .next (writeReg r v s) := by
  simp [memWrite, ha, hl, hr]

/-- A CMD write to an idle block is an acceptance (10_state.md R33). -/
theorem writeReg_cmd_idle {s : State} {w : Word} (hb : s.block.status.busy = false) :
    writeReg .cmd w s = accept w s := by
  simp [writeReg, hb]

/-- A running BR_READ_BIT, BR_READ_U32, ENCODE or DECODE reads the source (20_memory.md R86). -/
theorem readsSource_of_mem {w : Word} {i : Instr} (hd : decode w = .ok i)
    (hi : i ∈ [Instr.brReadBit, .brReadU32, .encode, .decode]) : readsSource w = true := by
  simp only [List.mem_cons, List.not_mem_nil, or_false] at hi
  rcases hi with rfl | rfl | rfl | rfl <;> rw [readsSource, hd]

/-! ### No command changes anything outside the block and the ports -/

theorem surroundingsSame.refl (s : State) : surroundingsSame s s := ⟨rfl, rfl, rfl, rfl, rfl, rfl⟩

theorem surroundingsSame.trans {s t u : State} (h : surroundingsSame s t) (g : surroundingsSame t u) :
    surroundingsSame s u := by
  obtain ⟨h1, h2, h3, h4, h5, h6⟩ := h
  obtain ⟨g1, g2, g3, g4, g5, g6⟩ := g
  exact ⟨g1.trans h1, g2.trans h2, g3.trans h3, g4.trans h4, g5.trans h5, g6.trans h6⟩

/-- A change of the block and the ports alone. -/
theorem surroundingsSame_update (s : State) (b : Block) (p : Nat) (l : List PortEvent) :
    surroundingsSame s { s with block := b, srcPos := p, portlog := l } := ⟨rfl, rfl, rfl, rfl, rfl, rfl⟩

theorem flushBits_surroundings (s : State) : surroundingsSame s (flushBits s) := by
  obtain ⟨bytes, w, h, -⟩ := flushBits_frame s
  rw [h]
  exact surroundingsSame_update ..

theorem writeBits_surroundings (bits : List Bool) (s : State) : surroundingsSame s (writeBits bits s) := by
  obtain ⟨bytes, w, h, -⟩ := writeBits_frame bits s
  rw [h]
  exact surroundingsSame_update ..

theorem writeU32_surroundings (v : Word) (s : State) : surroundingsSame s (writeU32 v s) := by
  rw [writeU32]
  exact writeBits_surroundings (bitsDown v 32) s

theorem readBit_surroundings (s : State) : surroundingsSame s (readBit s).state := by
  obtain ⟨r, c, evs, h, -⟩ := readBit_frame s
  rw [h]
  exact surroundingsSame_update ..

theorem readU32_surroundings (s : State) : surroundingsSame s (readU32 s).state := by
  obtain ⟨r, c, evs, h, -⟩ := readU32_frame s
  rw [h]
  exact surroundingsSame_update ..

theorem treeBuild_surroundings (s : State) : surroundingsSame s (treeBuild s).state := by
  obtain ⟨n, h, ns, root, he, -⟩ := treeBuild_frame s
  rw [he]
  exact surroundingsSame_update ..

theorem encodeBody_surroundings (s : State) : surroundingsSame s (encodeBody s).state := by
  obtain ⟨_, _, _, _, _, _, _, _, _, _, _, _, _, _, h, -⟩ := encodeBody_frame s
  rw [h]
  exact surroundingsSame_update ..

theorem decodeBody_surroundings (s : State) : surroundingsSame s (decodeBody s).state := by
  obtain ⟨_, _, _, _, _, _, _, _, _, _, _, _, _, h, -⟩ := decodeBody_frame s
  rw [h]
  exact surroundingsSame_update ..

/-- `return` and the error exit are the block's and the ports' (00_scope.md R12, 60_exceptions.md R306). -/
theorem endState_surroundings (k : ExitKind) (r : Res State Unit) : surroundingsSame r.state (endState k r) := by
  cases r with
  | ok a s => exact surroundingsSame_update ..
  | err e s =>
    cases k with
    | standalone => exact surroundingsSame_update ..
    | encoder => exact (flushBits_surroundings s).trans (surroundingsSame_update ..)
    | decoder => exact surroundingsSame_update ..

theorem finishCommand_surroundings {k : ExitKind} {r : Res State Unit} {s t : State}
    (h : finishCommand k r = .next t) (hr : surroundingsSame s r.state) : surroundingsSame s t := by
  cases h
  exact hr.trans (endState_surroundings k r)

theorem standalone_surroundings {body : State → Res State Unit} {s t : State} (h : standalone body s = .next t)
    (hb : ∀ u, surroundingsSame u (body u).state) : surroundingsSame s t :=
  finishCommand_surroundings h ((surroundingsSame_update s ..).trans (hb (setPhase .exec s)))

/-- A piece of a command after another: neither reaches past the block and the ports. -/
theorem andThen_surroundings {α β : Type} {s : State} {r : Res State α} {f : α → State → Res State β}
    (hr : surroundingsSame s r.state) (hf : ∀ a u, surroundingsSame u (f a u).state) :
    surroundingsSame s (r.andThen f).state :=
  Res.state_andThen (surroundingsSame s) hr fun a u hu => hu.trans (hf a u)

/-- A piece that works on a part of the block. -/
theorem within_surroundings {τ α : Type} {s : State} (r : Res τ α) {put : τ → State}
    (hp : ∀ u, surroundingsSame s (put u)) : surroundingsSame s (r.within put).state := by
  cases r <;> exact hp _

theorem checkArg_surroundings (legal : Bool) (s : State) : surroundingsSame s (checkArg legal s).state := by
  cases legal <;> exact .refl s

/-- No command changes the parameters, the reset input, the source or the host's side (20_memory.md R91,
70_reset_and_hazards.md R342). -/
theorem exec_surroundings {i : Instr} {s t : State} (h : exec i s = .next t) : surroundingsSame s t := by
  unfold exec at h
  cases i with
  | nop => exact standalone_surroundings h fun u => .refl u
  | reset => cases h; exact surroundingsSame_update ..
  | pqSize | pqClear | freqClear | codeGen | brAlign =>
    exact standalone_surroundings h fun _ => surroundingsSame_update ..
  | pqPeek | treeRead | codeLookup =>
    exact standalone_surroundings h fun u => andThen_surroundings (checkArg_surroundings _ u)
      fun _ _ => surroundingsSame_update ..
  | pqInsert =>
    exact standalone_surroundings h fun u => andThen_surroundings (checkArg_surroundings _ u)
      fun _ _ => within_surroundings _ fun _ => surroundingsSame_update ..
  | pqExtractMin =>
    exact standalone_surroundings h fun _ => andThen_surroundings
      (within_surroundings _ fun _ => surroundingsSame_update ..) fun _ _ => surroundingsSame_update ..
  | freqCount =>
    refine standalone_surroundings h fun u => andThen_surroundings (checkArg_surroundings _ u) fun _ v => ?_
    simp only []
    split
    · exact .refl v
    · exact surroundingsSame_update ..
  | treeBuild =>
    exact standalone_surroundings h fun u => andThen_surroundings (treeBuild_surroundings u)
      fun _ _ => surroundingsSame_update ..
  | bwWriteBit =>
    exact standalone_surroundings h fun u => andThen_surroundings (checkArg_surroundings _ u)
      fun _ v => writeBits_surroundings [bitField (argA v)] v
  | bwWriteU32 =>
    exact standalone_surroundings h fun u => by rw [Res.state_ok]; exact writeU32_surroundings (argA u) u
  | bwFlush => exact standalone_surroundings h flushBits_surroundings
  | brReadBit =>
    exact standalone_surroundings h fun u => andThen_surroundings (readBit_surroundings u)
      fun _ _ => surroundingsSame_update ..
  | brReadU32 =>
    exact standalone_surroundings h fun u => andThen_surroundings (readU32_surroundings u)
      fun _ _ => surroundingsSame_update ..
  | encode => exact finishCommand_surroundings h (encodeBody_surroundings s)
  | decode => exact finishCommand_surroundings h (decodeBody_surroundings s)

/-- Nor does the block's turn, whether it runs a command, meets an illegal word, or is idle. -/
theorem blockTurn_surroundings {s t : State} (h : blockTurn s = .next t) : surroundingsSame s t := by
  rcases blockTurn_eq_next h with ⟨-, rfl⟩ | ⟨-, ⟨i, -, hx⟩ | ⟨-, rfl⟩⟩
  · exact .refl t
  · exact exec_surroundings hx
  · exact surroundingsSame_update ..

/-! ### No move changes the parameters -/

theorem writeReg_params (r : Reg) (v : Word) (s : State) : (writeReg r v s).params = s.params := by
  rcases writeReg_cases r v s with h | ⟨-, -, h⟩ | ⟨-, ⟨-, h⟩ | ⟨-, h⟩ | ⟨-, h⟩ | ⟨b, -, h⟩⟩ <;> simp [h]

theorem blockTurn_params {s t : State} (h : blockTurn s = .next t) : t.params = s.params :=
  (blockTurn_surroundings h).1

theorem setSource_params {bytes : List Byte} {pos : Nat} {s t : State} (h : setSource bytes pos s = .next t) :
    t.params = s.params := by
  unfold setSource at h
  split at h <;> cases h
  rfl

theorem act_params {a : HostAction} {s t : State} (h : act a s = .next t) : t.params = s.params := by
  cases a with
  | memRead n addr =>
    obtain ⟨off, v, d, -, rfl⟩ := memRead_eq_next h
    rfl
  | memWrite n addr v =>
    obtain ⟨off, -, ⟨rfl, -⟩ | ⟨-, r, -, rfl⟩⟩ := memWrite_eq_next h
    · rfl
    · exact writeReg_params r v s
  | setSource bytes pos => exact setSource_params h
  | assertReset kept => cases h; rfl
  | releaseReset => cases h; rfl
  | run => exact blockTurn_params h
  | wait addr polls =>
    rcases waitTurn_eq_next h with ⟨-, -, hb⟩ | ⟨off, v, d, -, rfl⟩
    · exact (blockTurn_params hb :)
    · rfl

/-! ### The statements -/

/-- Settles O13: a step is the block's turn or one action, and neither changes the parameters. -/
theorem parametersNeverChange : Obligations.ParametersNeverChange := by
  intro s t h
  obtain ⟨-, ⟨-, hb⟩ | ⟨a, rest, -, ha⟩⟩ := step_eq_next h
  · exact blockTurn_params hb
  · exact (act_params ha :)

/-- Settles O5: the write goes to offset 0, which is CMD, and the block accepts the word. -/
theorem commandWriteIsAcceptedWhileIdle : Obligations.CommandWriteIsAcceptedWhileIdle := by
  intro s w rest hw hl hb hs
  have ha : accessOffset s.params 4 s.params.base = .ok 0 := accessOffset_base_add (off := 0) hw rfl (by decide)
  calc step s = memWrite 4 s.params.base w { s with script := rest } := step_cons hw hs
    _ = .next (writeReg .cmd w { s with script := rest }) := memWrite_reg hl ha rfl
    _ = .next (accept w { s with script := rest }) := congrArg _ (writeReg_cmd_idle hb)

/-- Settles O10: each refusal is the first check of its access, source change or step that fails. -/
theorem whatTheModelRefuses : Obligations.WhatTheModelRefuses := by
  refine ⟨fun s n addr v rest hw hs => ⟨fun hn => ?_, ?_, ?_⟩, ?_, fun s hc => ?_⟩
  · exact step_access_refused hw hs (accessOffset_width hn)
  · rintro rfl ha
    exact step_access_refused hw hs (accessOffset_misaligned ha)
  · rintro rfl ha ho
    exact step_access_refused hw hs (accessOffset_outside ha ho)
  · intro s bytes pos rest i hw hs hb hd hi
    rw [step_cons hw hs]
    simp [act, setSource, hb, readsSource_of_mem hd hi]
  · have hw : ¬ s.params.wf = true := fun h => by
      obtain ⟨hlo, hhi, -⟩ := params_wf_iff.1 h
      omega
    rw [step, if_neg hw]

end Sys2Proof.Machine
end

section
/-! PROOFS. The statements of 10_state.md about the register aperture and the reset state. Before them, the rules they
share: which register stands at which offset, the fields of the packed registers, and what a register access of the
host does on an idle and on a busy block. -/

namespace Sys2Proof.Machine

/-! ### The register at an offset (10_state.md R20) -/

theorem regAt_low {off : Nat} (h : off < 0x040) : regAt off = lowRegs[off / 4]? := if_pos h

theorem regAt_cw {off : Nat} (hl : 0x040 ≤ off) (hu : off < 0x060) :
    regAt off = some (.cw (Fin.ofNat 8 ((off - 0x040) / 4))) := by
  rw [regAt, if_neg (by omega), if_pos hu]

/-- No register stands at a reserved offset (10_state.md R34). -/
theorem regAt_reserved {off : Nat} (hl : 0x060 ≤ off) (hu : off < 0x400) : regAt off = none := by
  rw [regAt, if_neg (by omega), if_neg (by omega), if_pos hu]

theorem regAt_freq {off : Nat} (hl : 0x400 ≤ off) (hu : off < 0x800) :
    regAt off = some (.freq (BitVec.ofNat 8 ((off - 0x400) / 4))) := by
  rw [regAt, if_neg (by omega), if_neg (by omega), if_neg (by omega), if_pos hu]

/-- A register stands at its own offset alone. -/
theorem regOffset_of_regAt {off : Nat} {r : Reg} (ha : off % 4 = 0) (hr : regAt off = some r) :
    regOffset r = off := by
  have hlow : ∀ k : Fin 16, regOffset lowRegs[k] = 4 * k.val := by decide
  by_cases h1 : off < 0x040
  · have hk : off / 4 < 16 := by omega
    rw [regAt_low h1, List.getElem?_eq_getElem hk, Option.some.injEq] at hr
    calc regOffset r = 4 * (off / 4) := hr ▸ hlow ⟨off / 4, hk⟩
      _ = off := by omega
  by_cases h2 : off < 0x060
  · rw [regAt_cw (by omega) h2] at hr
    cases hr
    simp only [regOffset, Fin.ofNat]
    omega
  by_cases h3 : off < 0x400
  · rw [regAt_reserved (by omega) h3] at hr
    cases hr
  by_cases h4 : off < 0x800
  · rw [regAt_freq (by omega) h4] at hr
    cases hr
    simp only [regOffset, BitVec.toNat_ofNat]
    omega
  · rw [regAt, if_neg h1, if_neg h2, if_neg h3, if_neg h4] at hr
    cases hr

/-! ### The fields of the packed registers

A packed register is a concatenation of its fields: a field is reached by dropping those below it, then those above it.
The width of a concatenation is the sum of the widths, so the simp calls leave sums as they are. -/

theorem flagBit_getLsbD (b : Bool) : (flagBit b).getLsbD 0 = b := by cases b <;> rfl

/-- The fields of STATUS (10_state.md R21). -/
theorem statusWord_fields (st : Status) :
    (statusWord st).getLsbD 0 = st.busy ∧ (statusWord st).getLsbD 1 = st.err ∧
      (statusWord st).getLsbD 2 = st.rejected ∧ (statusWord st).extractLsb' 3 5 = 0#5 ∧
      (statusWord st).extractLsb' 8 8 = st.errCode.toByte ∧ (statusWord st).extractLsb' 16 4 = st.phase.toBits ∧
      (statusWord st).extractLsb' 20 4 = 0#4 ∧ (statusWord st).extractLsb' 24 8 = st.lastOp := by
  refine ⟨statusWord_busy st, ?_, ?_, ?_, ?_, ?_, ?_, ?_⟩ <;> rw [statusWord]
  case refine_1 | refine_2 =>
    rw [BitVec.getLsbD_append]
    simp [BitVec.getLsbD_append, flagBit_getLsbD, -Nat.reduceAdd, -BitVec.getLsbD_eq_getElem]
  all_goals
    rw [BitVec.extractLsb'_append_eq_of_le] <;>
      simp [BitVec.extractLsb'_append_eq_of_le, BitVec.extractLsb'_append_eq_right, -Nat.reduceAdd]

/-- PQ_SIZE holds heap_size in 16 bits (10_state.md R25). -/
theorem pqSizeWord_toNat (b : Block) : (pqSizeWord b).toNat = b.heap.length % 65536 := by
  rw [pqSizeWord, BitVec.toNat_append]
  simp

/-- The fields of TREE_INFO (10_state.md R28). -/
theorem treeInfoWord_fields (b : Block) :
    (treeInfoWord b).extractLsb' 0 9 = b.root ∧ (treeInfoWord b).extractLsb' 9 7 = 0#7 ∧
      ((treeInfoWord b).extractLsb' 16 9).toNat = b.nodes.length % 512 ∧
      (treeInfoWord b).extractLsb' 25 7 = 0#7 := by
  rw [treeInfoWord]
  refine ⟨BitVec.extractLsb'_append_eq_right, ?_, ?_, ?_⟩ <;>
    rw [BitVec.extractLsb'_append_eq_of_le] <;>
    simp [BitVec.extractLsb'_append_eq_of_le, BitVec.extractLsb'_append_eq_right, -Nat.reduceAdd,
      -BitVec.extractLsb'_toNat]

/-- The fields of BIT_CURSOR (10_state.md R29). -/
theorem bitCursorWord_fields (b : Block) :
    (bitCursorWord b).extractLsb' 0 8 = b.reader.buf ∧
      ((bitCursorWord b).extractLsb' 8 3).toNat = b.reader.off.val ∧
      (bitCursorWord b).getLsbD 11 = b.reader.valid ∧ (bitCursorWord b).extractLsb' 12 4 = 0#4 ∧
      (bitCursorWord b).extractLsb' 16 8 = b.writer.buf ∧
      ((bitCursorWord b).extractLsb' 24 3).toNat = b.writer.off.val ∧
      (bitCursorWord b).extractLsb' 27 5 = 0#5 := by
  rw [bitCursorWord]
  refine ⟨BitVec.extractLsb'_append_eq_right, ?_, ?_, ?_, ?_, ?_, ?_⟩
  case refine_2 =>
    rw [BitVec.getLsbD_append]
    simp [BitVec.getLsbD_append, flagBit_getLsbD, -Nat.reduceAdd, -BitVec.getLsbD_eq_getElem]
  all_goals
    rw [BitVec.extractLsb'_append_eq_of_le] <;>
      simp [BitVec.extractLsb'_append_eq_of_le, BitVec.extractLsb'_append_eq_right, -Nat.reduceAdd,
        -BitVec.extractLsb'_toNat]

/-- The fields of PARAMS (10_state.md R27). -/
theorem paramsWord_fields (p : Params) :
    (paramsWord p).extractLsb' 0 16 = BitVec.ofNat 16 p.heapCap ∧ (paramsWord p).extractLsb' 16 16 = 1#16 :=
  ⟨BitVec.extractLsb'_append_eq_right, BitVec.extractLsb'_append_eq_left⟩

/-- The low half of a 64-bit counter (10_state.md R30). -/
theorem toNat_lowHalf (c : BitVec 64) : (c.extractLsb' 0 32).toNat = c.toNat % 2 ^ 32 := by
  rw [BitVec.extractLsb'_toNat, Nat.shiftRight_zero]

/-- The high half of a 64-bit counter (10_state.md R30). -/
theorem toNat_highHalf (c : BitVec 64) : (c.extractLsb' 32 32).toNat = c.toNat / 2 ^ 32 := by
  rw [BitVec.extractLsb'_toNat, Nat.shiftRight_eq_div_pow, Nat.mod_eq_of_lt (by omega)]

/-! ### What an offset of an idle block reads -/

theorem offsetValue_of_regAt {p : Params} {b : Block} {off : Nat} {r : Reg} (h : regAt off = some r) :
    offsetValue p b off = regValue p b r := by
  rw [offsetValue, h]

theorem offsetValue_cw {p : Params} {b : Block} {off : Nat} (ha : off % 4 = 0) (hl : 0x040 ≤ off)
    (hu : off < 0x060) : offsetValue p b off = b.cwreg.extractLsb' (8 * (off - 0x040)) 32 := by
  have hk : 32 * (Fin.ofNat 8 ((off - 0x040) / 4)).val = 8 * (off - 0x040) := by
    simp only [Fin.ofNat]
    omega
  rw [offsetValue_of_regAt (regAt_cw hl hu), regValue, hk]

theorem offsetValue_reserved {p : Params} {b : Block} {off : Nat} (hl : 0x060 ≤ off) (hu : off < 0x400) :
    offsetValue p b off = 0#32 := by
  rw [offsetValue, regAt_reserved hl hu]

theorem offsetValue_freq {p : Params} {b : Block} {off : Nat} (hl : 0x400 ≤ off) (hu : off < 0x800) :
    offsetValue p b off = freqAt b.freq (BitVec.ofNat 8 ((off - 0x400) / 4)) :=
  offsetValue_of_regAt (regAt_freq hl hu)

/-! ### Register reads -/

/-- A step whose action reads an aligned offset of the aperture. -/
theorem step_memRead {s : State} {off : Nat} {rest : List HostAction} (hw : s.params.wf = true) (ha : off % 4 = 0)
    (ho : off < 0x800) (hs : s.script = .memRead 4 (s.params.base + off) :: rest) :
    step s = .next
      { (readOffset off { s with script := rest }).2 with
        reads := (readOffset off { s with script := rest }).2.reads ++
          [{ offset := off, value := (readOffset off { s with script := rest }).1 }] } := by
  rw [step_cons hw hs]
  simp only [act, memRead, busRead, accessOffset_base_add hw ha ho]

theorem readOffset_idle {s : State} {off : Nat} (hl : s.resetLine = false) (hb : s.block.status.busy = false) :
    readOffset off s = (offsetValue s.params s.block off, s) := by
  simp [readOffset, hl, hb]

theorem readOffset_busy_status {s : State} (hl : s.resetLine = false) (hb : s.block.status.busy = true) :
    readOffset 0x004 s = busyStatusRead s := by
  simp [readOffset, hl, hb, regOffset]

theorem readOffset_busy_ne {s : State} {off : Nat} (hl : s.resetLine = false) (hb : s.block.status.busy = true)
    (ho : off ≠ 0x004) : readOffset off s = drawnRead s := by
  simp [readOffset, hl, hb, regOffset, ho]

/-! ### The phases a busy block shows (10_state.md R22) -/

theorem pickPhase_mem {ps : List Phase} (h : ps ≠ []) (k : Nat) : pickPhase ps k ∈ ps := by
  unfold pickPhase
  split
  · exact List.mem_singleton.2 rfl
  · have hk : k % ps.length < ps.length := Nat.mod_lt k (List.length_pos_of_ne_nil h)
    rw [List.getD_eq_getElem _ _ hk]
    exact List.getElem_mem hk

theorem phasesOf_ne_nil (w : Word) : phasesOf w ≠ [] := by
  unfold phasesOf
  split <;> exact List.cons_ne_nil _ _

theorem phasesOf_encode_toBits {w : Word} {p : Phase} (h : decode w = .ok .encode) (hp : p ∈ phasesOf w) :
    p.toBits.toNat ∈ [1, 2, 3, 4, 5, 8] := by
  rw [phasesOf, h] at hp
  revert p
  decide

theorem phasesOf_decode_toBits {w : Word} {p : Phase} (h : decode w = .ok .decode) (hp : p ∈ phasesOf w) :
    p.toBits.toNat ∈ [6, 2, 7, 8] := by
  rw [phasesOf, h] at hp
  revert p
  decide

/-- Every other word, a command's or not, shows EXEC. -/
theorem phasesOf_standalone_toBits {w : Word} {p : Phase} (he : decode w ≠ .ok .encode) (hd : decode w ≠ .ok .decode)
    (hp : p ∈ phasesOf w) : p.toBits.toNat = 9 := by
  unfold phasesOf at hp
  split at hp
  · exact absurd ‹_› he
  · exact absurd ‹_› hd
  · obtain rfl := List.mem_singleton.1 hp
    rfl

/-! ### Register writes outside CMD -/

/-- The block after a write of `v` to the offset `off`, which is not CMD's (10_state.md R32, R34, R47). -/
def writtenBlock (off : Nat) (v : Word) (b : Block) : Block :=
  if b.status.busy then b
  else if off = 0x008 then { b with arg0 := v }
  else if off = 0x00C then { b with arg1 := v }
  else if 0x400 ≤ off then { b with freq := freqSet b.freq (BitVec.ofNat 8 ((off - 0x400) / 4)) v }
  else b

theorem writtenBlock_busy {off : Nat} {v : Word} {b : Block} (hb : b.status.busy = true) :
    writtenBlock off v b = b := if_pos hb

theorem writtenBlock_readOnly {off : Nat} {v : Word} {b : Block} (h0 : off ≠ 0x008) (h1 : off ≠ 0x00C)
    (hf : off < 0x400) : writtenBlock off v b = b := by
  simp [writtenBlock, h0, h1, Nat.not_le.2 hf]

theorem writtenBlock_arg0 {v : Word} {b : Block} (hb : b.status.busy = false) :
    writtenBlock 0x008 v b = { b with arg0 := v } := by
  simp [writtenBlock, hb]

theorem writtenBlock_arg1 {v : Word} {b : Block} (hb : b.status.busy = false) :
    writtenBlock 0x00C v b = { b with arg1 := v } := by
  simp [writtenBlock, hb]

theorem writtenBlock_freq {off : Nat} {v : Word} {b : Block} (hb : b.status.busy = false) (hf : 0x400 ≤ off) :
    writtenBlock off v b = { b with freq := freqSet b.freq (BitVec.ofNat 8 ((off - 0x400) / 4)) v } := by
  rw [writtenBlock, if_neg (by simp [hb]), if_neg (by omega), if_neg (by omega), if_pos hf]

/-- A busy block takes no write outside CMD (10_state.md R47). -/
theorem writeReg_busy {r : Reg} {v : Word} {s : State} (hr : r ≠ .cmd) (hb : s.block.status.busy = true) :
    writeReg r v s = s := by
  cases r with
  | cmd => exact absurd rfl hr
  | arg0 | arg1 | freq b => exact if_pos hb
  | _ => rfl

/-- A register other than CMD is written at its offset. -/
theorem writeReg_eq_writtenBlock {r : Reg} (hr : r ≠ .cmd) (v : Word) (s : State) :
    writeReg r v s = { s with block := writtenBlock (regOffset r) v s.block } := by
  cases hb : s.block.status.busy with
  | true => rw [writtenBlock_busy hb, writeReg_busy hr hb]
  | false =>
    cases r with
    | cmd => exact absurd rfl hr
    | arg0 => simp [writeReg, hb, regOffset, writtenBlock_arg0 hb]
    | arg1 => simp [writeReg, hb, regOffset, writtenBlock_arg1 hb]
    | freq b =>
      have hi : BitVec.ofNat 8 ((regOffset (.freq b) - 0x400) / 4) = b := by simp [regOffset]
      rw [writtenBlock_freq hb (by simp [regOffset]), hi]
      simp [writeReg, hb]
    | cw k => rw [writtenBlock_readOnly] <;> simp only [writeReg, regOffset] <;> omega
    | _ => rw [writtenBlock_readOnly] <;> simp [writeReg, regOffset]

theorem memWrite_reserved {s : State} {n addr off : Nat} {v : Word} (hl : s.resetLine = false)
    (ha : accessOffset s.params n addr = .ok off) (hr : regAt off = none) : memWrite n addr v s = .next s := by
  simp [memWrite, ha, hl, hr]

/-- A step whose action writes an aligned offset other than CMD's. -/
theorem step_memWrite {s : State} {off : Nat} {v : Word} {rest : List HostAction} (hw : s.params.wf = true)
    (hl : s.resetLine = false) (ha : off % 4 = 0) (h0 : 0 < off) (ho : off < 0x800)
    (hs : s.script = .memWrite 4 (s.params.base + off) v :: rest) :
    step s = .next { s with script := rest, block := writtenBlock off v s.block } := by
  have hoff := accessOffset_base_add hw ha ho
  refine (step_cons hw hs).trans ?_
  cases hr : regAt off with
  | none =>
    have hb : writtenBlock off v s.block = s.block := by
      apply writtenBlock_readOnly
      · rintro rfl; cases hr
      · rintro rfl; cases hr
      · by_contra hf
        rw [regAt_freq (by omega) ho] at hr
        cases hr
    rw [hb]
    exact memWrite_reserved (s := { s with script := rest }) hl hoff hr
  | some r =>
    obtain rfl : regOffset r = off := regOffset_of_regAt ha hr
    have hc : r ≠ .cmd := by rintro rfl; exact Nat.lt_irrefl 0 h0
    exact (memWrite_reg (s := { s with script := rest }) hl hoff hr).trans
      (congrArg _ (writeReg_eq_writtenBlock hc v _))

/-! ### The reset state -/

/-- Every clause of the invariant is a fact about the reset values (10_state.md R44). -/
theorem legal_reset : Legal State.reset where
  status := by decide
  idle := fun _ => rfl
  heapSize := by decide
  heapOrder := by decide
  total := by decide
  tree := ⟨[], by decide, rfl, rfl⟩
  code := codeLegal_emptyCode
  reader := by decide
  writer := by decide
  held := fun _ => rfl

/-! ### The statements -/

/-- Settles O56: the reset state is legal, and the turn of its idle block changes nothing. -/
theorem resetStateIsLegal : Obligations.ResetStateIsLegal := ⟨legal_reset, rfl, rfl, rfl⟩

/-- Settles O7: a write outside CMD leaves `writtenBlock`, and a read only draws and records. -/
theorem registerAccessesStoreOnlyArgumentsAndCounts : Obligations.RegisterAccessesStoreOnlyArgumentsAndCounts := by
  constructor
  · intro s off v rest hw hl ha h0 ho hs
    refine ⟨writtenBlock off v s.block, step_memWrite hw hl ha h0 ho hs, writtenBlock_busy, ?_, ?_, ?_,
      writtenBlock_readOnly⟩
    · rintro hb rfl
      exact writtenBlock_arg0 hb
    · rintro hb rfl
      exact writtenBlock_arg1 hb
    · intro hb hf
      exact ⟨_, writtenBlock_freq hb hf, freqAt_freqSet_self .., fun c hc => freqAt_freqSet_ne _ v hc⟩
  · intro s off rest hw ha ho hs
    have hread : memRead 4 (s.params.base + off) { s with script := rest } = step s := (step_cons hw hs).symm
    obtain ⟨off', v, d, hoff, ht⟩ := memRead_eq_next (hread.trans (step_memRead hw ha ho hs))
    obtain rfl : off = off' := Except.ok.inj ((accessOffset_base_add hw ha ho).symm.trans hoff)
    exact ⟨v, d, (step_memRead hw ha ho hs).trans (congrArg _ ht)⟩

/-- Settles O8: an idle read returns `offsetValue`, whose register at each offset, and whose fields, are those of
10_state.md R20-R34. -/
theorem idleReadsShowTheRegisters : Obligations.IdleReadsShowTheRegisters := by
  intro s off rest hw hl hb ha ho hs
  have hread := readOffset_idle (s := { s with script := rest }) (off := off) hl hb
  refine ⟨offsetValue s.params s.block off, (step_memRead hw ha ho hs).trans (by rw [hread]), ?cmd, ?status, ?arg0,
    ?arg1, ?result0, ?result1, ?pqSize, ?nTotal, ?treeInfo, ?bitCursor, ?inCountLo, ?inCountHi, ?outCountLo,
    ?outCountHi, ?id, ?params, offsetValue_cw ha, offsetValue_reserved, fun hf => offsetValue_freq hf ho⟩ <;>
    rintro rfl
  case status =>
    obtain ⟨hbusy, hfields⟩ := statusWord_fields s.block.status
    exact ⟨hbusy.trans hb, hfields⟩
  case pqSize => exact pqSizeWord_toNat s.block
  case treeInfo => exact treeInfoWord_fields s.block
  case bitCursor => exact bitCursorWord_fields s.block
  case inCountLo => exact toNat_lowHalf s.block.inCount
  case inCountHi => exact toNat_highHalf s.block.inCount
  case outCountLo => exact toNat_lowHalf s.block.outCount
  case outCountHi => exact toNat_highHalf s.block.outCount
  case params => exact paramsWord_fields s.params
  case cmd | arg0 | arg1 | result0 | result1 | nTotal | id => rfl

/-- Settles O9: a busy block answers a STATUS read with its true fields and a phase picked from the running command's,
and any other read with a drawn value. -/
theorem busyReadsShowOnlyStatus : Obligations.BusyReadsShowOnlyStatus := by
  intro s off rest hw hl hb ha ho hs
  rw [step_memRead hw ha ho hs]
  by_cases h4 : off = 0x004
  · subst h4
    rw [readOffset_busy_status (s := { s with script := rest }) hl hb]
    refine ⟨_, rfl, fun _ => ?_⟩
    obtain ⟨hbusy, herr, hrej, hlow, hcode, hphase, hhigh, hop⟩ := statusWord_fields
      { s.block.status with phase := pickPhase (phasesOf s.block.running.word) (Config.freePhase s.draws) }
    have hp := pickPhase_mem (phasesOf_ne_nil s.block.running.word) (Config.freePhase s.draws)
    refine ⟨hbusy.trans hb, herr, hrej, hlow, hcode, hhigh, hop, fun he => ?_, fun hd => ?_, fun he hd => ?_⟩
    · exact hphase ▸ phasesOf_encode_toBits he hp
    · exact hphase ▸ phasesOf_decode_toBits hd hp
    · exact hphase ▸ phasesOf_standalone_toBits he hd hp
  · rw [readOffset_busy_ne (s := { s with script := rest }) hl hb h4]
    exact ⟨_, rfl, fun h => absurd h h4⟩

end Sys2Proof.Machine
end

section
/-! PROOFS. The statements of 20_memory.md: the payload ENCODE sends, the port events a command can append, the block's
turn, and the host's choice of the source. Before each, the rules it needs. -/

namespace Sys2Proof.Machine

/-! ### The payload of ENCODE (20_memory.md R89) -/

theorem newEvents_of_portlog {s t : State} {evs : List PortEvent} (h : t.portlog = s.portlog ++ evs) :
    newEvents s t = evs := by
  rw [newEvents, h, List.drop_left]

/-- Bits summed byte after byte are bits summed by byte value: each value counts as often as it occurs (44_encoder_fsm.md
R248). -/
theorem payloadBits_eq_countedPayloadBits {bytes : List Byte} {f : Vector Word 256} (h : countsOf bytes f)
    (c : Vector CodeEntry 256) : payloadBits c bytes = countedPayloadBits f c := by
  have habsent : ∀ b ∈ allBytes.toFinset, b ∉ bytes.toFinset → bytes.count b * (codeAt c b).len.toNat = 0 := by
    intro b _ hb
    rw [List.count_eq_zero.2 (mt List.mem_toFinset.2 hb), Nat.zero_mul]
  calc payloadBits c bytes
      = ∑ b ∈ bytes.toFinset, bytes.count b * (codeAt c b).len.toNat := Finset.sum_list_map_count bytes _
    _ = ∑ b ∈ allBytes.toFinset, bytes.count b * (codeAt c b).len.toNat :=
        Finset.sum_subset (fun b _ => List.mem_toFinset.2 (mem_allBytes b)) habsent
    _ = (allBytes.map fun b => bytes.count b * (codeAt c b).len.toNat).sum := List.sum_toFinset _ allBytes_nodup
    _ = countedPayloadBits f c := by simp only [countedPayloadBits, h _]

/-- ENCODE of a source that fits: the bytes it sends are the header of the counts it leaves, then the payload of the code
table it leaves (20_memory.md R89, 44_encoder_fsm.md R244, R245). -/
theorem encode_sends_header_then_payload {s t : State} (hc : 256 ≤ s.params.heapCap)
    (hl : s.src.length ≤ Config.maxTotal) (h : exec .encode s = .next t) :
    countsOf s.src t.block.freq ∧ ∃ payload,
      sinkBytes (newEvents s t) = headerBytes t.block.freq ++ payload ∧
      payload.flatMap byteBits =
        codewordsOf t.block.code s.src ++ List.replicate ((8 - payloadBits t.block.code s.src % 8) % 8) false := by
  obtain ⟨ns, root, evs, payload, -, -, -, -, hbody, hsink, -, hbits⟩ := encodeBody_spec hl
  simp only [exec, execEncode, finishCommand, hbody s hc rfl, endState_ok] at h
  cases h
  refine ⟨countAdd_countsOf (by simp only [Config.maxTotal] at hl; omega), payload, ?_, hbits⟩
  rw [newEvents_of_portlog (List.append_assoc ..), sinkBytes_append, hsink]
  exact List.append_nil _

/-- Settles O48: after the 1024 bytes of the header stands the payload, whose bits are the codewords and the padding; their
number is counted by byte value. -/
theorem encodePayloadIsTheCodewordsInOrder : Obligations.EncodePayloadIsTheCodewordsInOrder := by
  intro s t hc hl h
  obtain ⟨hcounts, payload, hsink, hbits⟩ := encode_sends_header_then_payload hc hl h
  refine ⟨?_, payloadBits_eq_countedPayloadBits hcounts t.block.code⟩
  rw [hsink, List.drop_left' (headerBytes_length t.block.freq)]
  exact hbits

/-! ### The port events a command can append (20_memory.md R77, R86) -/

/-- `t` has the port events of `s`, and then only events that `P` allows. -/
def Appends (P : PortEvent → Prop) (s t : State) : Prop := ∃ evs, t.portlog = s.portlog ++ evs ∧ ∀ e ∈ evs, P e

theorem Appends.of_portlog_eq {P : PortEvent → Prop} {s t : State} (h : t.portlog = s.portlog) : Appends P s t :=
  ⟨[], by rw [h, List.append_nil], fun _ he => absurd he List.not_mem_nil⟩

theorem Appends.trans {P : PortEvent → Prop} {s t u : State} (h : Appends P s t) (g : Appends P t u) : Appends P s u := by
  obtain ⟨xs, hx, hp⟩ := h
  obtain ⟨ys, hy, hq⟩ := g
  exact ⟨xs ++ ys, by rw [hy, hx, List.append_assoc], List.forall_mem_append.2 ⟨hp, hq⟩⟩

/-- An event of the sink port that moves a byte. -/
def emitEvent (e : PortEvent) : Prop := ∃ b, e = .snkByte b

/-- The events a command can append: the bit-writer commands emit, the bit-reader commands fetch, the two codec commands
use the ports freely, and no other command uses them (20_memory.md R86). -/
def mayAppend : Instr → PortEvent → Prop
  | .bwWriteBit | .bwWriteU32 | .bwFlush => emitEvent
  | .brReadBit | .brReadU32 => fetchEvent
  | .encode | .decode => fun _ => True
  | _ => fun _ => False

theorem emitted_appends (s : State) (bytes : List Byte) (w : Writer) :
    Appends emitEvent s (emitted s bytes w) := by
  refine ⟨bytes.map .snkByte, rfl, fun e he => ?_⟩
  obtain ⟨b, -, rfl⟩ := List.mem_map.1 he
  exact ⟨b, rfl⟩

theorem writeBits_appends (bits : List Bool) (s : State) : Appends emitEvent s (writeBits bits s) := by
  obtain ⟨bytes, w, h, -⟩ := writeBits_frame bits s
  rw [h]
  exact emitted_appends s bytes w

theorem writeU32_appends (v : Word) (s : State) : Appends emitEvent s (writeU32 v s) := by
  rw [writeU32]
  exact writeBits_appends (bitsDown v 32) s

theorem flushBits_appends (s : State) : Appends emitEvent s (flushBits s) := by
  obtain ⟨bytes, w, h, -⟩ := flushBits_frame s
  rw [h]
  exact emitted_appends s bytes w

theorem readBit_appends (s : State) : Appends fetchEvent s (readBit s).state := by
  obtain ⟨r, c, evs, h, he, -⟩ := readBit_frame s
  exact ⟨evs, by rw [h], he⟩

theorem readU32_appends (s : State) : Appends fetchEvent s (readU32 s).state := by
  obtain ⟨r, c, evs, h, he, -⟩ := readU32_frame s
  exact ⟨evs, by rw [h], he⟩

theorem treeBuild_portlog (s : State) : (treeBuild s).state.portlog = s.portlog := by
  obtain ⟨n, h, ns, root, he, -⟩ := treeBuild_frame s
  rw [he]

theorem checkArg_state (legal : Bool) (s : State) : (checkArg legal s).state = s := by
  cases legal <;> rfl

/-- A piece of a command after another. -/
theorem andThen_appends {α β : Type} {P : PortEvent → Prop} {s : State} {r : Res State α} {f : α → State → Res State β}
    (hr : Appends P s r.state) (hf : ∀ a u, Appends P u (f a u).state) : Appends P s (r.andThen f).state :=
  Res.state_andThen (Appends P s) hr fun a u hu => hu.trans (hf a u)

/-- What comes after the check of an argument. -/
theorem checkArg_andThen_appends {α : Type} {P : PortEvent → Prop} (legal : Bool) (s : State)
    {f : Unit → State → Res State α} (hf : ∀ a u, Appends P u (f a u).state) :
    Appends P s ((checkArg legal s).andThen f).state :=
  andThen_appends (.of_portlog_eq (congrArg State.portlog (checkArg_state legal s))) hf

/-- A piece that works on a part of the block. -/
theorem within_appends {τ α : Type} {P : PortEvent → Prop} {s : State} (r : Res τ α) {put : τ → State}
    (hp : ∀ u, (put u).portlog = s.portlog) : Appends P s (r.within put).state := by
  cases r <;> exact .of_portlog_eq (hp _)

/-- A standalone command appends what its body appends: neither `return` nor its error exit uses the ports
(60_exceptions.md R306). -/
theorem standalone_appends {P : PortEvent → Prop} {body : State → Res State Unit} {s t : State}
    (h : standalone body s = .next t) (hb : ∀ u, Appends P u (body u).state) : Appends P s t := by
  cases h
  refine Appends.trans (hb (setPhase .exec s) :) (.of_portlog_eq ?_)
  cases body (setPhase .exec s) <;> rfl

/-- The end of any command only appends to portlog. -/
theorem endState_appends (k : ExitKind) (r : Res State Unit) : Appends (fun _ => True) r.state (endState k r) := by
  cases r with
  | ok a s => exact .of_portlog_eq rfl
  | err e s =>
    cases k with
    | standalone => exact .of_portlog_eq rfl
    | encoder =>
      obtain ⟨evs, hf, -⟩ := flushBits_appends s
      exact ⟨evs ++ [.snkClose, .srcRelease], by simp [errorExit, finalise, hf], fun _ _ => trivial⟩
    | decoder => exact ⟨[.snkClose, .srcRelease], by simp [errorExit, finalise], fun _ _ => trivial⟩

theorem encodeBody_appends (s : State) : Appends (fun _ => True) s (encodeBody s).state := by
  obtain ⟨_, _, _, _, _, _, _, _, _, _, _, _, evs, tail, h, -⟩ := encodeBody_frame s
  exact ⟨evs ++ tail, by rw [h, ← List.append_assoc], fun _ _ => trivial⟩

theorem decodeBody_appends (s : State) : Appends (fun _ => True) s (decodeBody s).state := by
  obtain ⟨_, _, _, _, _, _, _, _, _, _, _, evs, tail, h, -⟩ := decodeBody_frame s
  exact ⟨evs ++ tail, by rw [h, ← List.append_assoc], fun _ _ => trivial⟩

/-- Every command appends only the events of its kind. -/
theorem exec_appends {i : Instr} {s t : State} (h : exec i s = .next t) : Appends (mayAppend i) s t := by
  unfold exec at h
  cases i with
  | reset => cases h; exact .of_portlog_eq rfl
  | nop | pqSize | pqClear | freqClear | codeGen | brAlign => exact standalone_appends h fun _ => .of_portlog_eq rfl
  | pqPeek | treeRead | codeLookup =>
    exact standalone_appends h fun u => checkArg_andThen_appends _ u fun _ _ => .of_portlog_eq rfl
  | pqInsert =>
    exact standalone_appends h fun u => checkArg_andThen_appends _ u fun _ _ => within_appends _ fun _ => rfl
  | pqExtractMin =>
    exact standalone_appends h fun _ => andThen_appends (within_appends _ fun _ => rfl) fun _ _ => .of_portlog_eq rfl
  | freqCount =>
    refine standalone_appends h fun u => checkArg_andThen_appends _ u fun _ v => .of_portlog_eq ?_
    simp only []
    split <;> rfl
  | treeBuild =>
    exact standalone_appends h fun u => andThen_appends (.of_portlog_eq (treeBuild_portlog u))
      fun _ _ => .of_portlog_eq rfl
  | bwWriteBit =>
    exact standalone_appends h fun u => checkArg_andThen_appends _ u fun _ v => writeBits_appends [bitField (argA v)] v
  | bwWriteU32 => exact standalone_appends h fun u => by rw [Res.state_ok]; exact writeU32_appends (argA u) u
  | bwFlush => exact standalone_appends h flushBits_appends
  | brReadBit =>
    exact standalone_appends h fun u => andThen_appends (readBit_appends u) fun _ _ => .of_portlog_eq rfl
  | brReadU32 =>
    exact standalone_appends h fun u => andThen_appends (readU32_appends u) fun _ _ => .of_portlog_eq rfl
  | encode => cases h; exact (encodeBody_appends s).trans (endState_appends .encoder _)
  | decode => cases h; exact (decodeBody_appends s).trans (endState_appends .decoder _)

/-- A command other than ENCODE and DECODE only moves bytes or meets the end of the source. -/
theorem mayAppend_data {i : Instr} {e : PortEvent} (hi : i ≠ .encode) (hd : i ≠ .decode) (h : mayAppend i e) :
    dataEvent e := by
  cases i with
  | encode => exact absurd rfl hi
  | decode => exact absurd rfl hd
  | bwWriteBit | bwWriteU32 | bwFlush => exact .inr (.inl h)
  | brReadBit | brReadU32 => exact fetchEvent.data h
  | _ => exact False.elim h

/-- Settles O17: the events a command appends are of its kind, and only the codec commands' kind holds more than data. -/
theorem onlyCodecCommandsScopeThePorts : Obligations.OnlyCodecCommandsScopeThePorts := by
  intro i s t h
  obtain ⟨evs, hlog, hevs⟩ := exec_appends h
  refine ⟨evs, hlog, fun hi hd => ?_, fun hm => ?_, fun hm => ?_⟩
  · have hdata : ∀ e ∈ evs, dataEvent e := fun e he => mayAppend_data hi hd (hevs e he)
    refine ⟨fun he => ?_, fun he => not_bodyEvent_release (.inl (hdata _ he)), fun he =>
      not_bodyEvent_close (.inl (hdata _ he))⟩
    simpa [dataEvent] using hdata _ he
  · simp only [List.mem_cons, List.not_mem_nil, or_false] at hm
    rcases hm with rfl | rfl | rfl <;> exact hevs
  · simp only [List.mem_cons, List.not_mem_nil, or_false] at hm
    rcases hm with rfl | rfl <;> exact fun e he => (hevs e he).symm

/-! ### The block's turn (20_memory.md R92) -/

/-- With no host action left, a step of a HUFF1 configuration is the block's turn. -/
theorem step_nil {s : State} (hw : s.params.wf = true) (hs : s.script = []) : step s = blockTurn s := by
  rw [step, if_pos hw, move, hs]

theorem blockTurn_decoded {s : State} {i : Instr} (hb : s.block.status.busy = true)
    (hd : decode s.block.running.word = .ok i) : blockTurn s = exec i s := by
  rw [blockTurn, if_pos hb, blockStep, hd]

theorem blockTurn_illegal {s : State} {r : DecodeReject} (hb : s.block.status.busy = true)
    (hd : decode s.block.running.word = .error r) : blockTurn s = .next (raisedAtOnce s .illegalCommand) := by
  rw [blockTurn, if_pos hb, blockStep, hd]
  exact standalone_raisedAtOnce rfl

/-- Settles O4: the step gives the block its turn, and the turn of a busy block is its decoded command. -/
theorem stepRunsTheDecodedCommand : Obligations.StepRunsTheDecodedCommand := by
  refine ⟨fun s rest i hw hb hs hd => ?_, fun s i hw hb hs hd => ?_, fun s rest r hw hb hs hd => ?_⟩
  · exact (step_cons hw hs).trans (blockTurn_decoded (s := { s with script := rest }) hb hd)
  · exact (step_nil hw hs).trans (blockTurn_decoded hb hd)
  · exact (step_cons hw hs).trans (blockTurn_illegal (s := { s with script := rest }) hb hd)

/-! ### The host's choice of the source (20_memory.md R91) -/

/-- Only BR_READ_BIT, BR_READ_U32, ENCODE and DECODE read the source (20_memory.md R86). -/
theorem mem_of_readsSource {w : Word} (h : readsSource w = true) :
    ∃ i ∈ [Instr.brReadBit, .brReadU32, .encode, .decode], decode w = .ok i := by
  unfold readsSource at h
  split at h
  case h_1 => exact ⟨.brReadBit, by decide, ‹_›⟩
  case h_2 => exact ⟨.brReadU32, by decide, ‹_›⟩
  case h_3 => exact ⟨.encode, by decide, ‹_›⟩
  case h_4 => exact ⟨.decode, by decide, ‹_›⟩
  case h_5 => cases h

/-- Settles O59: no running command reads the source, so the move is not refused. -/
theorem hostChoosesTheSource : Obligations.HostChoosesTheSource := by
  intro s bytes pos rest hw hs hfree
  have hnot : ¬ (s.block.status.busy && readsSource s.block.running.word) = true := by
    rw [Bool.and_eq_true]
    rintro ⟨hb, hr⟩
    obtain ⟨i, hi, hd⟩ := mem_of_readsSource hr
    exact hfree hb i hd hi
  exact (step_cons hw hs).trans (if_neg hnot)

end Sys2Proof.Machine
end

section
/-! PROOFS. The statements of 30_encoding.md: the command words and the words that are no command, the scripts and their
bus transactions, and what a `wait` reads. Before each, the rules it needs. -/

namespace Sys2Proof.Machine

/-! ### Words and commands (30_encoding.md R100-R102, R107-R109) -/

/-- A word is its two fields, RSVD above OPCODE (30_encoding.md R100). -/
theorem rsvdField_append_opcodeField (w : Word) : rsvdField w ++ opcodeField w = w := by
  rw [rsvdField, opcodeField,
    BitVec.extractLsb'_append_extractLsb'_eq_extractLsb' (start₁ := 0) (start₂ := 8) (len₁ := 8) rfl]
  exact BitVec.extractLsb'_eq_self

theorem decode_encode (i : Instr) : decode (encode i) = .ok i := by
  cases i <;> rfl

/-- A row of the opcode map holds its command's opcode (30_encoding.md R107). -/
theorem opcode_of_decodeOpcode {op : Byte} {i : Instr} (h : decodeOpcode op = some i) : opcode i = op := by
  have hrows : ∀ row ∈ opcodeMap, opcode row.2 = row.1 := by decide
  obtain ⟨row, hfind, rfl⟩ := Option.map_eq_some_iff.1 h
  exact (hrows row (List.mem_of_find?_eq_some hfind)).trans (beq_iff_eq.1 (List.find?_some hfind :))

/-- A word selects a command when RSVD is 0 and the opcode map has its OPCODE (30_encoding.md R101). -/
theorem decode_eq_ok {w : Word} {i : Instr} :
    decode w = .ok i ↔ rsvdField w = 0#24 ∧ decodeOpcode (opcodeField w) = some i := by
  unfold decode
  split
  case isTrue hr => simp [hr]
  case isFalse hr => cases decodeOpcode (opcodeField w) <;> simp [not_not.1 hr]

theorem exists_decode_eq_error {w : Word} :
    (∃ r, decode w = .error r) ↔ rsvdField w ≠ 0#24 ∨ decodeOpcode (opcodeField w) = none := by
  unfold decode
  split
  case isTrue hr => simp [hr]
  case isFalse hr => cases decodeOpcode (opcodeField w) <;> simp [not_not.1 hr]

/-- The command a word selects has that word (30_encoding.md R107, R109). -/
theorem eq_encode_of_decode {w : Word} {i : Instr} (h : decode w = .ok i) : w = encode i := by
  obtain ⟨hr, ho⟩ := decode_eq_ok.1 h
  calc w = rsvdField w ++ opcodeField w := (rsvdField_append_opcodeField w).symm
    _ = 0#24 ++ opcode i := by rw [hr, opcode_of_decodeOpcode ho]

/-- Settles O2: a word is its fields, and those are 0 and the opcode of the command it selects. -/
theorem decodeAndEncodeAgree : Obligations.DecodeAndEncodeAgree :=
  fun _ i => ⟨eq_encode_of_decode, fun h => h ▸ decode_encode i⟩

/-- Settles O1: the words written out are those of `encode`. -/
theorem opcodeMapWordsDecode : Obligations.OpcodeMapWordsDecode :=
  ⟨decode_encode .nop, decode_encode .reset, decode_encode .pqInsert, decode_encode .pqExtractMin,
    decode_encode .pqSize, decode_encode .pqClear, decode_encode .pqPeek, decode_encode .freqClear,
    decode_encode .freqCount, decode_encode .treeBuild, decode_encode .treeRead, decode_encode .codeGen,
    decode_encode .codeLookup, decode_encode .bwWriteBit, decode_encode .bwWriteU32, decode_encode .bwFlush,
    decode_encode .brReadBit, decode_encode .brReadU32, decode_encode .brAlign, decode_encode .encode,
    decode_encode .decode⟩

/-- The opcodes that name no command are those of the illegal ranges (30_encoding.md R108), checked opcode by opcode. -/
theorem decodeOpcode_eq_none {op : Byte} :
    decodeOpcode op = none ↔ ∃ p ∈ illegalOpcodeRanges, p.1 ≤ op.toNat ∧ op.toNat ≤ p.2 := by
  revert op
  decide +kernel

theorem blockStep_illegal {s : State} {r : DecodeReject} (hd : decode s.block.running.word = .error r) :
    blockStep s = .next (raisedAtOnce s .illegalCommand) := by
  rw [blockStep, hd]
  exact standalone_raisedAtOnce rfl

/-- Settles O3: a word is rejected for its RSVD or for an OPCODE outside the map, and its turn is an error exit taken at
once. -/
theorem illegalWordsAndTheirEffect : Obligations.IllegalWordsAndTheirEffect :=
  ⟨fun _ => exists_decode_eq_error.trans (or_congr_right decodeOpcode_eq_none), by decide +kernel,
    fun _ _ => blockStep_illegal⟩

/-! ### Scripts and their bus transactions (30_encoding.md R110, R112) -/

/-- A register stands at its offset (10_state.md R20). -/
theorem regAt_regOffset (r : Reg) : regAt (regOffset r) = some r := by
  cases r with
  | cw k =>
    have hk : regOffset (.cw k) = 0x040 + 4 * k.val := rfl
    rw [regAt_cw (by omega) (by omega), hk, Nat.add_sub_cancel_left, Nat.mul_div_cancel_left _ (by decide)]
    simp
  | freq b =>
    have hb : regOffset (.freq b) = 0x400 + 4 * b.toNat := rfl
    rw [regAt_freq (by omega) (by omega), hb, Nat.add_sub_cancel_left, Nat.mul_div_cancel_left _ (by decide)]
    simp
  | _ => rfl

theorem regOffset_eq_zero {r : Reg} (h : regOffset r = 0) : r = .cmd :=
  Option.some.inj ((regAt_regOffset r).symm.trans (congrArg regAt h))

/-- The bus transaction of a host action, if it is one: its address taken from BASE (30_encoding.md R112). -/
def actionTransaction (base : Nat) : HostAction → Option Transaction
  | .memWrite 4 addr v => some (.write (addr - base) v)
  | .memRead 4 addr => some (.read (addr - base))
  | .wait addr _ => some (.readUntilIdle (addr - base))
  | _ => none

theorem lineActions_transactions (base : Nat) (l : ScriptLine) :
    (lineActions base l).filterMap (actionTransaction base) = lineTransactions l := by
  cases l <;> simp [lineActions, lineTransactions, actionTransaction]

theorem scriptActions_transactions (base : Nat) (lines : List ScriptLine) :
    (scriptActions base lines).filterMap (actionTransaction base) = scriptTransactions lines := by
  simp only [scriptActions, scriptTransactions, List.filterMap_flatMap, lineActions_transactions]

/-- The ill-formed lines write CMD a value that is no command's word (log 27). -/
theorem ScriptLine.wf_eq_false {l : ScriptLine} : l.wf = false ↔ ∃ v, l = .wr .cmd v ∧ ∀ i, v ≠ encode i := by
  constructor
  · intro h
    unfold ScriptLine.wf at h
    split at h
    · rename_i v
      refine ⟨v, rfl, fun i hv => ?_⟩
      rw [hv, decode_encode] at h
      cases h
    all_goals cases h
  · rintro ⟨v, rfl, hv⟩
    cases hd : decode v with
    | ok i => exact absurd (eq_encode_of_decode hd) (hv i)
    | error r => simp [ScriptLine.wf, hd]

/-- A well-formed line that writes CMD writes it a command's word. -/
theorem ScriptLine.wf_write_cmd {l : ScriptLine} {v : Word} (hl : l.wf = true)
    (hv : Transaction.write 0x000 v ∈ lineTransactions l) : ∃ i, v = encode i := by
  cases l with
  | wr r imm =>
    obtain ⟨hr, rfl⟩ := Transaction.write.inj (List.mem_singleton.1 hv)
    obtain rfl := regOffset_eq_zero hr.symm
    by_contra hne
    rw [ScriptLine.wf_eq_false.2 ⟨v, rfl, not_exists.1 hne⟩] at hl
    cases hl
  | cmd i =>
    obtain ⟨-, rfl⟩ := Transaction.write.inj (List.mem_singleton.1 hv)
    exact ⟨i, rfl⟩
  | rd r | wait polls => cases List.mem_singleton.1 hv
  | src bytes => cases hv

theorem scriptEncoding_eq_some {lines : List ScriptLine} {ts : List Transaction} :
    scriptEncoding lines = some ts ↔ (∀ l ∈ lines, l.wf = true) ∧ ts = scriptTransactions lines := by
  simp [scriptEncoding, eq_comm (a := ts)]

theorem scriptEncoding_eq_none {lines : List ScriptLine} :
    scriptEncoding lines = none ↔ ∃ l ∈ lines, l.wf = false := by
  simp [scriptEncoding]

/-- An encoded script writes CMD only command words (30_encoding.md R112). -/
theorem scriptEncoding_write_cmd {lines : List ScriptLine} {ts : List Transaction} {v : Word}
    (h : scriptEncoding lines = some ts) (hv : Transaction.write 0x000 v ∈ ts) : ∃ i, v = encode i := by
  obtain ⟨hwf, rfl⟩ := scriptEncoding_eq_some.1 h
  obtain ⟨l, hl, hlv⟩ := List.mem_flatMap.1 hv
  exact ScriptLine.wf_write_cmd (hwf l hl) hlv

theorem parseScript_wf {polls : Nat} {text : List Char} {lines : List ScriptLine}
    (h : parseScript polls text = some lines) : ∀ l ∈ lines, l.wf = true :=
  List.all_eq_true.1 (Option.filter_eq_some_iff.1 h).2

/-- Settles O19: line by line, an action is its transaction, and a line is ill formed only for a CMD value that is no
command word. -/
theorem scriptActionsAreItsTransactions : Obligations.ScriptActionsAreItsTransactions := by
  refine ⟨scriptActions_transactions, regAt_regOffset, fun lines ts h => ?_, fun lines => ?_, fun _ _ _ h => ?_,
    fun polls k p => rfl⟩
  · exact ⟨(scriptEncoding_eq_some.1 h).2, fun v => scriptEncoding_write_cmd h⟩
  · simp only [scriptEncoding_eq_none, ScriptLine.wf_eq_false]
    constructor
    · rintro ⟨l, hl, v, rfl, hv⟩
      exact ⟨v, hl, hv⟩
    · rintro ⟨v, hl, hv⟩
      exact ⟨_, hl, v, rfl, hv⟩
  · exact ⟨_, scriptEncoding_eq_some.2 ⟨parseScript_wf h, rfl⟩⟩

/-! ### What a `wait` reads (30_encoding.md R110, 70_reset_and_hazards.md R335, R345) -/

/-- Every command ends in a next state with the block idle (60_exceptions.md R300, 70_reset_and_hazards.md R346). -/
theorem exec_ends_idle (i : Instr) (s : State) :
    ∃ t, exec i s = .next t ∧ t.block.status.busy = false ∧ t.block.running = Running.none := by
  cases i with
  | reset => exact ⟨_, rfl, rfl, rfl⟩
  | _ => exact ⟨_, rfl, endState_idle ..⟩

/-- So does the block's own step on any accepted word. -/
theorem blockStep_ends_idle (s : State) : ∃ t, blockStep s = .next t ∧ t.block.status.busy = false := by
  cases hd : decode s.block.running.word with
  | ok i =>
    obtain ⟨t, ht, hb, -⟩ := exec_ends_idle i s
    exact ⟨t, by rw [blockStep, hd]; exact ht, hb⟩
  | error r => exact ⟨_, blockStep_illegal hd, rfl⟩

/-- A read of an aligned offset of the aperture, and its entry in the host's record. -/
theorem busRead_base_add {s u : State} {off : Nat} {v : Word} (hw : s.params.wf = true) (ha : off % 4 = 0)
    (ho : off < 0x800) (hr : readOffset off s = (v, u)) :
    busRead 4 (s.params.base + off) s = .ok (v, { u with reads := u.reads ++ [{ offset := off, value := v }] }) := by
  simp only [busRead, accessOffset_base_add hw ha ho, hr]

/-- A turn of `wait` that reads a STATUS with bit 0 = 0 goes on. -/
theorem waitTurn_goes_on {s u : State} {polls : Nat} {v : Word} (hw : s.params.wf = true)
    (hb : s.block.status.busy = false) (hr : readOffset 0x004 s = (v, u)) (hv : v.getLsbD 0 = false) :
    waitTurn (s.params.base + 0x004) polls s =
      .next { u with reads := u.reads ++ [{ offset := 0x004, value := v }] } := by
  simp [waitTurn, hb, busRead_base_add hw rfl (by decide) hr, hv, -BitVec.getLsbD_eq_getElem]

/-- A turn of `wait` that reads a STATUS with bit 0 = 1 has one poll fewer left. -/
theorem waitTurn_waits_on {s u : State} {polls : Nat} {v : Word} (hw : s.params.wf = true)
    (hr : readOffset 0x004 s = (v, u)) (hv : v.getLsbD 0 = true) :
    waitTurn (s.params.base + 0x004) (polls + 1) s =
      .next
        { u with
          script := .wait (s.params.base + 0x004) polls :: u.script
          reads := u.reads ++ [{ offset := 0x004, value := v }] } := by
  simp [waitTurn, busRead_base_add hw rfl (by decide) hr, hv, -BitVec.getLsbD_eq_getElem]

/-- With no poll left, the running command has its turn before the `wait` reads (log 22). -/
theorem waitTurn_runs {s : State} {addr : Nat} {rest : List HostAction} (hb : s.block.status.busy = true)
    (hs : s.script = .wait addr 0 :: rest) : waitTurn addr 0 { s with script := rest } = blockStep s := by
  have hsame : { s with script := .wait addr 0 :: rest } = s := by rw [← hs]
  simp [waitTurn, blockTurn, hb, hsame]

/-- Settles O58: bit 0 of STATUS is BUSY, and a block that had its turn is idle. -/
theorem waitReadsStatusUntilIdle : Obligations.WaitReadsStatusUntilIdle := by
  refine ⟨fun s polls rest hw hl hb hs => ?_, fun s polls rest hw hl hb hs => ?_, fun s addr rest hw hb hs => ?_⟩
  · have hv : (statusWord s.block.status).getLsbD 0 = false := (statusWord_busy _).trans hb
    exact ⟨_, (step_cons hw hs).trans
      (waitTurn_goes_on (s := { s with script := rest }) hw hb (readOffset_idle hl hb) hv), hv⟩
  · have hv : (busyStatusRead s).1.getLsbD 0 = true := (statusWord_busy _).trans hb
    exact ⟨_, (step_cons hw hs).trans
      (waitTurn_waits_on (s := { s with script := rest }) hw (readOffset_busy_status hl hb) hv), hv⟩
  · obtain ⟨t, ht, hidle⟩ := blockStep_ends_idle s
    have hturn : blockTurn s = .next t := (if_pos hb).trans ht
    obtain ⟨-, -, -, hscript, hreads, -⟩ := blockTurn_surroundings hturn
    have hstep : step s = blockStep s := (step_cons hw hs).trans (waitTurn_runs hb hs)
    exact ⟨t, ht, hstep.trans ht, hscript, hreads, hidle⟩

end Sys2Proof.Machine
end

section
/-! PROOFS. The statements of 40_priority_queue.md about the five queue commands. Before them, the rules they share: the
next state of each command by what its queue primitive does, and the path of the element that sifts. -/

namespace Sys2Proof.Machine

/-! ### The next state of a queue command -/

/-- PQ_INSERT with a legal payload ends as HeapInsert does (40_priority_queue.md R137). -/
theorem exec_pqInsert {s : State} {h : List Elem} (ha : s.block.running.a1.toNat ≤ 0x1FF)
    (hi : heapInsert s.params.heapCap
      { key := s.block.running.a0, payload := s.block.running.a1.extractLsb' 0 9 } s.block.heap = .ok () h) :
    exec .pqInsert s = .next (returned s { s.block with heap := h }) := by
  rw [exec, execPqInsert]
  refine standalone_returned ?_
  have hl : legalPayload s.block.running.a1 = true := decide_eq_true ha
  simp [argA, argB, payloadField, hl, hi]

theorem exec_pqInsert_illegal {s : State} (ha : 0x1FF < s.block.running.a1.toNat) :
    exec .pqInsert s = .next (raisedAtOnce s .badArgument) := by
  rw [exec, execPqInsert]
  refine standalone_raisedAtOnce ?_
  have hl : legalPayload s.block.running.a1 = false := decide_eq_false (Nat.not_le.2 ha)
  simp [argB, hl]

theorem exec_pqInsert_full {s : State} (ha : s.block.running.a1.toNat ≤ 0x1FF)
    (hf : s.params.heapCap ≤ s.block.heap.length) : exec .pqInsert s = .next (raisedAtOnce s .queueOverflow) := by
  rw [exec, execPqInsert]
  refine standalone_raisedAtOnce ?_
  have hl : legalPayload s.block.running.a1 = true := decide_eq_true ha
  simp only [argB, setPhase_block, setPhase_params, hl, checkArg_true, Res.andThen_ok, heapInsert_full hf,
    Res.within_err]
  rfl

/-- PQ_EXTRACT_MIN ends as HeapExtract does (40_priority_queue.md R138). -/
theorem exec_pqExtractMin {s : State} {e : Elem} {h : List Elem} (hx : heapExtract s.block.heap = .ok e h) :
    exec .pqExtractMin s =
      .next (returned s { s.block with heap := h, result0 := e.key, result1 := e.payload.setWidth 32 }) := by
  rw [exec, execPqExtractMin]
  refine standalone_returned ?_
  simp [hx]

theorem exec_pqExtractMin_empty {s : State} (hn : s.block.heap = []) :
    exec .pqExtractMin s = .next (raisedAtOnce s .queueUnderflow) := by
  rw [exec, execPqExtractMin]
  refine standalone_raisedAtOnce ?_
  have hx : heapExtract s.block.heap = .err .queueUnderflow s.block.heap := by rw [hn, heapExtract_empty]
  simp only [setPhase_block, hx, Res.within_err, Res.andThen_err]
  rfl

/-! ### Where the sifting element goes (40_priority_queue.md R133-R135) -/

theorem getElem?_eq_heapAt {h : List Elem} {i : Nat} (hi : i < h.length) : h[i]? = some (heapAt h i) := by
  rw [heapAt_of_lt hi, List.getElem?_eq_getElem hi]

/-- The new element stays in the free slot when its parent's key is not larger. -/
theorem siftUp_stays {fuel i : Nat} {h : List Elem} (hk : i ≠ 0 → keyAt h ((i - 1) / 2) ≤ keyAt h i) :
    siftUp fuel i h = h := by
  cases fuel with
  | zero => rfl
  | succ n =>
    rw [siftUp]
    split
    case isTrue => rfl
    case isFalse h0 => exact if_neg (BitVec.not_lt.2 (hk h0))

/-- An element stays where no live child has a smaller key. -/
theorem siftDown_stays {fuel i : Nat} {h : List Elem}
    (hk : ∀ c < h.length, c = 2 * i + 1 ∨ c = 2 * i + 2 → keyAt h i ≤ keyAt h c) : siftDown fuel i h = h := by
  cases fuel with
  | zero => rfl
  | succ n =>
    rw [siftDown]
    refine if_pos ?_
    by_contra hne
    obtain ⟨hc, hlt, hless⟩ := givesWay_child (minChild_givesWay hne)
    exact BitVec.not_lt.2 (hk _ hlt hc) hless

/-- The children of the root are the first two elements behind it. -/
theorem siftDown_root_stays {fuel : Nat} {last : Elem} {rest : List Elem} (hk : ∀ x ∈ rest.take 2, last.key ≤ x.key) :
    siftDown fuel 0 (last :: rest) = last :: rest := by
  refine siftDown_stays fun c hc hchild => ?_
  obtain ⟨j, rfl⟩ : ∃ j, c = j + 1 := ⟨c - 1, by omega⟩
  have hj : j < rest.length := by simpa using hc
  rw [keyAt, keyAt, heapAt_of_lt hc, heapAt_of_lt (Nat.zero_lt_of_lt hc)]
  exact hk _ (List.mem_take_iff_getElem.2 ⟨j, by omega, rfl⟩)

/-- HeapInsert, slot by slot: the new element moves up from the next free slot past the ancestors with a strictly larger
key, which come down one level each. -/
theorem siftUp_append_trace {e : Elem} {q h : List Elem} (hh : siftUp q.length q.length (q ++ [e]) = h) :
    ∃ m,
      (∀ k < m, ancestor k q.length ≠ 0 ∧ e.key < keyAt q (ancestor (k + 1) q.length) ∧
        h[ancestor k q.length]? = q[ancestor (k + 1) q.length]?) ∧
      h[ancestor m q.length]? = some e ∧
      (ancestor m q.length ≠ 0 → keyAt q (ancestor (m + 1) q.length) ≤ e.key) ∧
      ∀ i < q.length, (∀ k ≤ m, i ≠ ancestor k q.length) → h[i]? = q[i]? := by
  have hnew : heapAt (q ++ [e]) q.length = e := heapAt_eq_of_getElem? (by simp)
  have hold : ∀ i < q.length, heapAt (q ++ [e]) i = heapAt q i := fun i hi => heapAt_append_left hi
  have hup : ∀ k, ancestor k q.length ≠ 0 → ancestor (k + 1) q.length < q.length := fun k hk => by
    have hle := ancestor_le k q.length
    rw [ancestor_succ]
    omega
  obtain ⟨m, hmoved, hend, hstop, hrest⟩ :=
    siftUp_trace q.length q.length (q ++ [e]) (by simp) (Nat.le_refl _)
  have hslot : ∀ i ≤ q.length, h[i]? = some (heapAt h i) := fun i hi =>
    getElem?_eq_heapAt (by simp [← hh]; omega)
  rw [hh] at hmoved hend hrest
  simp only [keyAt, hnew] at hmoved hend hstop
  refine ⟨m, fun k hk => ?_, ?_, fun h0 => ?_, fun i hi hne => ?_⟩
  · obtain ⟨h0, hless, hat⟩ := hmoved k hk
    have hlt := hup k h0
    rw [hold _ hlt] at hless hat
    exact ⟨h0, hless, by rw [hslot _ (ancestor_le k _), hat, getElem?_eq_heapAt hlt]⟩
  · rw [hslot _ (ancestor_le m _), hend]
  · have hle := hstop h0
    rwa [hold _ (hup m h0)] at hle
  · rw [hslot i hi.le, hrest i hne, hold i hi, getElem?_eq_heapAt hi]

/-- HeapExtract: the root leaves, and the last element sifts down from its slot. -/
theorem heapExtract_cons_append (root last : Elem) (rest : List Elem) :
    heapExtract (root :: (rest ++ [last])) = .ok root (siftDown (rest.length + 1) 0 (last :: rest)) := by
  have hlast : heapAt (root :: (rest ++ [last])) (rest.length + 1) = last := heapAt_eq_of_getElem? (by simp)
  have hroot : heapAt (root :: (rest ++ [last])) 0 = root := heapAt_eq_of_getElem? rfl
  have hinit : (root :: (rest ++ [last])).dropLast = root :: rest := by
    rw [← List.cons_append, List.dropLast_concat]
  simp [heapExtract, heapRemoveRoot, hlast, hroot, hinit]

/-- HeapExtract, slot by slot: the last element moves down from the root past the children it gives way to, which come
up one level each. -/
theorem siftDown_cons_trace {last : Elem} {rest h : List Elem}
    (hh : siftDown (rest.length + 1) 0 (last :: rest) = h) :
    ∃ (path : Nat → Nat) (m : Nat), path 0 = 0 ∧
      (∀ k < m, givesWay (last :: rest) last.key (path k) (path (k + 1)) ∧
        h[path k]? = (last :: rest)[path (k + 1)]?) ∧
      h[path m]? = some last ∧
      (∀ c < rest.length + 1, c = 2 * path m + 1 ∨ c = 2 * path m + 2 → last.key ≤ keyAt (last :: rest) c) ∧
      ∀ i < rest.length + 1, (∀ k ≤ m, i ≠ path k) → h[i]? = (last :: rest)[i]? := by
  have htop : heapAt (last :: rest) 0 = last := heapAt_eq_of_getElem? rfl
  obtain ⟨path, m, hstart, hlive, hmoved, hend, hstop, hrest⟩ :=
    siftDown_trace (rest.length + 1) 0 (last :: rest) (by simp) (by simp)
  have hslot : ∀ i < rest.length + 1, h[i]? = some (heapAt h i) := fun i hi =>
    getElem?_eq_heapAt (by simpa [← hh] using hi)
  rw [hh] at hmoved hend hrest
  simp only [keyAt, htop] at hmoved hend hstop
  refine ⟨path, m, hstart, fun k hk => ?_, ?_, hstop, fun i hi hne => ?_⟩
  · obtain ⟨hway, hat⟩ := hmoved k hk
    refine ⟨hway, ?_⟩
    rw [hslot _ (hlive k hk.le).2, hat, getElem?_eq_heapAt (hlive (k + 1) hk).2]
  · rw [hslot _ (hlive m le_rfl).2, hend]
  · rw [hslot i hi, hrest i hne, getElem?_eq_heapAt hi]

/-- Of two equal smaller children of the root the left one becomes the root, and the right one stays. -/
theorem siftDown_equal_children {left right last : Elem} {more h : List Elem}
    (hh : siftDown (more.length + 3) 0 (last :: left :: right :: more) = h) (heq : left.key = right.key)
    (hless : left.key < last.key) : h[0]? = some left ∧ h[2]? = some right := by
  obtain ⟨path, m, hstart, hmoved, -, hstop, hrest⟩ := siftDown_cons_trace hh
  have hpath : ∀ k < m, path (k + 1) ≠ 2 := by
    intro k hk h2
    obtain ⟨-, -, ⟨hodd, -⟩ | ⟨heven, hstrict⟩⟩ := (hmoved k hk).1
    · omega
    · obtain h0 : path k = 0 := by omega
      rw [h0] at hstrict
      exact BitVec.not_lt.2 (BitVec.le_of_eq heq) hstrict
  obtain ⟨n, rfl⟩ : ∃ n, m = n + 1 := Nat.exists_eq_succ_of_ne_zero fun h0 => by
    have hle : last.key ≤ left.key := hstop 1 (by simp) (by simp [h0, hstart])
    exact BitVec.not_lt.2 hle hless
  obtain ⟨hway, hat⟩ := hmoved 0 n.succ_pos
  have hone : path (0 + 1) = 1 := by
    have htwo := hpath 0 n.succ_pos
    have hchild := (givesWay_child hway).1
    omega
  rw [hone, hstart] at hat
  refine ⟨hat, hrest 2 (by simp) fun k hk => ?_⟩
  cases k with
  | zero => simp [hstart]
  | succ k => exact (hpath k (by omega)).symm

/-! ### The statements -/

/-- Settles O22: HeapInsert adds the element and keeps the order, and the checks of payload and room stand before it. -/
theorem pqInsertAddsOneElement : Obligations.PqInsertAddsOneElement := by
  refine ⟨rfl, fun s ho hroom ha => ?_, fun s => exec_pqInsert_illegal, fun s => exec_pqInsert_full⟩
  obtain ⟨h, hi, hperm, hord⟩ := heapInsert_spec
    { key := s.block.running.a0, payload := s.block.running.a1.extractLsb' 0 9 } s.block.heap
  exact ⟨h, exec_pqInsert ha (hi _ hroom), hperm, hord ho⟩

/-- Settles O23: HeapExtract takes the root, a minimum by the heap order, and keeps the order of the rest. -/
theorem pqExtractReturnsTheMinimum : Obligations.PqExtractReturnsTheMinimum := by
  refine ⟨rfl, fun s ho hne => ?_, fun s => exec_pqExtractMin_empty⟩
  obtain ⟨h, hx, hperm, hord⟩ := heapExtract_spec hne
  have hroot : s.block.heap.head? = some (heapAt s.block.heap 0) := by
    rw [List.head?_eq_getElem?, getElem?_eq_heapAt (List.length_pos_of_ne_nil hne)]
  exact ⟨heapAt s.block.heap 0, h, exec_pqExtractMin hx, hroot,
    fun x hx => BitVec.le_def.1 (heapOrdered_root_min ho x hx), hperm, hord ho⟩

/-- Settles O24: the traces of the two sifts, and what they say when the sifting element stays or meets two equal
children. -/
theorem equalKeysAreNeverSwapped : Obligations.EqualKeysAreNeverSwapped := by
  refine ⟨fun s hroom ha => ?_, fun s root last rest hq => ?_, fun s hroom ha hparent => ?_,
    fun s root last rest hq hchildren => ?_, fun s root left right last mid hq heq hless => ?_⟩
  · obtain ⟨m, htrace⟩ := siftUp_append_trace (q := s.block.heap)
      (e := { key := s.block.running.a0, payload := s.block.running.a1.extractLsb' 0 9 }) rfl
    exact ⟨_, m, exec_pqInsert ha (heapInsert_room hroom), by simp, htrace⟩
  · obtain ⟨path, m, htrace⟩ := siftDown_cons_trace (last := last) (rest := rest) rfl
    have hx := hq ▸ heapExtract_cons_append root last rest
    exact ⟨_, path, m, exec_pqExtractMin hx, by simp, htrace⟩
  · refine exec_pqInsert ha ((heapInsert_room hroom).trans (congrArg _ (siftUp_stays fun hne => ?_)))
    have hlt : (s.block.heap.length - 1) / 2 < s.block.heap.length := by omega
    rw [keyAt, keyAt, heapAt_append_left hlt, heapAt_eq_of_getElem? List.getElem?_concat_length]
    exact hparent _ (getElem?_eq_heapAt hlt)
  · have hstay : siftDown (rest.length + 1) 0 (last :: rest) = last :: rest := siftDown_root_stays hchildren
    exact exec_pqExtractMin (hq ▸ (heapExtract_cons_append root last rest).trans (congrArg _ hstay))
  · have hx := hq ▸ heapExtract_cons_append root last (left :: right :: mid)
    exact ⟨_, exec_pqExtractMin hx, siftDown_equal_children rfl heq hless⟩

/-- Settles O25: neither command raises, and heap_size fits the register's field. -/
theorem pqSizeAndPqClear : Obligations.PqSizeAndPqClear := by
  refine ⟨rfl, rfl, fun s => ⟨rfl, fun hle => BitVec.eq_of_toNat_eq ?_⟩, fun s => rfl⟩
  rw [pqSizeWord_toNat, BitVec.toNat_ofNat]
  omega

/-- Settles O26: the check of the index is that its slot is live. -/
theorem pqPeekReadsALiveSlot : Obligations.PqPeekReadsALiveSlot := by
  refine ⟨rfl, fun s e he => ?_, fun s hge => ?_⟩ <;> rw [exec, execPqPeek]
  · obtain ⟨hlt, -⟩ := List.getElem?_eq_some_iff.1 he
    refine standalone_returned ?_
    have hl : legalIndex s.block.running.a0 s.block.heap.length = true := decide_eq_true hlt
    simp [argA, hl, heapAt_eq_of_getElem? he]
  · refine standalone_raisedAtOnce ?_
    have hl : legalIndex s.block.running.a0 s.block.heap.length = false := decide_eq_false (Nat.not_lt.2 hge)
    simp [argA, hl]

end Sys2Proof.Machine
end

section
/-! PROOFS. The invariant of the machine (40_priority_queue.md R130, 10_state.md R21, R26, R35-R40): every step keeps it.
A command runs inside one step, so a form of the invariant for a running command comes first: each piece of a command
keeps it, and both ends of a command turn it into the invariant. -/

namespace Sys2Proof.Machine

/-! ### Legal states -/

/-- Legality is about the block, the parameters and the reset input alone. -/
theorem Legal.of_same_block {s t : State} (h : Legal s) (hp : t.params = s.params) (hb : t.block = s.block)
    (hl : t.resetLine = s.resetLine) : Legal t where
  status := hb ▸ h.status
  idle := hb ▸ h.idle
  heapSize := hb ▸ hp ▸ h.heapSize
  heapOrder := hb ▸ h.heapOrder
  total := hb ▸ h.total
  tree := hb ▸ h.tree
  code := hb ▸ h.code
  reader := hb ▸ h.reader
  writer := hb ▸ h.writer
  held := hb ▸ hl ▸ h.held

/-- A block in its reset state is legal whatever surrounds it, and with the reset input at either level. -/
theorem Legal.of_reset {s : State} (hb : s.block = Block.reset) : Legal s where
  status := hb ▸ legal_reset.status
  idle := hb ▸ legal_reset.idle
  heapSize := hb ▸ Nat.zero_le _
  heapOrder := hb ▸ legal_reset.heapOrder
  total := hb ▸ legal_reset.total
  tree := hb ▸ legal_reset.tree
  code := hb ▸ legal_reset.code
  reader := hb ▸ legal_reset.reader
  writer := hb ▸ legal_reset.writer
  held := fun _ => hb

/-- No command runs while the reset input is asserted (70_reset_and_hazards.md R331). -/
theorem Legal.released {s : State} (h : Legal s) (hb : s.block.status.busy = true) : s.resetLine = false := by
  by_contra hl
  rw [h.held (by simpa using hl)] at hb
  cases hb

/-! ### Legality inside a command -/

/-- The invariant of a running command: the block is not held in reset, ERR and ERR_CODE agree, and the data are legal.
It says nothing else of STATUS and the latches, for both ends of a command write them. -/
def RunLegal (s : State) : Prop :=
  256 ≤ s.params.heapCap ∧ s.resetLine = false ∧ (s.block.status.err = true ↔ s.block.status.errCode ≠ .none) ∧
    BuildLegal s.params.heapCap s.block.heap s.block.nTotal s.block.nodes s.block.root ∧ codeLegal s.block.code ∧
    readerLegal s.block.reader ∧ writerLegal s.block.writer

/-- A legal busy machine is ready to run its command. -/
theorem Legal.runLegal {s : State} (h : Legal s) (hc : 256 ≤ s.params.heapCap) (hb : s.block.status.busy = true) :
    RunLegal s :=
  ⟨hc, h.released hb, h.status.1, ⟨h.heapSize, h.heapOrder, h.total, h.tree⟩, h.code, h.reader, h.writer⟩

/-- A run that ends with a consistent STATUS leaves a legal machine. -/
theorem RunLegal.ended {s : State} (h : RunLegal s) {st : Status} (hst : statusLegal st) :
    Legal { s with block.status := st, block.running := Running.none } := by
  obtain ⟨-, hl, -, ⟨hsize, horder, htotal, htree⟩, hcode, hr, hw⟩ := h
  exact ⟨hst, fun _ => rfl, hsize, horder, htotal, htree, hcode, hr, hw,
    fun hheld => absurd (hheld.symm.trans hl) (by decide)⟩

/-- `return` keeps ERR and ERR_CODE (00_scope.md R12). -/
theorem RunLegal.complete {s : State} (h : RunLegal s) : Legal (complete s) := by
  obtain ⟨-, -, herr, -⟩ := id h
  exact h.ended ⟨herr, fun hb => (by cases hb), fun _ _ => rfl⟩

/-- The error exit sets ERR and an ERR_CODE together (60_exceptions.md R306). -/
theorem RunLegal.errorExit_standalone {s : State} (h : RunLegal s) {e : ErrCode} (he : e ≠ .none) :
    Legal (errorExit .standalone e s) :=
  h.ended ⟨⟨fun _ => he, fun _ => rfl⟩, fun hb => (by cases hb), fun _ hok => (by cases hok)⟩

/-- The bits written by a command leave the writer in its form. -/
theorem RunLegal.writeBits {s : State} (h : RunLegal s) (bits : List Bool) : RunLegal (writeBits bits s) := by
  obtain ⟨bytes, w, hs, hw'⟩ := writeBits_frame bits s
  obtain ⟨hc, hl, herr, hb, hcode, hr, hw⟩ := h
  rw [hs]
  exact ⟨hc, hl, herr, hb, hcode, hr, hw' hw⟩

theorem RunLegal.flushBits {s : State} (h : RunLegal s) : RunLegal (flushBits s) := by
  obtain ⟨bytes, w, hs, hw', -⟩ := flushBits_frame s
  obtain ⟨hc, hl, herr, hb, hcode, hr, hw⟩ := h
  rw [hs, hw' hw]
  exact ⟨hc, hl, herr, hb, hcode, hr, writerLegal_reset⟩

/-- What the error exit does to the streams keeps a run legal (60_exceptions.md R306). -/
theorem RunLegal.finalise {s : State} (h : RunLegal s) (k : ExitKind) : RunLegal (finalise k s) := by
  cases k with
  | standalone => exact h
  | encoder => exact h.flushBits
  | decoder => exact h

theorem RunLegal.errorExit {s : State} (h : RunLegal s) (k : ExitKind) {e : ErrCode} (he : e ≠ .none) :
    Legal (errorExit k e s) :=
  (h.finalise k).errorExit_standalone he

/-! ### The pieces of a command -/

/-- A piece of a command ends legally: whichever way it ends the run is legal, and if it raised, it raised an error. -/
def EndsLegal {α : Type} (r : Res State α) : Prop := RunLegal r.state ∧ ∀ e s, r = .err e s → e ≠ .none

theorem RunLegal.ok {α : Type} {a : α} {s : State} (h : RunLegal s) : EndsLegal (.ok a s) :=
  ⟨h, fun _ _ hr => by cases hr⟩

theorem RunLegal.raise {α : Type} {s : State} (h : RunLegal s) {e : ErrCode} (he : e ≠ .none) :
    EndsLegal (.err e s : Res State α) :=
  ⟨h, fun _ _ hr => by cases hr; exact he⟩

/-- A piece of a command after another. -/
theorem EndsLegal.andThen {α β : Type} {r : Res State α} {f : α → State → Res State β} (hr : EndsLegal r)
    (hf : ∀ a s, RunLegal s → EndsLegal (f a s)) : EndsLegal (r.andThen f) := by
  cases r with
  | ok a s => exact hf a s hr.1
  | err e s => exact hr.1.raise (hr.2 e s rfl)

theorem RunLegal.checkArg {s : State} (h : RunLegal s) (legal : Bool) : EndsLegal (checkArg legal s) := by
  cases legal with
  | true => exact h.ok
  | false => exact h.raise (by decide)

/-- A command whose body ends legally leaves a legal machine. -/
theorem EndsLegal.endState {r : Res State Unit} (h : EndsLegal r) (k : ExitKind) : Legal (endState k r) := by
  cases r with
  | ok a s => exact h.1.complete
  | err e s => exact h.1.errorExit k (h.2 e s rfl)

/-- The queue of a run after HeapInsert (40_priority_queue.md R130, R136). -/
theorem RunLegal.heapInsert {s : State} (h : RunLegal s) (e : Elem) :
    EndsLegal ((heapInsert s.params.heapCap e s.block.heap).within fun q => { s with block.heap := q }) := by
  obtain ⟨hc, hl, herr, ⟨hle, horder, htotal, htree⟩, hdata⟩ := id h
  obtain ⟨q, hroom, hperm, hord⟩ := heapInsert_spec e s.block.heap
  rcases Nat.lt_or_ge s.block.heap.length s.params.heapCap with hlt | hge
  · rw [hroom _ hlt]
    have hsize : q.length ≤ s.params.heapCap := by rw [hperm.length_eq, List.length_cons]; omega
    exact RunLegal.ok ⟨hc, hl, herr, ⟨hsize, hord horder, htotal, htree⟩, hdata⟩
  · rw [heapInsert_full hge]
    exact h.raise (by decide)

/-- The queue of a run after HeapExtract (40_priority_queue.md R130, R142). -/
theorem RunLegal.heapExtract {s : State} (h : RunLegal s) :
    EndsLegal ((heapExtract s.block.heap).within fun q => { s with block.heap := q }) := by
  obtain ⟨hc, hl, herr, ⟨hle, horder, htotal, htree⟩, hdata⟩ := id h
  by_cases hne : s.block.heap = []
  · have hraise : Machine.heapExtract s.block.heap = .err .queueUnderflow s.block.heap := by rw [hne]; rfl
    rw [hraise]
    exact h.raise (by decide)
  · obtain ⟨q, hq, hperm, hord⟩ := heapExtract_spec hne
    rw [hq]
    have hsize : q.length ≤ s.params.heapCap := by
      have hlen := hperm.length_eq
      rw [List.length_cons] at hlen
      omega
    exact RunLegal.ok ⟨hc, hl, herr, ⟨hsize, hord horder, htotal, htree⟩, hdata⟩

/-- TreeBuild raises FORMAT_ERROR or nothing, for the queue has room for every leaf (41_tree_builder.md R164). -/
theorem treeBuild_raises {s t : State} {e : ErrCode} (hc : 256 ≤ s.params.heapCap) (h : treeBuild s = .err e t) :
    e = .formatError := by
  by_cases hv : countsValid s.block.freq
  · obtain ⟨_, _, -, -, hok⟩ := treeBuild_valid hv
    rw [hok s hc rfl] at h
    cases h
  · rw [treeBuild_invalid hv] at h
    cases h
    rfl

theorem RunLegal.treeBuild {s : State} (h : RunLegal s) : EndsLegal (treeBuild s) := by
  obtain ⟨n, q, ns, root, hs, hb'⟩ := treeBuild_frame s
  obtain ⟨hc, hl, herr, hb, hdata⟩ := h
  refine ⟨?_, fun e t he => by rw [treeBuild_raises hc he]; decide⟩
  rw [hs]
  exact ⟨hc, hl, herr, hb' hc hb, hdata⟩

theorem RunLegal.readBit {s : State} (h : RunLegal s) : EndsLegal (readBit s) := by
  obtain ⟨r, c, evs, hs, -, hr', he⟩ := readBit_frame s
  obtain ⟨hc, hl, herr, hb, hcode, hr, hw⟩ := h
  refine ⟨?_, fun e t hraise => by rw [he e t hraise]; decide⟩
  rw [hs]
  exact ⟨hc, hl, herr, hb, hcode, hr' hr, hw⟩

theorem RunLegal.readU32 {s : State} (h : RunLegal s) : EndsLegal (readU32 s) := by
  obtain ⟨r, c, evs, hs, -, hr', he⟩ := readU32_frame s
  obtain ⟨hc, hl, herr, hb, hcode, hr, hw⟩ := h
  refine ⟨?_, fun e t hraise => by rw [he e t hraise]; decide⟩
  rw [hs]
  exact ⟨hc, hl, herr, hb, hcode, hr' hr, hw⟩

theorem RunLegal.encodeBody {s : State} (h : RunLegal s) : EndsLegal (encodeBody s) := by
  obtain ⟨_, _, _, _, _, _, _, _, _, _, _, _, _, _, hs, -, hw', hb', -⟩ := encodeBody_frame s
  obtain ⟨hc, hl, herr, hb, hcode, hr, -⟩ := h
  obtain ⟨hbuild, hcode'⟩ := hb' hc hb hcode
  refine ⟨by rw [hs]; exact ⟨hc, hl, herr, hbuild, hcode', hr, hw'⟩, fun e t hraise => ?_⟩
  rcases encodeBody_outcome s hc with ⟨u, hu⟩ | ⟨u, hu, -⟩ <;> rw [hu] at hraise <;> cases hraise
  decide

theorem RunLegal.decodeBody {s : State} (h : RunLegal s) : EndsLegal (decodeBody s) := by
  obtain ⟨_, _, _, _, _, _, _, _, _, _, _, _, _, hs, -, hr', hb', -⟩ := decodeBody_frame s
  obtain ⟨hc, hl, herr, hb, hcode, -, hw⟩ := h
  refine ⟨by rw [hs]; exact ⟨hc, hl, herr, hb' hc hb, hcode, hr', hw⟩, fun e t hraise => ?_⟩
  have hnone : ∀ row ∈ mayRaise .decode, row.1 ≠ .none := by decide
  exact hnone _ (decodeBody_raises hc hraise)

/-! ### Every command and every move -/

/-- A standalone command is legal when its body ends legally from its first phase. -/
theorem RunLegal.standalone {s t : State} {body : State → Res State Unit} (h : RunLegal s)
    (ht : standalone body s = .next t) (hb : ∀ u, RunLegal u → EndsLegal (body u)) : Legal t := by
  cases ht
  exact (hb (setPhase .exec s) h).endState .standalone

/-- Every command leads from a legal run to a legal machine. -/
theorem exec_legal {i : Instr} {s t : State} (h : RunLegal s) (ht : exec i s = .next t) : Legal t := by
  unfold exec at ht
  cases i with
  | nop | pqSize => exact h.standalone ht fun u hu => RunLegal.ok hu
  | reset => cases ht; exact .of_reset rfl
  | pqInsert => exact h.standalone ht fun u hu => (hu.checkArg _).andThen fun _ v hv => hv.heapInsert _
  | pqExtractMin => exact h.standalone ht fun u hu => hu.heapExtract.andThen fun _ v hv => RunLegal.ok hv
  | pqClear =>
    refine h.standalone ht fun u ⟨hc, hl, herr, hb, hdata⟩ => RunLegal.ok ⟨hc, hl, herr, ?_, hdata⟩
    exact ⟨Nat.zero_le _, legal_reset.heapOrder, hb.total, hb.tree⟩
  | pqPeek | treeRead | codeLookup =>
    exact h.standalone ht fun u hu => (hu.checkArg _).andThen fun _ v hv => RunLegal.ok hv
  | freqClear =>
    refine h.standalone ht fun u ⟨hc, hl, herr, hb, hdata⟩ => RunLegal.ok ⟨hc, hl, herr, ?_, hdata⟩
    exact ⟨hb.size, hb.order, Nat.zero_le _, hb.tree⟩
  | freqCount =>
    refine h.standalone ht fun u hu => (hu.checkArg _).andThen fun _ v hv => ?_
    simp only []
    split
    case isTrue => exact hv.raise (by decide)
    case isFalse hlt =>
      obtain ⟨hc, hl, herr, hb, hdata⟩ := hv
      have htotal : (v.block.nTotal + 1#32).toNat ≤ Config.maxTotal := by
        rw [BitVec.toNat_add]
        simp only [Config.maxTotal, BitVec.toNat_ofNat] at hlt ⊢
        omega
      exact RunLegal.ok ⟨hc, hl, herr, ⟨hb.size, hb.order, htotal, hb.tree⟩, hdata⟩
  | treeBuild => exact h.standalone ht fun u hu => hu.treeBuild.andThen fun _ v hv => RunLegal.ok hv
  | codeGen =>
    exact h.standalone ht fun u ⟨hc, hl, herr, hb, _, hcursors⟩ =>
      RunLegal.ok ⟨hc, hl, herr, hb, codeTableOf_legal hb.tree, hcursors⟩
  | bwWriteBit =>
    exact h.standalone ht fun u hu => (hu.checkArg _).andThen fun _ v hv => (hv.writeBits [bitField (argA v)]).ok
  | bwWriteU32 => exact h.standalone ht fun u hu => (hu.writeBits (bitsDown (argA u) 32)).ok
  | bwFlush => exact h.standalone ht fun u hu => hu.flushBits.ok
  | brReadBit => exact h.standalone ht fun u hu => hu.readBit.andThen fun _ v hv => RunLegal.ok hv
  | brReadU32 => exact h.standalone ht fun u hu => hu.readU32.andThen fun _ v hv => RunLegal.ok hv
  | brAlign =>
    exact h.standalone ht fun u ⟨hc, hl, herr, hb, hcode, _, hw⟩ =>
      RunLegal.ok ⟨hc, hl, herr, hb, hcode, fun _ => rfl, hw⟩
  | encode => cases ht; exact h.encodeBody.endState .encoder
  | decode => cases ht; exact h.decodeBody.endState .decoder

/-- The block's turn: it runs a command, meets an illegal word, or is idle. -/
theorem blockTurn_legal {s t : State} (h : Legal s) (hc : 256 ≤ s.params.heapCap) (ht : blockTurn s = .next t) :
    Legal t := by
  rcases blockTurn_eq_next ht with ⟨-, rfl⟩ | ⟨hb, ⟨i, -, hx⟩ | ⟨-, rfl⟩⟩
  · exact h
  · exact exec_legal (h.runLegal hc hb) hx
  · have hrun : RunLegal (setPhase .exec s) := h.runLegal hc hb
    exact hrun.errorExit_standalone (e := .illegalCommand) (by decide)

/-- An acceptance clears ERR and ERR_CODE together (00_scope.md R12). -/
theorem accept_legal {s : State} (h : Legal s) (hl : s.resetLine = false) (w : Word) : Legal (accept w s) :=
  { h with
    status := by simp [statusLegal, Status.accepted]
    idle := fun hb => by cases hb
    held := fun hr => absurd (hr.symm.trans hl) (by decide) }

/-- A register write to a block that is not held in reset. -/
theorem writeReg_legal {s : State} (h : Legal s) (hl : s.resetLine = false) (r : Reg) (v : Word) :
    Legal (writeReg r v s) := by
  have hheld : ∀ {b : Block}, s.resetLine = true → b = Block.reset :=
    fun hr => absurd (hr.symm.trans hl) (by decide)
  rcases writeReg_cases r v s with hs | ⟨-, -, hs⟩ | ⟨-, ⟨-, hs⟩ | ⟨-, hs⟩ | ⟨-, hs⟩ | ⟨b, -, hs⟩⟩ <;> rw [hs]
  exacts [h, { h with held := hheld }, accept_legal h hl v, { h with held := hheld }, { h with held := hheld },
    { h with held := hheld }]

theorem setSource_legal {bytes : List Byte} {pos : Nat} {s t : State} (h : Legal s)
    (ht : setSource bytes pos s = .next t) : Legal t := by
  unfold setSource at ht
  split at ht <;> cases ht
  exact h.of_same_block rfl rfl rfl

/-- Every action of the host keeps the machine legal. -/
theorem act_legal {a : HostAction} {s t : State} (h : Legal s) (hc : 256 ≤ s.params.heapCap)
    (ht : act a s = .next t) : Legal t := by
  cases a with
  | memRead n addr =>
    obtain ⟨off, v, d, -, rfl⟩ := memRead_eq_next ht
    exact h.of_same_block rfl rfl rfl
  | memWrite n addr v =>
    obtain ⟨off, -, ⟨rfl, -⟩ | ⟨hl, r, -, rfl⟩⟩ := memWrite_eq_next ht
    · exact h
    · exact writeReg_legal h hl r v
  | setSource bytes pos => exact setSource_legal h ht
  | assertReset kept => cases ht; exact .of_reset rfl
  | releaseReset => cases ht; exact { h with held := fun hl => by cases hl }
  | run => exact blockTurn_legal h hc ht
  | wait addr polls =>
    rcases waitTurn_eq_next ht with ⟨-, -, hb⟩ | ⟨off, v, d, -, rfl⟩
    · have hs : Legal { s with script := .wait addr 0 :: s.script } := h.of_same_block rfl rfl rfl
      exact blockTurn_legal hs hc hb
    · exact h.of_same_block rfl rfl rfl

/-- Settles O57: a step is the block's turn or one action, and both keep the machine legal. -/
theorem everyStepKeepsTheMachineLegal : Obligations.EveryStepKeepsTheMachineLegal := by
  intro s t h ht
  obtain ⟨hw, hmove⟩ := step_eq_next ht
  obtain ⟨hc, -, -⟩ := params_wf_iff.1 hw
  rcases hmove with ⟨-, hb⟩ | ⟨a, rest, -, ha⟩
  · exact blockTurn_legal h hc hb
  · have hs : Legal { s with script := rest } := h.of_same_block rfl rfl rfl
    exact act_legal hs hc ha

end Sys2Proof.Machine
end

section
/-! PROOFS. The statements of 42_code_table.md about CODE_GEN and CODE_LOOKUP. Before them, the rules they share: the next
state of the two commands and of TREE_BUILD, and the table that TREE_BUILD and CODE_GEN leave of valid counts. -/

namespace Sys2Proof.Machine

/-! ### The next state of the commands -/

/-- TREE_BUILD on valid counts ends with their tree, the number of symbols and the root (41_tree_builder.md R170). -/
theorem exec_treeBuild {s : State} (hc : 256 ≤ s.params.heapCap) (hv : countsValid s.block.freq) :
    exec .treeBuild s =
      .next
        (returned s
          { s.block with
            nTotal := BitVec.ofNat 32 (freqSum s.block.freq), heap := []
            nodes := (treeOf s.block.freq).1, root := (treeOf s.block.freq).2
            result0 := BitVec.ofNat 32 (symbolsOf s.block.freq).length
            result1 := (treeOf s.block.freq).2.setWidth 32 }) := by
  obtain ⟨-, -, hbuild⟩ := treeBuild_treeOf hv
  rw [exec, execTreeBuild]
  refine standalone_returned ?_
  rw [hbuild (setPhase .exec s) hc rfl]
  rfl

/-- CODE_GEN ends with the table of the tree the block holds (42_code_table.md R192). -/
theorem exec_codeGen (s : State) :
    exec .codeGen s =
      .next
        (returned s
          { s.block with
            code := codeTableOf s.block.nodes s.block.root
            result0 := BitVec.ofNat 32 (codeCount (codeTableOf s.block.nodes s.block.root))
            result1 := BitVec.ofNat 32 (codeMaxLen (codeTableOf s.block.nodes s.block.root)) }) := rfl

/-- The byte of an argument in the range of a byte (30_encoding.md R104). -/
theorem byteField_eq {a : Word} {b : Byte} (h : a.toNat = b.toNat) : byteField a = b := by
  apply BitVec.eq_of_toNat_eq
  rw [byteField, BitVec.extractLsb'_toNat, Nat.shiftRight_zero, h]
  exact Nat.mod_eq_of_lt b.isLt

/-- CODE_LOOKUP of a byte ends with its entry in the results (42_code_table.md R193). -/
theorem exec_codeLookup {s : State} {b : Byte} (ha : s.block.running.a0.toNat = b.toNat) :
    exec .codeLookup s =
      .next
        (returned s
          { s.block with
            result0 := (codeAt s.block.code b).len.setWidth 32, cwreg := (codeAt s.block.code b).cw }) := by
  rw [exec, execCodeLookup]
  refine standalone_returned ?_
  have hl : legalByte s.block.running.a0 = true := decide_eq_true (by omega)
  simp [argA, hl, byteField_eq ha]

theorem exec_codeLookup_illegal {s : State} (ha : 0xFF < s.block.running.a0.toNat) :
    exec .codeLookup s = .next (raisedAtOnce s .badArgument) := by
  rw [exec, execCodeLookup]
  refine standalone_raisedAtOnce ?_
  have hl : legalByte s.block.running.a0 = false := decide_eq_false (Nat.not_le.2 ha)
  simp [argA, hl]

/-! ### The code table of valid counts -/

/-- An entry without a codeword, in a table with no bit at or above a length, has no bit (10_state.md R38). -/
theorem codeLegal.cw_eq_zero {c : Vector CodeEntry 256} (h : codeLegal c) {b : Byte} (hb : (codeAt c b).len = 0#8) :
    (codeAt c b).cw = 0#256 := by
  apply BitVec.eq_of_getLsbD_eq
  intro j _
  rw [BitVec.getLsbD_zero]
  exact h b j (by simp [hb])

/-- TREE_BUILD on valid counts, then CODE_GEN: both complete, and the table is the one of the counts' tree. -/
theorem treeBuild_then_codeGen {s : State} (hc : 256 ≤ s.params.heapCap) (hv : countsValid s.block.freq) :
    ∃ t u, exec .treeBuild s = .next t ∧ exec .codeGen t = .next u ∧ u.block.code = codeOf s.block.freq :=
  ⟨_, _, exec_treeBuild hc hv, exec_codeGen _, rfl⟩

/-- A byte's entry in the table of valid counts: for a counted byte the path from the root to its leaf, 1 to n - 1 bits
long (1 bit for one symbol), and no codeword for another byte (42_code_table.md R191, R196). -/
theorem codeOf_spec {f : Vector Word 256} (hv : countsValid f) (b : Byte) :
    (freqAt f b ≠ 0#32 ∧ ∃ j, walkPath (treeOf f).1 (treeOf f).2 (codewordBits (codeAt (codeOf f) b)) = some j ∧
        (treeOf f).1[j.toNat]? = some (.leaf b) ∧ 1 ≤ (codeAt (codeOf f) b).len.toNat ∧
        (codeAt (codeOf f) b).len.toNat ≤ max 1 ((symbolsOf f).length - 1)) ∨
      (freqAt f b = 0#32 ∧ (codeAt (codeOf f) b).len.toNat = 0) := by
  obtain ⟨hshape, hfacts, -⟩ := treeBuild_treeOf hv
  rw [codeOf]
  rcases codeTable_built hshape hfacts b with ⟨hb, p, j, hwalk, hleaf, hpos, hle, -, hbits, hlen⟩ | ⟨hb, hzero⟩
  · rw [hbits, hlen]
    exact .inl ⟨hb, j, hwalk, hleaf, hpos, hle⟩
  · exact .inr ⟨hb, by rw [hzero]; rfl⟩

/-! ### The statements -/

/-- Settles O34: each entry of the table of a legal tree is the path to a leaf of its byte, or zero when there is none. -/
theorem codeGenRecordsThePathToEachLeaf : Obligations.CodeGenRecordsThePathToEachLeaf := by
  refine ⟨rfl, fun s ⟨bs, hfew, hshape⟩ => ?_⟩
  obtain ⟨hmax, hattained⟩ := codeMaxLen_spec (codeTableOf s.block.nodes s.block.root)
  refine ⟨_, _, _, exec_codeGen s, codeCount_eq _, hmax, hattained, fun b => ?_⟩
  rcases codeTableOf_spec hfew hshape b with ⟨p, j, hwalk, hleaf, -, hpos, hle, hentry⟩ | ⟨hnone, hentry⟩
  · have hp : p.length ≤ 255 := by omega
    rw [hentry, pathEntry_bits hp]
    refine ⟨fun _ => ⟨j, hwalk, hleaf⟩, fun h0 => ?_⟩
    have hlen := pathEntry_len hp
    rw [h0, BitVec.toNat_ofNat] at hlen
    omega
  · rw [hentry]
    exact ⟨fun hne => absurd rfl hne, fun _ => ⟨rfl, hnone⟩⟩

/-- Settles O35: the path to a leaf has 1 to n - 1 bits, and exactly the counted bytes have a leaf. -/
theorem codeLengthsAreBounded : Obligations.CodeLengthsAreBounded := by
  intro s hc hv
  obtain ⟨t, u, ht, hu, hcode⟩ := treeBuild_then_codeGen hc hv
  refine ⟨t, u, ht, hu, fun b => ?_⟩
  rw [hcode]
  rcases codeOf_spec hv b with ⟨hb, -, -, -, hpos, hle⟩ | ⟨hb, hzero⟩
  · exact ⟨iff_of_true hpos hb, fun hn => by omega, fun hn => by omega⟩
  · exact ⟨iff_of_false (by omega) (not_not.2 hb), fun _ => by omega, fun _ => by omega⟩

/-- Settles O36: no path goes on from a leaf, so a codeword that is a prefix of another leads to the other's leaf. -/
theorem codewordsArePrefixFree : Obligations.CodewordsArePrefixFree := by
  intro s t u hc hv ht hu b c hbc hb hcount hprefix
  obtain ⟨t', u', ht', hu', hcode⟩ := treeBuild_then_codeGen hc hv
  cases ht.symm.trans ht'
  cases hu.symm.trans hu'
  rw [hcode] at hprefix
  rcases codeOf_spec hv b with ⟨-, j, hwalkb, hleafb, -⟩ | ⟨hzero, -⟩
  · rcases codeOf_spec hv c with ⟨-, k, hwalkc, hleafc, -⟩ | ⟨hzero, -⟩
    · obtain ⟨rfl, -⟩ := walkPath_prefix hwalkb hleafb hwalkc hprefix
      cases hleafb.symm.trans hleafc
      exact hbc rfl
    · exact hcount hzero
  · exact hb hzero

/-- Settles O37: the byte's entry is returned as it stands, and the check of the argument comes before it. -/
theorem codeLookupReturnsTheEntry : Obligations.CodeLookupReturnsTheEntry := by
  refine ⟨rfl, fun s b => exec_codeLookup, fun s b hlegal ha h0 => ?_, fun s => exec_codeLookup_illegal⟩
  rw [exec_codeLookup ha, hlegal.cw_eq_zero h0, h0]
  rfl

end Sys2Proof.Machine
end
